-- ==== Sys2Proof/Word.lean ====
section
/-!
DEFINITION. The plainest types of the zh_1602a block: bytes, nibbles, pin identifiers, pin levels, and the values a
floating-point operand can take (00_scope.md rules R6 and R7).
-/

namespace Sys2Proof

/-- An 8-bit unsigned value (rule R7). -/
abbrev Byte := BitVec 8

/-- A 4-bit unsigned value: the payload of a nibble transfer (rule R61). -/
abbrev Nibble := BitVec 4

/-- A pin identifier (rule R6, `PinId`: abstract, with decidable equality). DESIGN CHOICE, safe: natural numbers stand for
the platform's identifiers (log entry 2); the model only ever compares two of them. -/
abbrev PinId := Nat

/-- A pin level, 0 or 1 (rule R9); `true` is 1. -/
abbrev Level := Bool

/-- A value of PRINT_FLOAT's operand (rule R70, `FLOAT_FMT`), whatever the binary format: a finite value is
`(-1)^neg * mant * 2^exp`. The fraction of a NaN is kept, since the formatter may look at it. The value is exact
arithmetic, not a bit pattern: no rule of the spec looks at the operand's bits (log entry 4). -/
inductive FloatVal where
  | nan (payload : Nat)
  | inf (neg : Bool)
  | finite (neg : Bool) (mant : Nat) (exp : Int)
  deriving DecidableEq, Repr

end Sys2Proof
end

