-- ==== Sys2Proof/Config.lean ====
section
/-!
DEFINITION. What a platform fixes (00_scope.md rule R6, the OPEN parameters), as plain data that the state carries, and
the free values: constants without a body, for every value the spec leaves to a draw.
-/

namespace Sys2Proof

/-- `RANGE_RULE` (rules R6 and R82). -/
inductive RangeRule where
  | allValid
  | sourceAnyValid
  deriving DecidableEq, Repr

/-- `ERR_PRECEDENCE` (rules R6, R131 and R150). -/
inductive ErrPrecedence where
  | stateFirst
  | argFirst
  deriving DecidableEq, Repr

/-- `FLOAT_FMT` (rule R6): a binary format with `mantBits` bits of significand, whose values are multiples of
`2^lsbMin` below `2^top`. Binary64 is 53, -1074, 1024. -/
structure FloatFmt where
  mantBits : Nat
  lsbMin   : Int
  top      : Int
  deriving DecidableEq, Repr

/-- `PIN_VALID` (rule R6) as plain data: the listed identifiers, all but the listed ones, or the free function
`Config.platformPinValid` at `k`, of which nothing is known, so that a statement over every `Config` holds for every
`PIN_VALID : PinId → Bool` (log entry 1). -/
inductive PinRange where
  | only (pins : List PinId)
  | allBut (pins : List PinId)
  | platform (k : Nat)
  deriving DecidableEq, Repr

/-- The OPEN parameters of rule R6 that are plain data. `pinRange` is `PIN_VALID`, `intBits` is `INT_BITS`, `precMax` is
`PREC_MAX`. The state carries this record, no step changes it, and a statement over every state holds for every platform
(log entry 1). -/
structure Config where
  pinRange      : PinRange
  rangeRule     : RangeRule
  errPrecedence : ErrPrecedence
  intBits       : Nat
  floatFmt      : FloatFmt
  precMax       : Nat
  deriving DecidableEq, Repr

/-- The platform `State.reset` names. DESIGN CHOICE, unsafe for claims about runs from reset (log entry 1): the spec leaves
these parameters open; `allValid` is the spec's default (92_eei_decisions.md D4), the others are those under which
95_test_vectors.md writes its vectors. -/
def Config.initial : Config :=
  { pinRange := .only (List.range' 1 39)
    rangeRule := .allValid
    errPrecedence := .stateFirst
    intBits := 32
    floatFmt := { mantBits := 53, lsbMin := -1074, top := 1024 }
    precMax := 6 }

/-- The host's answer to `GpioConfigure` (rule R9). -/
inductive ConfigAnswer where
  | ok
  | fail
  deriving DecidableEq, Repr, Inhabited

/-- The receiver's interface width `IFW` (10_state.md rule R30). -/
inductive InterfaceWidth where
  | eight
  | four
  deriving DecidableEq, Repr, Inhabited

/-- The receiver's nibble phase `PHASE` (rule R30). -/
inductive Phase where
  | high
  | low
  deriving DecidableEq, Repr, Inhabited

/-- The receiver's `LINES` (rule R30). -/
inductive DisplayLines where
  | one
  | two
  deriving DecidableEq, Repr, Inhabited

/-- The receiver's `FONT` (rule R30). -/
inductive Font where
  | dots5x8
  | dots5x10
  deriving DecidableEq, Repr, Inhabited

/-! ### Free values

Each is applied to the state's draw counter (or to the operands it depends on), and nothing in Lean can tell what it is. -/

/-- `CFG_ORACLE` (rules R6 and R132): the answer to a configure call the state's `cfgAnswers` does not list. -/
opaque Config.cfgOracle : Nat → ConfigAnswer

/-- `PIN_VALID` of a platform whose valid identifiers are not written out (rule R6). -/
opaque Config.platformPinValid : Nat → PinId → Bool

/-- `LEVEL_AFTER_CONFIGURE` (rule R28): the level of a pin no `GpioSet` has driven yet. -/
opaque Config.levelAfterConfigure : PinId → Nat → Level

/-- The microseconds a `GpioConfigure` or `GpioSet` takes: "zero or more" (rules R98 and R196). -/
opaque Config.callTime : Nat → Nat

/-- The microseconds by which a `Wait(n)` exceeds `n` (rule R9: "at least", no upper bound). -/
opaque Config.waitOverrun : Nat → Nat

/-- The microseconds that pass while the block is `Idle` and the host issues nothing. -/
opaque Config.idleTime : Nat → Nat

/-- What the receiver sees on D3..D0 when it reads eight lines and the block drives four (42_bus_words.md rule R110). -/
opaque Config.undrivenLines : Nat → Nibble

/-! A draw of the receiver's observer state, field by field (rules R32 and R121). -/

opaque Config.drawIfw : Nat → InterfaceWidth
opaque Config.drawPhase : Nat → Phase
opaque Config.drawHeld : Nat → Nibble
opaque Config.drawAc : Nat → BitVec 7
/-- The byte at a DDRAM address. -/
opaque Config.drawDdram : Nat → Nat → Byte
opaque Config.drawLines : Nat → DisplayLines
opaque Config.drawFont : Nat → Font
opaque Config.drawDisp : Nat → Bool
opaque Config.drawCursor : Nat → Bool
opaque Config.drawBlink : Nat → Bool
opaque Config.drawInc : Nat → Bool
opaque Config.drawShift : Nat → Bool
opaque Config.drawBusyUntil : Nat → Nat

/-- The text `formatFixed` gives where no law of 44_command_layer.md rule R167 constrains it, and the part before the
'.' where only law 1 does. -/
opaque Config.formatFreeText : FloatVal → Nat → List Byte

/-- The `k`-th digit after the '.' where only law 1 of rule R167 constrains `formatFixed` (taken modulo 10). -/
opaque Config.formatFreeDigit : FloatVal → Nat → Nat → Nat

end Sys2Proof
end

