-- ==== Sys2Proof/Syntax.lean ====
section
/-!
DEFINITION. The instructions: one constructor of `Instr` for each row of spec/opcode_table.json (30_encoding.md rules R64
and R70), their operand types, and the encoded forms the decoder reads.
-/

namespace Sys2Proof

/-- `BusWidthMode` (10_state.md rule R22). -/
inductive BusWidthMode where
  | eightBit
  | fourBit
  deriving DecidableEq, Repr

/-- `PinRecord` (rule R23): ten signal roles, each bound to a pin identifier. -/
structure PinRecord where
  rs : PinId
  e  : PinId
  d0 : PinId
  d1 : PinId
  d2 : PinId
  d3 : PinId
  d4 : PinId
  d5 : PinId
  d6 : PinId
  d7 : PinId
  deriving DecidableEq, Repr

/-- The instructions, in the opcode table's order: nine bus words (rule R64), eight requests (rule R70) and the reserved
request codes (rule R73). Rows, columns, progress and precision are mathematical integers (rule R71). -/
inductive Instr where
  | nibFset8
  | nibFset4
  | functionSet8bit
  | functionSet4bit
  | displayControl
  | clearDisplay
  | entryMode
  | setDdramAddr (a : BitVec 7)
  | writeData (d : Byte)
  | init (pins : Option PinRecord)
  | clear
  | setCursor (row col : Int)
  | printChars (text : Option (List Byte))
  | printInt (value : Int)
  | printFloat (value : FloatVal) (precision : Int)
  | progressBar (row progress : Int)
  | clearRow (row : Int)
  | reserved (low : BitVec 3)
  deriving DecidableEq, Repr

/-- One operand of a request's operand record (rule R71). -/
inductive Operand where
  | pins (p : Option PinRecord)
  | text (t : Option (List Byte))
  | int (v : Int)
  | float (v : FloatVal)
  deriving DecidableEq, Repr

/-- An encoded instruction in one of the formats of 30_encoding.md: the init nibble `N5` (rule R63), the bus word `B9`
(rule R60), a request `REQ` as a 4-bit code and an operand record (rule R70); `raw` is a number of bits that fits none of
them. The spec gives operand records no bits (log entry 5). -/
inductive CodeWord where
  | n5 (w : BitVec 5)
  | b9 (w : BitVec 9)
  | req (op : BitVec 4) (operands : List Operand)
  | raw (nbits w : Nat)
  deriving DecidableEq, Repr

end Sys2Proof
end

