-- ==== Sys2Proof/Machine/Timing.lean ====
section
/-!
DEFINITION. The fixed parameters of 00_scope.md rule R6: times in microseconds, the display's size, the row bases.
-/

namespace Sys2Proof.Machine

/-- `T_E_HIGH`: E is high at least 1 µs (rules R6 and R90). -/
def tEHigh : Nat := 1
/-- `T_E_POST`: at least 40 µs after E falls (rules R6 and R90). -/
def tEPost : Nat := 40
/-- `T_POWER_ON`, 20 ms (rules R6 and R133). -/
def tPowerOn : Nat := 20000
/-- `T_INIT_LONG`, 10 ms (rules R6, R134 and R136). -/
def tInitLong : Nat := 10000
/-- `T_INIT_SHORT`, 150 µs (rules R6, R134 and R136). -/
def tInitShort : Nat := 150
/-- `T_CLEAR`, 1.6 ms (rules R6, R117 and R212). -/
def tClear : Nat := 1600
/-- `T_SETTLE`, 10 ms (rules R6 and R140). -/
def tSettle : Nat := 10000
/-- `ROWS` (rule R6). -/
def rows : Nat := 2
/-- `COLS` (rule R6). -/
def cols : Nat := 16

/-- `ROW_BASE` (rules R6 and R44): row 0 at 0x00, row 1 at 0x40. Only rows 0 and 1 are ever asked for. -/
def rowBase (row : Int) : BitVec 7 := if row = 1 then 0x40#7 else 0x00#7

/-- `ddramAddr(row, col) = ROW_BASE[row] + col` (20_memory.md rule R44). -/
def ddramAddr (row col : Int) : BitVec 7 := rowBase row + BitVec.ofInt 7 col

end Sys2Proof.Machine
end

