-- ==== Sys2Proof/Machine/Operands.lean ====
section
/-!
DEFINITION. The operand checks: which operands can be written in the operand types at all (30_encoding.md rules R71 and
R72; the others are refused before they reach the block), and which are within a request's bounds (`ARG_OK`,
44_command_layer.md rule R150; the others end in InvalidArgument).
-/

namespace Sys2Proof.Machine

/-- `value` of PRINT_INT lies in `[-2^(INT_BITS-1), 2^(INT_BITS-1) - 1]` (rule R71). -/
def intInRange (cfg : Config) (v : Int) : Bool :=
  decide (-(2 ^ (cfg.intBits - 1) : Int) ≤ v) && decide (v ≤ 2 ^ (cfg.intBits - 1) - 1)

/-- A present text holds bytes 0x01..0xFF (rule R72, 92_eei_decisions.md D18). -/
def textHasNoNul : Option (List Byte) → Bool
  | none => true
  | some t => !t.contains 0x00#8

/-- How many bits a positive number has. -/
def bitLength (m : Nat) : Nat := if m = 0 then 0 else Nat.log2 m + 1

/-- The operand is a value of `FLOAT_FMT` (rule R70), written in the one form the model uses for it: an odd significand,
or 0 with exponent 0. That every format has both infinities and a NaN of every payload is the model's choice, since rule R6 leaves the
format open (DESIGN CHOICE, log entry 4). -/
def floatRepresentable (fmt : FloatFmt) : FloatVal → Bool
  | .nan _ => true
  | .inf _ => true
  | .finite _ m e =>
    if m = 0 then e == 0
    else m % 2 == 1 && decide (bitLength m ≤ fmt.mantBits) && decide (fmt.lsbMin ≤ e)
      && decide (e + bitLength m ≤ fmt.top)

/-- The integer `n` is a value of `FLOAT_FMT` (law 3 of rule R167: "an integer `N` representable in `FLOAT_FMT`"). -/
def natRepresentable (fmt : FloatFmt) (n : Nat) : Bool :=
  n % 2 ^ (bitLength n - fmt.mantBits) == 0 && n % 2 ^ fmt.lsbMin.toNat == 0 && decide ((bitLength n : Int) ≤ fmt.top || n == 0)

/-- `row ∈ {0,1}` (rule R150). -/
def rowOk (row : Int) : Bool := row == 0 || row == 1

/-- `0 ≤ col < 16` (rule R150). -/
def colOk (col : Int) : Bool := decide (0 ≤ col) && decide (col < cols)

/-- `0 ≤ prog ≤ 100` (rule R150). -/
def progressOk (progress : Int) : Bool := decide (0 ≤ progress) && decide (progress ≤ 100)

/-- `0 ≤ prec ≤ PREC_MAX` (rule R150). -/
def precisionOk (cfg : Config) (prec : Int) : Bool := decide (0 ≤ prec) && decide (prec ≤ cfg.precMax)

/-- The block forms only 0x00..0x0F and 0x40..0x4F as DDRAM addresses (20_memory.md rule R45, 42_bus_words.md rule R119). -/
def addressFormed (a : BitVec 7) : Bool := decide (a.toNat < 0x10) || (decide (0x40 ≤ a.toNat) && decide (a.toNat < 0x50))

end Sys2Proof.Machine
end

