-- ==== Sys2Proof/Decode.lean ====
section
/-!
DEFINITION. The decoder and the encoder (30_encoding.md rules R60 to R74, spec/opcode_table.json). Decoding is total: a
code word is one instruction, or it is rejected by name.
-/

namespace Sys2Proof

/-- Why a code word is no instruction. -/
inductive DecodeError where
  /-- An `N5` unit other than the nibbles 0x3 and 0x2 with rs = 0 (rule R67). -/
  | noSuchNibble (w : BitVec 5)
  /-- A `B9` command word the block never emits (rule R67). -/
  | neverEmittedWord (w : BitVec 9)
  /-- The operand record is not of the shape the request's row gives (rules R70 and R72). -/
  | wrongOperandRecord (op : BitVec 4)
  /-- The bits fit no format of the table. -/
  | noSuchFormat (nbits w : Nat)
  deriving DecidableEq, Repr

/-- Decode an `N5` unit (rule R63; rows NIB_FSET8 and NIB_FSET4, mask 0x1F). -/
def decodeN5 (w : BitVec 5) : Except DecodeError Instr :=
  if w &&& 0x1F#5 = 0x03#5 then .ok .nibFset8
  else if w &&& 0x1F#5 = 0x02#5 then .ok .nibFset4
  else .error (.noSuchNibble w)

/-- Decode a `B9` bus word (rule R64): each row's mask and match, in the table's order. -/
def decodeB9 (w : BitVec 9) : Except DecodeError Instr :=
  if w &&& 0x1FF#9 = 0x038#9 then .ok .functionSet8bit
  else if w &&& 0x1FF#9 = 0x028#9 then .ok .functionSet4bit
  else if w &&& 0x1FF#9 = 0x00C#9 then .ok .displayControl
  else if w &&& 0x1FF#9 = 0x001#9 then .ok .clearDisplay
  else if w &&& 0x1FF#9 = 0x006#9 then .ok .entryMode
  else if w &&& 0x180#9 = 0x080#9 then .ok (.setDdramAddr (w.extractLsb' 0 7))
  else if w &&& 0x100#9 = 0x100#9 then .ok (.writeData (w.extractLsb' 0 8))
  else .error (.neverEmittedWord w)

/-- Decode a request (rule R70): the code picks the row, the operand record must have that row's shape. Codes 0x8..0xF
are the reserved row (rule R73), whatever comes with them. -/
def decodeReq (op : BitVec 4) (operands : List Operand) : Except DecodeError Instr :=
  if op.getLsbD 3 then .ok (.reserved (op.extractLsb' 0 3))
  else match op.toNat, operands with
  | 0, [.pins p] => .ok (.init p)
  | 1, [] => .ok .clear
  | 2, [.int row, .int col] => .ok (.setCursor row col)
  | 3, [.text t] => .ok (.printChars t)
  | 4, [.int v] => .ok (.printInt v)
  | 5, [.float v, .int prec] => .ok (.printFloat v prec)
  | 6, [.int row, .int progress] => .ok (.progressBar row progress)
  | 7, [.int row] => .ok (.clearRow row)
  | _, _ => .error (.wrongOperandRecord op)

/-- The decoder. -/
def decode : CodeWord → Except DecodeError Instr
  | .n5 w => decodeN5 w
  | .b9 w => decodeB9 w
  | .req op operands => decodeReq op operands
  | .raw nbits w => .error (.noSuchFormat nbits w)

/-- The encoder: rule R63 for the nibbles, rules R64 and R65 for the bus words, rule R70 for the requests. -/
def encode : Instr → CodeWord
  | .nibFset8 => .n5 0x03#5
  | .nibFset4 => .n5 0x02#5
  | .functionSet8bit => .b9 0x038#9
  | .functionSet4bit => .b9 0x028#9
  | .displayControl => .b9 0x00C#9
  | .clearDisplay => .b9 0x001#9
  | .entryMode => .b9 0x006#9
  | .setDdramAddr a => .b9 (0b01#2 ++ a)
  | .writeData d => .b9 (0b1#1 ++ d)
  | .init p => .req 0x0#4 [.pins p]
  | .clear => .req 0x1#4 []
  | .setCursor row col => .req 0x2#4 [.int row, .int col]
  | .printChars t => .req 0x3#4 [.text t]
  | .printInt v => .req 0x4#4 [.int v]
  | .printFloat v prec => .req 0x5#4 [.float v, .int prec]
  | .progressBar row progress => .req 0x6#4 [.int row, .int progress]
  | .clearRow row => .req 0x7#4 [.int row]
  | .reserved low => .req (0b1#1 ++ low) []

/-- The operand record "of zeros" that goes with a request code in the host's table words: integers 0, the value +0.0,
and an absent record or text (rule R71: an absent operand is the source's "null"). -/
def zeroOperands (op : Nat) : List Operand :=
  match op with
  | 0 => [.pins none]
  | 2 => [.int 0, .int 0]
  | 3 => [.text none]
  | 4 => [.int 0]
  | 5 => [.float (.finite false 0 0), .int 0]
  | 6 => [.int 0, .int 0]
  | 7 => [.int 0]
  | _ => []

/-- The code word for `nbits` bits `w` numbered as spec/opcode_table.json numbers them. The table's three formats have 4,
5 and 9 bits. In whole bytes the formats `REQ` and `N5` are both 8 bits, and their words 0x02 and 0x03 coincide: an 8-bit
word below 0x10 is read as a request (DESIGN CHOICE, log entry 6). -/
def codeWordOfTable (nbits w : Nat) : CodeWord :=
  if nbits = 5 then (if w < 32 then .n5 (BitVec.ofNat 5 w) else .raw nbits w)
  else if nbits ≤ 8 then (if w < 16 then .req (BitVec.ofNat 4 w) (zeroOperands w) else .raw nbits w)
  else if w < 512 then .b9 (BitVec.ofNat 9 w) else .raw nbits w

/-- The instruction the decoder reads from an instruction whose bits are `w`, in the table's numbering. -/
def decodeTableWord (nbits w : Nat) : Option Instr :=
  match decode (codeWordOfTable nbits w) with
  | .ok i => some i
  | .error _ => none

end Sys2Proof
end

