-- ==== Sys2Proof/Machine/State.lean ====
section
/-!
DEFINITION. The state (10_state.md rules R20 to R33), as plain data: the block's own record, the observer model of the
receiver, the observation (trace and statuses), the time port, and the host's inputs. Reset (rule R200). Why a step can
stop.
-/

namespace Sys2Proof.Machine

/-- What the sequencer has still to perform: an event of rule R9 before it happens. -/
inductive Action where
  /-- `GpioConfigure(p)`. -/
  | configure (p : PinId)
  /-- `GpioSet(p, v)`. -/
  | set (p : PinId) (v : Level)
  /-- `Wait(n)`, microseconds. -/
  | wait (us : Nat)
  deriving DecidableEq, Repr

/-- An event of the trace (rule R9). A configure event carries the host's answer. -/
inductive Event where
  | configure (p : PinId) (answer : ConfigAnswer)
  | set (p : PinId) (v : Level)
  | wait (us : Nat)
  deriving DecidableEq, Repr

/-- The status a request ends in (60_exceptions.md rule R181). -/
inductive Status where
  | ok
  | invalidArgument
  | invalidState
  | hardwareConfigurationFailure
  deriving DecidableEq, Repr

/-- The mode and pin record the transport runs with: the driver state's after INIT, INIT's validated candidate during it
(43_initializer.md rule R130). -/
structure Bus where
  mode : BusWidthMode
  pins : PinRecord
  deriving DecidableEq, Repr

/-- The sequencer (rule R27): `Idle`, or `Busy` with a request and the events still to perform. `bus` is what the
request's transmissions run with. -/
inductive Sequencer where
  | idle
  | busy (i : Instr) (bus : Bus) (rest : List Action)
  deriving DecidableEq, Repr

/-- How the sequencer treats an instruction when its events are done (rules R27 and R140). -/
inductive Role where
  /-- INIT: commit the driver state, then return Ok. -/
  | initializer
  /-- Any other request: return Ok. -/
  | command
  /-- A bus word: part of a request's events, never itself the request in progress. -/
  | busWord
  /-- A reserved code, which never runs. -/
  | reservedCode
  deriving DecidableEq, Repr

/-- A transfer (30_encoding.md rule R61): what one enable pulse moves. -/
inductive Transfer where
  | t8 (rs : Level) (d : Byte)
  | t4 (rs : Level) (n : Nibble)
  deriving DecidableEq, Repr

/-- The observer model of the receiver (10_state.md rule R30). No rule of the block reads it. `ddram` lists the byte at each
of the 128 addresses (20_memory.md rule R40), addresses rising. -/
structure Receiver where
  /-- `IFW`: the interface width. -/
  ifw : InterfaceWidth
  /-- `PHASE`: in four-bit width, which nibble comes next. -/
  phase : Phase
  /-- `HELD`: the high nibble of a pair whose low nibble is due. -/
  held : Nibble
  /-- `AC`: the DDRAM address counter. -/
  ac : BitVec 7
  /-- `DDRAM`. -/
  ddram : List Host.Cell
  /-- `LINES`. -/
  lines : DisplayLines
  /-- `FONT`. -/
  font : Font
  /-- `DISP`. -/
  disp : Bool
  /-- `CURSOR`. -/
  cursor : Bool
  /-- `BLINK`. -/
  blink : Bool
  /-- `INC`. -/
  inc : Bool
  /-- `SHIFT`. -/
  shift : Bool
  /-- `BUSY_UNTIL`, microseconds. -/
  busyUntil : Nat
  deriving DecidableEq, Repr

/-- The state. -/
structure State where
  /-- The platform's parameters (rule R6). No step changes them. -/
  cfg : Config
  /-- The block's one flag (rule R21). -/
  initialized : Bool
  /-- The bus width; no value before the first successful INIT (rule R22). -/
  mode : Option BusWidthMode
  /-- The pin record; no value before the first successful INIT (rule R23). -/
  pins : Option PinRecord
  /-- The output latches (rule R28): pin and level, pins strictly rising; an unlisted pin has no known level. -/
  latch : List (PinId × Level)
  /-- The pins whose configure answered Ok (rule R28), strictly rising. -/
  configured : List PinId
  /-- The sequencer (rule R27). -/
  seq : Sequencer
  /-- The observer model of the receiver (rule R30). -/
  receiver : Receiver
  /-- The events performed so far, oldest first (rules R9 and R221). -/
  trace : List Event
  /-- The statuses returned so far, oldest first (rules R180 and R221). -/
  statuses : List Status
  /-- Microseconds elapsed (92_eei_decisions.md D2). The block cannot read it (rule R191). -/
  now : Nat
  /-- The model's own counter: how many steps have drawn free values. -/
  draws : Nat
  /-- The host's requests that are not yet issued, next one first (rule R196). -/
  requests : List CodeWord
  /-- The host's answers to the configure calls to come, next one first; beyond them `Config.cfgOracle` answers. -/
  cfgAnswers : List ConfigAnswer
  deriving DecidableEq, Repr

/-- Why the machine stops with a fault. -/
inductive Fault where
  /-- `mode` or `pins` is read while it holds no value (rule R29: "a fault, not a default"). Raised by a command in a state
  with `initialized` set and no `mode` or `pins`, which no run reaches. Safe: the machine stops. -/
  | driverStateAbsent
  deriving DecidableEq, Repr

/-- Why the model refuses to step. Every reason is safe: nothing follows from a refused step. -/
inductive Refusal where
  /-- No meaning yet. Raised by exec's arms only. -/
  | notModelled (mnemonic : String)
  /-- Codes 0x8..0xF name no request (30_encoding.md rule R73). Raised by the meaning of RESERVED. -/
  | reservedRequestCode (low : BitVec 3)
  /-- A request issued while one is in progress (92_eei_decisions.md D22, 93_implementation_defined.md U10: "the model has
  no move for them"). Raised by the requests' meanings. -/
  | requestWhileBusy
  /-- A bus word that the request in progress does not emit next (30_encoding.md rule R67: "A model of the block produces
  none of them", 20_memory.md rule R46). Raised by the bus words' meanings. -/
  | wordNotDue
  /-- A text holding 0x00 (rule R72, D18). Raised by PRINT_CHARS. -/
  | textHoldsNul
  /-- A value outside the `INT_BITS` range (rule R72, D19). Raised by PRINT_INT. -/
  | intOutOfRange
  /-- A value `FLOAT_FMT` does not have (rule R72). Raised by PRINT_FLOAT. -/
  | floatNotRepresentable
  /-- A code word the decoder rejects. Raised by the step. -/
  | undecodable (e : DecodeError)
  deriving DecidableEq, Repr

/-- How many DDRAM addresses there are: `AC` has 7 bits (rule R30). -/
def ddramSize : Nat := 128

/-- A fresh draw of the receiver's observer state (rules R32 and R121): every field free, every DDRAM byte free. -/
def Receiver.draw (k : Nat) : Receiver :=
  { ifw := Config.drawIfw k
    phase := Config.drawPhase k
    held := Config.drawHeld k
    ac := Config.drawAc k
    ddram := (List.range ddramSize).map (fun a => (a, Config.drawDdram k a))
    lines := Config.drawLines k
    font := Config.drawFont k
    disp := Config.drawDisp k
    cursor := Config.drawCursor k
    blink := Config.drawBlink k
    inc := Config.drawInc k
    shift := Config.drawShift k
    busyUntil := Config.drawBusyUntil k }

/-- The state at reset (70_reset_and_hazards.md rule R200). The receiver is a draw. `cfg` (log entry 1), and the model's own
`draws`, `now`, `requests` and `cfgAnswers` (log entries 3 and 7), are the model's. -/
def State.reset : State :=
  { cfg := Config.initial
    initialized := false
    mode := none
    pins := none
    latch := []
    configured := []
    seq := .idle
    receiver := Receiver.draw 0
    trace := []
    statuses := []
    now := 0
    draws := 1
    requests := []
    cfgAnswers := [] }

end Sys2Proof.Machine
end

