-- ==== Sys2Proof/Machine/Receiver.lean ====
section
/-!
DEFINITION. The observer model of the receiver: what a transfer does to it (42_bus_words.md rules R110, R111 and the
receiver effects of R112 to R121). No rule of the block reads it.
-/

namespace Sys2Proof.Machine

/-! ### Sparse data: a list of keys and values, keys strictly rising (used by DDRAM and by the latches) -/

/-- The value listed under `k`. -/
def Sparse.read {α : Type} : List (Nat × α) → Nat → Option α
  | [], _ => none
  | (k, v) :: rest, q => if q = k then some v else Sparse.read rest q

/-- List `v` under `q`, keeping the keys strictly rising. -/
def Sparse.write {α : Type} : List (Nat × α) → Nat → α → List (Nat × α)
  | [], q, v => [(q, v)]
  | (k, u) :: rest, q, v =>
    if q < k then (q, v) :: (k, u) :: rest
    else if q = k then (q, v) :: rest
    else (k, u) :: Sparse.write rest q v

/-- The canonical form: keys strictly rising. -/
def Sparse.wf {α : Type} : List (Nat × α) → Bool
  | [] => true
  | [_] => true
  | (k, _) :: (k', v') :: rest => decide (k < k') && Sparse.wf ((k', v') :: rest)

/-- The canonical form of DDRAM: every 7-bit address (20_memory.md rule R40) once, rising. -/
def Memory.wf (m : List Host.Cell) : Bool := decide (m.map Prod.fst = List.range ddramSize)

/-- The byte at a DDRAM address. In canonical form there is one; an unlisted address has no value. -/
def Memory.read (m : List Host.Cell) (a : BitVec 7) : Option Byte := Sparse.read m a.toNat

/-- `DDRAM[a] <- v` (10_state.md rule R31). -/
def Memory.write (m : List Host.Cell) (a : BitVec 7) (v : Byte) : List Host.Cell := Sparse.write m a.toNat v

/-- DDRAM after clear-display: every byte is 0x20 (42_bus_words.md rule R117). -/
def Memory.cleared : List Host.Cell := (List.range ddramSize).map (fun a => (a, 0x20#8))

/-- The character shown at row `row`, column `col` (rule R31). -/
def Receiver.shown (r : Receiver) (row col : Int) : Option Byte := Memory.read r.ddram (ddramAddr row col)

/-! ### What the receiver does with a word -/

/-- `exec_time` (rule R110): 1600 µs for clear-display, 40 µs for every other word. The rule writes it of the byte alone; that
a DATA word with byte 0x01 takes 40 µs is the model's reading (DEDUCED, log entry 26). -/
def execTime (rs : Level) (d : Byte) : Nat := if rs = false ∧ d = 0x01#8 then 1600 else 40

/-- The address counter after a data write (rule R120): with INC = 1, one further inside each row's range 0x00..0x26 and
0x40..0x66; a draw otherwise (U3). -/
def nextAc (k : Nat) (r : Receiver) : BitVec 7 :=
  if r.inc = true ∧ (r.ac.toNat ≤ 0x26 ∨ (0x40 ≤ r.ac.toNat ∧ r.ac.toNat ≤ 0x66)) then r.ac + 1#7
  else Config.drawAc k

/-- A function set (rules R111, R112 to R115, fields of rule R66): bit 4 is DL, bit 3 is N, bit 2 is F. DL = 0 seen in
eight-bit width also starts a fresh pair. -/
def functionSet (d : Byte) (r : Receiver) : Receiver :=
  { r with
    ifw := if d.getLsbD 4 then .eight else .four
    phase := if d.getLsbD 4 = false ∧ r.ifw = .eight then .high else r.phase
    lines := if d.getLsbD 3 then .two else .one
    font := if d.getLsbD 2 then .dots5x10 else .dots5x8 }

/-- The receiver effect of a word: that of the rule of 42_bus_words.md whose encoding matches `{rs, d}`; none where none does,
a word the block never emits (30_encoding.md rule R67). -/
def wordEffect (k : Nat) (rs : Level) (d : Byte) (r : Receiver) : Option Receiver :=
  if rs then some { r with ddram := Memory.write r.ddram r.ac d, ac := nextAc k r }                -- R120
  else if d &&& 0x80#8 = 0x80#8 then
    if addressFormed (d.extractLsb' 0 7) then some { r with ac := d.extractLsb' 0 7 } else none     -- R119, R45
  else if d &&& 0xE0#8 = 0x20#8 then some (functionSet d r)                                         -- R112 to R115
  else if d = 0x0C#8 then some { r with disp := true, cursor := false, blink := false }             -- R116
  else if d = 0x06#8 then some { r with inc := true, shift := false }                               -- R118
  else if d = 0x01#8 then some { r with ddram := Memory.cleared, ac := 0x00#7, inc := true }        -- R117
  else none

/-- A word the block never emits (rules R67 and R121, U12): the whole state is a draw. One kind of it does reach a receiver the
block drives: a 0x3 nibble of INIT step 2 that completes a stray high nibble in four-bit width. Of that word the draw leaves out
the width, the phase, the held nibble and the busy time, without which three 0x3 nibbles could not "force 8-bit mode from either
starting mode and either phase" (93_implementation_defined.md G2, 43_initializer.md rule R144, V-INIT-11; DEDUCED, log entry 10).
DESIGN CHOICE (log entry 10), unsafe: the receiver cannot tell INIT's nibble from another, so the model keeps those four fields for
EVERY never-emitted command word whose low nibble is 3 and that is completed in four-bit width, whatever nibble is held and whichever
transfer gave the 3 (`T8{0,0x38}` read as its upper nibble, or the nibbles 0x4 and 0x3); U12 leaves them any value there. -/
def unlistedWord (k t : Nat) (rs : Level) (d : Byte) (r : Receiver) : Receiver :=
  if r.ifw = .four ∧ rs = false ∧ d.extractLsb' 0 4 = 0x3#4 then
    { Receiver.draw k with ifw := r.ifw, phase := r.phase, held := r.held, busyUntil := t + execTime rs d }
  else Receiver.draw k

/-- `EXEC(rs, d)` at time `t` (rule R110). -/
def execWord (k t : Nat) (rs : Level) (d : Byte) (r : Receiver) : Receiver :=
  match wordEffect k rs d r with
  | some q => { q with busyUntil := t + execTime rs d }
  | none => unlistedWord k t rs d r

/-- The RS level of a transfer. -/
def Transfer.rs : Transfer → Level
  | .t8 rs _ => rs
  | .t4 rs _ => rs

/-- The byte the receiver reads from a transfer in eight-bit width: a `T4` leaves D3..D0 undriven (rule R110). -/
def Transfer.byte (k : Nat) : Transfer → Byte
  | .t8 _ d => d
  | .t4 _ n => n ++ Config.undrivenLines k

/-- The nibble the receiver reads from a transfer in four-bit width: the lines D7..D4. -/
def Transfer.nibble : Transfer → Nibble
  | .t8 _ d => d.extractLsb' 4 4
  | .t4 _ n => n

/-- `RECV(transfer, t)` (rule R110), with free values drawn at `k`. `PHASE <- High` stands before the word's effect here, so that
a draw of the whole state (rule R121) draws the phase too. -/
def recv (k t : Nat) (x : Transfer) (r : Receiver) : Receiver :=
  if t < r.busyUntil then Receiver.draw k
  else match r.ifw with
    | .eight => execWord k t x.rs (x.byte k) r
    | .four =>
      match r.phase with
      | .high => { r with held := x.nibble, phase := .low }
      | .low => execWord k t x.rs (r.held ++ x.nibble) { r with phase := .high }

end Sys2Proof.Machine
end

