-- ==== Sys2Proof/Machine/Ops.lean ====
section
/-!
DEFINITION. The named operations over the state: the output latches and configured set (10_state.md rule R28), ending a
request with a status or an error (00_scope.md rule R10, 60_exceptions.md rules R180 to R187), performing one event (rule
R27), and the final write of INIT (43_initializer.md rule R140).
-/

namespace Sys2Proof.Machine

/-- Add a pin to a strictly rising list of pins. -/
def PinSet.insert : List PinId → PinId → List PinId
  | [], q => [q]
  | p :: rest, q => if q < p then q :: p :: rest else if q = p then p :: rest else p :: PinSet.insert rest q

/-- The canonical form of a set of pins: strictly rising. -/
def PinSet.wf : List PinId → Bool
  | [] => true
  | [_] => true
  | p :: q :: rest => decide (p < q) && PinSet.wf (q :: rest)

/-- `latch(p)` (rule R28). -/
def State.latchOf (s : State) (p : PinId) : Option Level := Sparse.read s.latch p

/-- The level a pin shows: its latch, or a draw before the first set (rules R28 and R202). -/
def State.levelOf (s : State) (p : PinId) : Level :=
  match s.latchOf p with
  | some v => v
  | none => Config.levelAfterConfigure p s.draws

/-! ### Ending a request -/

/-- `return s` (rule R10): the request's status goes to the host and the block is `Idle` (rule R187). -/
def State.returnStatus (st : Status) (s : State) : State := { s with statuses := s.statuses ++ [st], seq := .idle }

/-- `raise K()` (rules R10, R180 and R186): an error ends the request at once, with its status. Nothing else changes; there is
no saved state and no handler, and so nothing to return from (rule R187). -/
def State.raise (k : Status) (s : State) : State := s.returnStatus k

/-- A bus word's transmission is done; it is no request, so no status is returned (41_bus_transport.md). -/
def State.toIdle (s : State) : State := { s with seq := .idle }

/-- INIT's final write, in one step (rule R140). -/
def State.commit (bus : Bus) (s : State) : State :=
  { s with mode := some bus.mode, pins := some bus.pins, initialized := true }

/-- What an instruction is to the sequencer. -/
def Instr.role : Instr → Role
  | .nibFset8 => .busWord
  | .nibFset4 => .busWord
  | .functionSet8bit => .busWord
  | .functionSet4bit => .busWord
  | .displayControl => .busWord
  | .clearDisplay => .busWord
  | .entryMode => .busWord
  | .setDdramAddr _ => .busWord
  | .writeData _ => .busWord
  | .init _ => .initializer
  | .clear => .command
  | .setCursor _ _ => .command
  | .printChars _ => .command
  | .printInt _ => .command
  | .printFloat _ _ => .command
  | .progressBar _ _ => .command
  | .clearRow _ => .command
  | .reserved _ => .reservedCode

/-- The event list is empty: the final state write if the request has one, then its status, then `Idle` (rule R27). -/
def State.finish (i : Instr) (bus : Bus) (s : State) : State :=
  match Instr.role i with
  | .initializer => (s.commit bus).returnStatus .ok
  | .command => s.returnStatus .ok
  | .busWord => s.toIdle
  | .reservedCode => s.toIdle

/-! ### Performing one event -/

/-- The host's answer to the next configure call: listed, or free (rule R132). -/
def State.nextAnswer (s : State) : ConfigAnswer :=
  match s.cfgAnswers with
  | a :: _ => a
  | [] => Config.cfgOracle s.draws

/-- `GpioConfigure(p)` answered Ok (rules R28 and R132). -/
def State.configureOk (p : PinId) (s : State) : State :=
  { s with
    configured := PinSet.insert s.configured p
    trace := s.trace ++ [.configure p .ok]
    cfgAnswers := s.cfgAnswers.tail
    now := s.now + Config.callTime s.draws
    draws := s.draws + 1 }

/-- `GpioConfigure(p)` answered Fail: the event is in the trace and `configured` keeps what it has (rules R132 and R186). -/
def State.configureFail (p : PinId) (s : State) : State :=
  { s with
    trace := s.trace ++ [.configure p .fail]
    cfgAnswers := s.cfgAnswers.tail
    now := s.now + Config.callTime s.draws
    draws := s.draws + 1 }

/-- `Wait(n)`: at least `n` microseconds pass (rule R9). -/
def State.waitFor (n : Nat) (s : State) : State :=
  { s with
    trace := s.trace ++ [.wait n]
    now := s.now + n + Config.waitOverrun s.draws
    draws := s.draws + 1 }

/-- The transfer that RS and the data lines of the mode make, given each pin's level (41_bus_transport.md rule R97). -/
def transferAt (level : PinId → Level) (bus : Bus) : Transfer :=
  let bit (p : PinId) : BitVec 1 := BitVec.ofBool (level p)
  let p := bus.pins
  match bus.mode with
  | .eightBit =>
    .t8 (level p.rs) (bit p.d7 ++ bit p.d6 ++ bit p.d5 ++ bit p.d4 ++ bit p.d3 ++ bit p.d2 ++ bit p.d1 ++ bit p.d0)
  | .fourBit => .t4 (level p.rs) (bit p.d7 ++ bit p.d6 ++ bit p.d5 ++ bit p.d4)

/-- The latched transfer (rule R97): RS and the data lines as they stand. -/
def State.latchedTransfer (bus : Bus) (s : State) : Transfer := transferAt s.levelOf bus

/-- The latch write of `GpioSet(p, v)` and its event (rule R28). -/
def State.drive (p : PinId) (v : Level) (s : State) : State :=
  { s with
    latch := Sparse.write s.latch p v
    trace := s.trace ++ [.set p v]
    now := s.now + Config.callTime s.draws
    draws := s.draws + 1 }

/-- The receiver takes the latched transfer (rules R33 and R97). -/
def State.receive (bus : Bus) (s : State) : State :=
  { s with receiver := recv s.draws s.now (s.latchedTransfer bus) s.receiver, draws := s.draws + 1 }

/-- `GpioSet(p, v)`. At a `GpioSet(pins.e, 0)` the receiver takes the latched transfer (rule R97). -/
def State.setPin (bus : Bus) (p : PinId) (v : Level) (s : State) : State :=
  if p = bus.pins.e ∧ v = false then (s.drive p v).receive bus else s.drive p v

/-- The sequencer is `Busy` with these events to come (rule R27). -/
def State.busyWith (i : Instr) (bus : Bus) (rest : List Action) (s : State) : State := { s with seq := .busy i bus rest }

/-- The effect of one event that does not end the request: a configure call is answered Ok. -/
def State.perform (bus : Bus) (a : Action) (s : State) : State :=
  match a with
  | .configure p => s.configureOk p
  | .set p v => s.setPin bus p v
  | .wait n => s.waitFor n

/-- The effect of a list of events, in order, every configure call answered Ok. -/
def State.performAll (bus : Bus) : List Action → State → State
  | [], s => s
  | a :: rest, s => State.performAll bus rest (s.perform bus a)

/-- One step of a `Busy` sequencer (rule R27): perform the head event; a configure answered Fail ends the request (rule
R132); with no event left, finish. -/
def State.advance (i : Instr) (bus : Bus) (rest : List Action) (s : State) : State :=
  match rest with
  | [] => s.finish i bus
  | .configure p :: more =>
    match s.nextAnswer with
    | .ok => (s.configureOk p).busyWith i bus more
    | .fail => (s.configureFail p).raise .hardwareConfigurationFailure
  | .set p v :: more => (s.setPin bus p v).busyWith i bus more
  | .wait n :: more => (s.waitFor n).busyWith i bus more

/-- The block waits for the host's next request (rule R200); the host may take any time (rule R196). -/
def State.idleWait (s : State) : State := { s with now := s.now + Config.idleTime s.draws, draws := s.draws + 1 }

/-- The host issues its next request; those after it remain to be issued. -/
def State.takeRequest (rest : List CodeWord) (s : State) : State := { s with requests := rest }

/-- The host's next request and the state once it is issued; none while the host issues nothing. -/
def State.nextRequest (s : State) : Option (CodeWord × State) :=
  match s.requests with
  | [] => none
  | c :: rest => some (c, s.takeRequest rest)

end Sys2Proof.Machine
end

