-- ==== Sys2Proof/Machine/Flags.lean ====
section
/-!
DEFINITION. The block's one flag, `initialized` (10_state.md rule R21), and what depends on it: the entry checks (rules R131
and R150) and accepting a request (rule R27). The numeric codes of the statuses and of the mode.
-/

namespace Sys2Proof.Machine

/-- The entry checks, common to every request (rules R131, R150 and R185): the error raised, if any. -/
def entryError (cfg : Config) (stateBad argBad : Bool) : Option Status :=
  if stateBad && argBad then
    match cfg.errPrecedence with
    | .stateFirst => some .invalidState
    | .argFirst => some .invalidArgument
  else if stateBad then some .invalidState
  else if argBad then some .invalidArgument
  else none

/-- `st.mode` and `st.pins` as the transport reads them; none while either holds no value (rule R29). -/
def State.bus (s : State) : Option Bus :=
  match s.mode, s.pins with
  | some m, some p => some { mode := m, pins := p }
  | _, _ => none

/-- The requests other than INIT (rule R150): in `Idle`, check `initialized` and the operands, then run the events with
`st.mode` and `st.pins`. -/
def commandRequest (i : Instr) (argOk : Bool) (events : Bus → List Action) (s : State) :
    Host.Outcome State Fault Refusal :=
  match s.seq with
  | .busy _ _ _ => .refused .requestWhileBusy
  | .idle =>
    match entryError s.cfg (!s.initialized) (!argOk) with
    | some k => .next (s.raise k)
    | none =>
      match s.bus with
      | some bus => .next (s.busyWith i bus (events bus))
      | none => .fault .driverStateAbsent

/-- The numeric status codes (60_exceptions.md rule R181). -/
def Status.code : Status → Nat
  | .ok => 0
  | .invalidArgument => 1
  | .invalidState => 2
  | .hardwareConfigurationFailure => 3

/-- The 1-bit code of the mode (rule R22). -/
def modeCode : BusWidthMode → BitVec 1
  | .eightBit => 1#1
  | .fourBit => 0#1

end Sys2Proof.Machine
end

