-- ==== Sys2Proof/Machine/Validate.lean ====
section
/-!
DEFINITION. The pin-assignment validator (40_pin_validation.md rules R80 to R86).
-/

namespace Sys2Proof.Machine

/-- `Set8(P)` (rule R80). -/
def set8 (p : PinRecord) : List PinId := [p.rs, p.e, p.d0, p.d1, p.d2, p.d3, p.d4, p.d5, p.d6, p.d7]

/-- `Set4(P)` (rule R80). -/
def set4 (p : PinRecord) : List PinId := [p.rs, p.e, p.d4, p.d5, p.d6, p.d7]

/-- The active set of a mode (rules R80 and R86). -/
def activeSet (m : BusWidthMode) (p : PinRecord) : List PinId :=
  match m with
  | .eightBit => set8 p
  | .fourBit => set4 p

/-- `distinct(L)` (rule R81). -/
def distinct : List PinId → Bool
  | [] => true
  | p :: rest => !rest.contains p && distinct rest

/-- `PIN_VALID` (rule R6). -/
def pinValid (cfg : Config) (p : PinId) : Bool :=
  match cfg.pinRange with
  | .only pins => pins.contains p
  | .allBut pins => !pins.contains p
  | .platform k => Config.platformPinValid k p

/-- `inRange(L)` (rule R82). -/
def inRange (cfg : Config) (l : List PinId) : Bool :=
  match cfg.rangeRule with
  | .allValid => l.all (pinValid cfg)
  | .sourceAnyValid => l.any (pinValid cfg)

/-- VALIDATE (rule R83): the mode, or none where it raises InvalidArgument. -/
def validate (cfg : Config) (p : PinRecord) : Option BusWidthMode :=
  if distinct (set8 p) && inRange cfg (set8 p) then some .eightBit
  else if distinct (set4 p) && inRange cfg (set4 p) then some .fourBit
  else none

end Sys2Proof.Machine
end

