-- ==== Sys2Proof/Machine/Transport.lean ====
section
/-!
DEFINITION. The bus transport (41_bus_transport.md rules R90 to R95): each primitive as the list of events it emits.
-/

namespace Sys2Proof.Machine

/-- PULSE (rule R90). -/
def pulse (p : PinRecord) : List Action := [.set p.e true, .wait tEHigh, .set p.e false, .wait tEPost]

/-- PUT_NIBBLE(n) (rule R91): bit `j` of the nibble on D(4+j). -/
def putNibble (p : PinRecord) (n : Nibble) : List Action :=
  [.set p.d4 (n.getLsbD 0), .set p.d5 (n.getLsbD 1), .set p.d6 (n.getLsbD 2), .set p.d7 (n.getLsbD 3)]

/-- The data writes of SEND8 (rules R41 and R92): bit `i` on D(i). -/
def putByte (p : PinRecord) (b : Byte) : List Action :=
  [.set p.d0 (b.getLsbD 0), .set p.d1 (b.getLsbD 1), .set p.d2 (b.getLsbD 2), .set p.d3 (b.getLsbD 3),
   .set p.d4 (b.getLsbD 4), .set p.d5 (b.getLsbD 5), .set p.d6 (b.getLsbD 6), .set p.d7 (b.getLsbD 7)]

/-- SEND in EightBit mode (rule R92). -/
def send8 (p : PinRecord) (rs : Level) (b : Byte) : List Action := [.set p.rs rs] ++ putByte p b ++ pulse p

/-- SEND in FourBit mode (rules R42 and R93): RS once, then the high nibble, then the low nibble. -/
def send4 (p : PinRecord) (rs : Level) (b : Byte) : List Action :=
  [.set p.rs rs] ++ putNibble p (b.extractLsb' 4 4) ++ pulse p ++ putNibble p (b.extractLsb' 0 4) ++ pulse p

/-- SEND (rule R94). -/
def send (bus : Bus) (rs : Level) (b : Byte) : List Action :=
  match bus.mode with
  | .eightBit => send8 bus.pins rs b
  | .fourBit => send4 bus.pins rs b

/-- SEND_CMD (rule R94). -/
def sendCmd (bus : Bus) (b : Byte) : List Action := send bus false b

/-- SEND_DATA (rule R94). -/
def sendData (bus : Bus) (b : Byte) : List Action := send bus true b

/-- SEND_NIBBLE(n) (rules R63 and R95): one transfer; on eight lines the nibble goes on D7..D4. -/
def sendNibble (bus : Bus) (n : Nibble) : List Action :=
  match bus.mode with
  | .fourBit => [.set bus.pins.rs false] ++ putNibble bus.pins n ++ pulse bus.pins
  | .eightBit => send8 bus.pins false (n ++ 0x0#4)

end Sys2Proof.Machine
end

