-- ==== Sys2Proof/Machine/BusWords.lean ====
section
/-!
DEFINITION. The bus words (42_bus_words.md rules R112 to R120): the emission of each, and its meaning as an instruction.
-/

namespace Sys2Proof.Machine

/-- NIB_FSET8 (rule R112). -/
def nibFset8Events (bus : Bus) : List Action := sendNibble bus 0x3#4
/-- NIB_FSET4 (rule R113). -/
def nibFset4Events (bus : Bus) : List Action := sendNibble bus 0x2#4
/-- FUNCTION_SET_8BIT (rule R114). -/
def functionSet8bitEvents (bus : Bus) : List Action := sendCmd bus 0x38#8
/-- FUNCTION_SET_4BIT (rule R115). -/
def functionSet4bitEvents (bus : Bus) : List Action := sendCmd bus 0x28#8
/-- DISPLAY_CONTROL (rule R116). -/
def displayControlEvents (bus : Bus) : List Action := sendCmd bus 0x0C#8
/-- CLEAR_DISPLAY: always followed by its execution time (rule R117). -/
def clearDisplayEvents (bus : Bus) : List Action := sendCmd bus 0x01#8 ++ [.wait tClear]
/-- ENTRY_MODE (rule R118). -/
def entryModeEvents (bus : Bus) : List Action := sendCmd bus 0x06#8
/-- SET_DDRAM_ADDR: the byte `0x80 | a` (rules R65 and R119). -/
def setDdramAddrEvents (a : BitVec 7) (bus : Bus) : List Action := sendCmd bus (0x80#8 ||| a.setWidth 8)
/-- WRITE_DATA (rule R120). -/
def writeDataEvents (d : Byte) (bus : Bus) : List Action := sendData bus d

/-! ### Which request emits which word (30_encoding.md rule R64, the column "emitted by") -/

/-- The requests whose event lists hold set-address words. -/
def placesCursor : Instr → Bool
  | .setCursor _ _ | .progressBar _ _ | .clearRow _ => true
  | .nibFset8 | .nibFset4 | .functionSet8bit | .functionSet4bit | .displayControl | .clearDisplay | .entryMode => false
  | .setDdramAddr _ | .writeData _ | .init _ | .clear | .printChars _ | .printInt _ | .printFloat _ _ | .reserved _ => false

/-- The requests whose event lists hold data words. -/
def writesText : Instr → Bool
  | .printChars _ | .printInt _ | .printFloat _ _ | .progressBar _ _ | .clearRow _ => true
  | .nibFset8 | .nibFset4 | .functionSet8bit | .functionSet4bit | .displayControl | .clearDisplay | .entryMode => false
  | .setDdramAddr _ | .writeData _ | .init _ | .clear | .setCursor _ _ | .reserved _ => false

/-- The request `i`, running in mode `m`, emits the bus word `w`: rule R64; the mode by rules R113 to R115; the addresses by
20_memory.md rule R45; a single nibble by INIT alone (rule R46). -/
def emits (i : Instr) (m : BusWidthMode) : Instr → Bool
  | .nibFset8 | .displayControl | .entryMode => decide (Instr.role i = .initializer)
  | .nibFset4 | .functionSet4bit => decide (Instr.role i = .initializer) && decide (m = .fourBit)
  | .functionSet8bit => decide (Instr.role i = .initializer) && decide (m = .eightBit)
  | .clearDisplay => decide (Instr.role i = .initializer) || decide (i = .clear)
  | .setDdramAddr a => placesCursor i && addressFormed a
  | .writeData _ => writesText i
  | .init _ | .clear | .setCursor _ _ | .printChars _ | .printInt _ | .printFloat _ _ | .progressBar _ _ => false
  | .clearRow _ | .reserved _ => false

/-- One bus word `w`, with its emission, as the block executes it: it stands next in the events of the request in progress
(10_state.md rule R27), and its transmission begins, as every step of a `Busy` block, with its first event; the rest of it
stays in the sequencer. Anywhere else it is a word the block does not produce (rules R46 and R67), and is refused. -/
def busWord (w : Instr) (emission : Bus → List Action) (s : State) : Host.Outcome State Fault Refusal :=
  match s.seq with
  | .busy i bus rest =>
    if emits i bus.mode w && (emission bus).isPrefixOf rest then .next (s.advance i bus rest) else .refused .wordNotDue
  | .idle => .refused .wordNotDue

/-- NIB_FSET8 as an instruction (rule R112). -/
def execNibFset8 (s : State) : Host.Outcome State Fault Refusal := busWord .nibFset8 nibFset8Events s
/-- NIB_FSET4 as an instruction (rule R113). -/
def execNibFset4 (s : State) : Host.Outcome State Fault Refusal := busWord .nibFset4 nibFset4Events s
/-- FUNCTION_SET_8BIT as an instruction (rule R114). -/
def execFunctionSet8bit (s : State) : Host.Outcome State Fault Refusal := busWord .functionSet8bit functionSet8bitEvents s
/-- FUNCTION_SET_4BIT as an instruction (rule R115). -/
def execFunctionSet4bit (s : State) : Host.Outcome State Fault Refusal := busWord .functionSet4bit functionSet4bitEvents s
/-- DISPLAY_CONTROL as an instruction (rule R116). -/
def execDisplayControl (s : State) : Host.Outcome State Fault Refusal := busWord .displayControl displayControlEvents s
/-- CLEAR_DISPLAY as an instruction (rule R117). -/
def execClearDisplay (s : State) : Host.Outcome State Fault Refusal := busWord .clearDisplay clearDisplayEvents s
/-- ENTRY_MODE as an instruction (rule R118). -/
def execEntryMode (s : State) : Host.Outcome State Fault Refusal := busWord .entryMode entryModeEvents s
/-- SET_DDRAM_ADDR as an instruction (rule R119). -/
def execSetDdramAddr (a : BitVec 7) (s : State) : Host.Outcome State Fault Refusal :=
  busWord (.setDdramAddr a) (setDdramAddrEvents a) s
/-- WRITE_DATA as an instruction (rule R120). -/
def execWriteData (d : Byte) (s : State) : Host.Outcome State Fault Refusal := busWord (.writeData d) (writeDataEvents d) s

end Sys2Proof.Machine
end

