-- ==== Sys2Proof/Machine/Initializer.lean ====
section
/-!
DEFINITION. INIT, the controller initializer (43_initializer.md rules R130 to R143).
-/

namespace Sys2Proof.Machine

/-- CONFIGURE_ALL (rule R132): one call for each pin of the active set, in its order. -/
def configureAllEvents (bus : Bus) : List Action := (activeSet bus.mode bus.pins).map .configure

/-- Step 2 (rule R134). -/
def initStep2Events (bus : Bus) : List Action :=
  nibFset8Events bus ++ [.wait tInitLong] ++ nibFset8Events bus ++ [.wait tInitLong] ++ nibFset8Events bus ++ [.wait tInitShort]

/-- Step 3 (rule R135): FourBit only. -/
def initStep3Events (bus : Bus) : List Action :=
  match bus.mode with
  | .fourBit => nibFset4Events bus
  | .eightBit => []

/-- The function set of the mode (rule R136). -/
def functionSetEvents (bus : Bus) : List Action :=
  match bus.mode with
  | .eightBit => functionSet8bitEvents bus
  | .fourBit => functionSet4bitEvents bus

/-- Step 4 (rule R136). -/
def initStep4Events (bus : Bus) : List Action :=
  functionSetEvents bus ++ [.wait tInitLong] ++ functionSetEvents bus ++ [.wait tInitShort] ++ functionSetEvents bus

/-- The whole event list of INIT (rule R130), the driver-state write apart (rule R140). -/
def initEvents (bus : Bus) : List Action :=
  configureAllEvents bus ++ [.wait tPowerOn] ++ initStep2Events bus ++ initStep3Events bus ++ initStep4Events bus
    ++ displayControlEvents bus ++ clearDisplayEvents bus ++ entryModeEvents bus ++ [.wait tSettle]

/-- INIT's candidate (rules R130 and R131): the record with the mode VALIDATE gives it; none where the record is absent or
VALIDATE raises. -/
def initCandidate (cfg : Config) (pins : Option PinRecord) : Option Bus :=
  match pins with
  | none => none
  | some p =>
    match validate cfg p with
    | some m => some { mode := m, pins := p }
    | none => none

/-- INIT (rules R130 and R131). -/
def execInit (pins : Option PinRecord) (s : State) : Host.Outcome State Fault Refusal :=
  match s.seq with
  | .busy _ _ _ => .refused .requestWhileBusy
  | .idle =>
    match entryError s.cfg s.initialized (initCandidate s.cfg pins).isNone, initCandidate s.cfg pins with
    | some k, _ => .next (s.raise k)
    | none, some bus => .next (s.busyWith (.init pins) bus (initEvents bus))
    | none, none => .next (s.raise .invalidArgument)

end Sys2Proof.Machine
end

