-- ==== Sys2Proof/Machine/Format.lean ====
section
/-!
DEFINITION. The number formatters (44_command_layer.md rules R165 and R167). The character codes are ASCII
(93_implementation_defined.md G4, log entry 12).
-/

namespace Sys2Proof.Machine

/-- Digit `k` as the byte `0x30 + k` (rule R165). -/
def digitByte (k : Nat) : Byte := 0x30#8 + BitVec.ofNat 8 k

/-- The decimal digits of `u` in front of `acc`, most significant first. The first argument bounds the digits written. -/
def digitsOnto : Nat → Nat → List Byte → List Byte
  | 0, _, acc => acc
  | fuel + 1, u, acc => if u < 10 then digitByte u :: acc else digitsOnto fuel (u / 10) (digitByte (u % 10) :: acc)

/-- `digits(u)` (rule R165): a number has at least as many bits as decimal digits. -/
def digits (u : Nat) : List Byte := digitsOnto (Nat.log2 u + 1) u []

/-- `formatDec(v)` (rule R165). -/
def formatDec (v : Int) : List Byte := (if v < 0 then [0x2D#8] else []) ++ digits v.natAbs

/-- The last `p` digits of `n`, zero-padded (rule R167, law 3). -/
def lastDigits : Nat → Nat → List Byte
  | 0, _ => []
  | p + 1, n => digitByte (n / 10 ^ p % 10) :: lastDigits p n

/-- The text of `n / 10^p` with exactly `p` digits after the '.', and no '.' for `p = 0` (rule R167, law 3). -/
def fixedText (n p : Nat) : List Byte :=
  if p = 0 then digits n else digits (n / 10 ^ p) ++ [0x2E#8] ++ lastDigits p n

/-- `N = m * 2^e * 10^p`, where it is an integer representable in `FLOAT_FMT` (rule R167, law 3). -/
def exactScaled (fmt : FloatFmt) (m : Nat) (e : Int) (p : Nat) : Option Nat :=
  if 0 ≤ e then
    let n := m * 2 ^ e.toNat * 10 ^ p
    if natRepresentable fmt n then some n else none
  else
    let n := m * 10 ^ p / 2 ^ (-e).toNat
    if m * 10 ^ p % 2 ^ (-e).toNat = 0 ∧ natRepresentable fmt n = true then some n else none

/-- The value counts as 3.14159 (rule R167, law 2): it is written with an exponent of 0 or less and differs from 3.14159 by at
most half of `2^(2 - mantBits)`, the spacing that the significand allows between 2 and 4. DESIGN CHOICE (log entry 16): the spec
does not say which `FLOAT_FMT` value law 2 speaks of where the format lacks 3.14159. The test looks at `mantBits` alone, so it finds
no value in some formats whose least bit is coarser (`lsbMin > 2 - mantBits`), whose largest value is too small, or with
`mantBits = 1` (where 4 is nearest); there the format's nearest value gets the text the other laws leave it, a free one where only
law 1 speaks. -/
def isNearest314159 (fmt : FloatFmt) (m : Nat) (e : Int) : Bool :=
  decide (e ≤ 0) && decide (((m * 100000 : Int) - 314159 * 2 ^ (-e).toNat).natAbs * 2 ^ (fmt.mantBits - 1) ≤ 100000 * 2 ^ (-e).toNat)

/-- A finite value's text where only law 1 of rule R167 speaks: for `p ≥ 1`, exactly one '.' and exactly `p` digits after it;
all else is free. -/
def freeFiniteText (v : FloatVal) (p : Nat) : List Byte :=
  if p = 0 then Config.formatFreeText v p
  else (Config.formatFreeText v p).filter (· ≠ 0x2E#8) ++ [0x2E#8]
    ++ (List.range p).map (fun k => digitByte (Config.formatFreeDigit v p k % 10))

/-- `formatFixed` (rule R167): laws 3 and 4 where they apply, then law 2, then law 1 with free values; NaN and the infinities
are free. -0.0 is unspecified (law 5), so only law 1 speaks of it. -/
def formatFixed (fmt : FloatFmt) (v : FloatVal) (p : Nat) : List Byte :=
  match v with
  | .nan _ => Config.formatFreeText v p
  | .inf _ => Config.formatFreeText v p
  | .finite neg m e =>
    match exactScaled fmt m e p with
    | some n =>
      if neg = true ∧ m = 0 then freeFiniteText v p
      else (if neg then [0x2D#8] else []) ++ fixedText n p
    | none =>
      if neg = false ∧ p = 2 ∧ isNearest314159 fmt m e = true then [0x33#8, 0x2E#8, 0x31#8, 0x34#8]
      else freeFiniteText v p

/-- `filled = floor(progress * 16 / 100)` (rule R160). -/
def filledOf (progress : Int) : Nat := (progress * 16 / 100).toNat

end Sys2Proof.Machine
end

