-- ==== Sys2Proof/Machine/Requests.lean ====
section
/-!
DEFINITION. The requests other than INIT (44_command_layer.md rules R150 to R157): the events of each, and its meaning.
-/

namespace Sys2Proof.Machine

/-- SEND_DATA of each byte, first to last (20_memory.md rule R43). -/
def printEvents (text : List Byte) (bus : Bus) : List Action := text.flatMap (fun c => writeDataEvents c bus)

/-- Set the cursor to `(row, col)` (rules R44 and R152). -/
def setCursorEvents (row col : Int) (bus : Bus) : List Action := setDdramAddrEvents (ddramAddr row col) bus

/-- The sixteen glyphs of a bar (rule R156): `filled` solid blocks 0xFF, then spaces 0x20. -/
def barText (progress : Int) : List Byte :=
  List.replicate (filledOf progress) 0xFF#8 ++ List.replicate (16 - filledOf progress) 0x20#8

/-- PROGRESS_BAR's events (rule R156). -/
def progressBarEvents (row progress : Int) (bus : Bus) : List Action :=
  setCursorEvents row 0 bus ++ printEvents (barText progress) bus

/-- CLEAR_ROW's events (rule R157). -/
def clearRowEvents (row : Int) (bus : Bus) : List Action :=
  setCursorEvents row 0 bus ++ printEvents (List.replicate 16 0x20#8) bus ++ setCursorEvents row 0 bus

/-- CLEAR (rule R151). -/
def execClear (s : State) : Host.Outcome State Fault Refusal := commandRequest .clear true clearDisplayEvents s

/-- SET_CURSOR (rule R152). -/
def execSetCursor (row col : Int) (s : State) : Host.Outcome State Fault Refusal :=
  commandRequest (.setCursor row col) (rowOk row && colOk col) (setCursorEvents row col) s

/-- PRINT_CHARS (rule R153). A text holding 0x00 cannot be written in the operand type (rule R72). -/
def execPrintChars (text : Option (List Byte)) (s : State) : Host.Outcome State Fault Refusal :=
  if textHasNoNul text then commandRequest (.printChars text) text.isSome (printEvents (text.getD [])) s
  else .refused .textHoldsNul

/-- PRINT_INT (rule R154). -/
def execPrintInt (value : Int) (s : State) : Host.Outcome State Fault Refusal :=
  if intInRange s.cfg value then commandRequest (.printInt value) true (printEvents (formatDec value)) s
  else .refused .intOutOfRange

/-- PRINT_FLOAT (rule R155). -/
def execPrintFloat (value : FloatVal) (precision : Int) (s : State) : Host.Outcome State Fault Refusal :=
  if floatRepresentable s.cfg.floatFmt value then
    commandRequest (.printFloat value precision) (precisionOk s.cfg precision)
      (printEvents (formatFixed s.cfg.floatFmt value precision.toNat)) s
  else .refused .floatNotRepresentable

/-- PROGRESS_BAR (rule R156). -/
def execProgressBar (row progress : Int) (s : State) : Host.Outcome State Fault Refusal :=
  commandRequest (.progressBar row progress) (rowOk row && progressOk progress) (progressBarEvents row progress) s

/-- CLEAR_ROW (rule R157). -/
def execClearRow (row : Int) (s : State) : Host.Outcome State Fault Refusal :=
  commandRequest (.clearRow row) (rowOk row) (clearRowEvents row) s

/-- The reserved codes (30_encoding.md rule R73): refused, the block does not step and returns no status. -/
def execReserved (low : BitVec 3) (_s : State) : Host.Outcome State Fault Refusal := .refused (.reservedRequestCode low)

end Sys2Proof.Machine
end

