-- ==== Sys2Proof/Machine/Fetch.lean ====
section
/-!
DEFINITION. Fetching an instruction. The host's next request is fetched where the block is `Idle`; while a request runs, the next
bus word is read off its events (10_state.md rule R27). Loading one instruction where the next step fetches it.
-/

namespace Sys2Proof.Machine

/-- The whole event list of an instruction (rules R112 to R120, R130, R151 to R157), on a platform and a bus. -/
def eventsOf (cfg : Config) (i : Instr) (bus : Bus) : List Action :=
  match i with
  | .nibFset8 => nibFset8Events bus
  | .nibFset4 => nibFset4Events bus
  | .functionSet8bit => functionSet8bitEvents bus
  | .functionSet4bit => functionSet4bitEvents bus
  | .displayControl => displayControlEvents bus
  | .clearDisplay => clearDisplayEvents bus
  | .entryMode => entryModeEvents bus
  | .setDdramAddr a => setDdramAddrEvents a bus
  | .writeData d => writeDataEvents d bus
  | .init _ => initEvents bus
  | .clear => clearDisplayEvents bus
  | .setCursor row col => setCursorEvents row col bus
  | .printChars text => printEvents (text.getD []) bus
  | .printInt value => printEvents (formatDec value) bus
  | .printFloat value precision => printEvents (formatFixed cfg.floatFmt value precision.toNat) bus
  | .progressBar row progress => progressBarEvents row progress bus
  | .clearRow row => clearRowEvents row bus
  | .reserved _ => []

/-! ### The bus word that is due -/

/-- The level the `n`-th of these events sets. -/
def levelSet (rest : List Action) (n : Nat) : Level :=
  match rest[n]? with
  | some (.set _ v) => v
  | some (.wait _) => false
  | some (.configure _) => false
  | none => false

/-- The levels of `n`, ..., `n+3`-th events, the last one most significant (20_memory.md rule R41). -/
def nibbleSet (rest : List Action) (n : Nat) : Nibble :=
  let bit (j : Nat) : BitVec 1 := BitVec.ofBool (levelSet rest (n + j))
  bit 3 ++ bit 2 ++ bit 1 ++ bit 0

/-- The 9-bit word whose transmission these events would begin with (41_bus_transport.md rules R92 and R93): RS, then D0..D7 on
eight lines, the high nibble, a pulse and the low nibble on four. -/
def headWord (m : BusWidthMode) (rest : List Action) : BitVec 9 :=
  let rs : BitVec 1 := BitVec.ofBool (levelSet rest 0)
  match m with
  | .eightBit => rs ++ nibbleSet rest 5 ++ nibbleSet rest 1
  | .fourBit => rs ++ nibbleSet rest 1 ++ nibbleSet rest 9

/-- The word is emitted by the request in progress and its emission is what comes next. -/
def wordDue (cfg : Config) (i : Instr) (bus : Bus) (rest : List Action) (w : Instr) : Bool :=
  emits i bus.mode w && (eventsOf cfg w bus).isPrefixOf rest

/-- A code word that decodes to the bus word due next. -/
def codeDue (cfg : Config) (i : Instr) (bus : Bus) (rest : List Action) (c : CodeWord) : Bool :=
  match decode c with
  | .ok w => wordDue cfg i bus rest w
  | .error _ => false

/-- Fetch the bus word due next: a 9-bit word, or one of the two nibbles of INIT (30_encoding.md rules R60 to R64); none between
the beginnings of two words. -/
def fetchWord (cfg : Config) (i : Instr) (bus : Bus) (rest : List Action) : Option CodeWord :=
  [.b9 (headWord bus.mode rest), .n5 0x03#5, .n5 0x02#5].find? (codeDue cfg i bus rest)

/-! ### Loading one instruction -/

/-- These events from the first place where the emission stands on. -/
def fromEmission (emission : List Action) : List Action → List Action
  | [] => []
  | a :: rest => if emission.isPrefixOf (a :: rest) then a :: rest else fromEmission emission rest

/-- Pin records that VALIDATE resolves to the mode under `Config.initial` (V-VAL of 95_test_vectors.md). -/
def loadPins (m : BusWidthMode) : PinRecord :=
  match m with
  | .eightBit => { rs := 1, e := 2, d0 := 3, d1 := 4, d2 := 5, d3 := 6, d4 := 7, d5 := 8, d6 := 9, d7 := 10 }
  | .fourBit => { rs := 1, e := 2, d0 := 0, d1 := 0, d2 := 0, d3 := 0, d4 := 7, d5 := 8, d6 := 9, d7 := 10 }

/-- A request and a mode in which the block emits this bus word (rule R64); none for a word it never emits, and for a request. -/
def emitter : Instr → Option (Instr × BusWidthMode)
  | .nibFset8 => some (.init (some (loadPins .eightBit)), .eightBit)
  | .nibFset4 => some (.init (some (loadPins .fourBit)), .fourBit)
  | .functionSet8bit => some (.init (some (loadPins .eightBit)), .eightBit)
  | .functionSet4bit => some (.init (some (loadPins .fourBit)), .fourBit)
  | .displayControl => some (.init (some (loadPins .eightBit)), .eightBit)
  | .clearDisplay => some (.clear, .eightBit)
  | .entryMode => some (.init (some (loadPins .eightBit)), .eightBit)
  | .setDdramAddr a =>
    if addressFormed a then some (.setCursor (if a.toNat < 0x40 then 0 else 1) (a.toNat % 0x40 : Nat), .eightBit) else none
  | .writeData d => some (.printChars (some [d]), .eightBit)
  | .init _ | .clear | .setCursor _ _ | .printChars _ | .printInt _ | .printFloat _ _ | .progressBar _ _ => none
  | .clearRow _ | .reserved _ => none

/-- `s` with a bus word due: a request that emits it is in progress, and stands where it emits it. -/
def State.loadWord (w : Instr) (i : Instr) (m : BusWidthMode) (s : State) : State :=
  let bus : Bus := { mode := m, pins := loadPins m }
  { s with seq := .busy i bus (fromEmission (eventsOf s.cfg w bus) (eventsOf s.cfg i bus)) }

/-- `s` with a request as the host's next one, and the sequencer `Idle`, where it is accepted. -/
def State.loadRequest (c : CodeWord) (s : State) : State := { s with seq := .idle, requests := c :: s.requests }

/-- `s` with the code word where the next step fetches it (log entry 7). -/
def State.load (c : CodeWord) (s : State) : State :=
  match decode c with
  | .ok w =>
    match emitter w with
    | some (i, m) => s.loadWord w i m
    | none => s.loadRequest c
  | .error _ => s.loadRequest c

end Sys2Proof.Machine
end

