-- ==== Sys2Proof/Machine/Dispatch.lean ====
section
/-!
DEFINITION. One arm for each instruction.
-/

namespace Sys2Proof.Machine

def exec (i : Instr) (s : State) : Host.Outcome State Fault Refusal :=
  match i with
  | .nibFset8 => Sys2Proof.Machine.execNibFset8 s
  | .nibFset4 => Sys2Proof.Machine.execNibFset4 s
  | .functionSet8bit => Sys2Proof.Machine.execFunctionSet8bit s
  | .functionSet4bit => Sys2Proof.Machine.execFunctionSet4bit s
  | .displayControl => Sys2Proof.Machine.execDisplayControl s
  | .clearDisplay => Sys2Proof.Machine.execClearDisplay s
  | .entryMode => Sys2Proof.Machine.execEntryMode s
  | .setDdramAddr a => Sys2Proof.Machine.execSetDdramAddr a s
  | .writeData d => Sys2Proof.Machine.execWriteData d s
  | .init pins => Sys2Proof.Machine.execInit pins s
  | .clear => Sys2Proof.Machine.execClear s
  | .setCursor row col => Sys2Proof.Machine.execSetCursor row col s
  | .printChars text => Sys2Proof.Machine.execPrintChars text s
  | .printInt value => Sys2Proof.Machine.execPrintInt value s
  | .printFloat value precision => Sys2Proof.Machine.execPrintFloat value precision s
  | .progressBar row progress => Sys2Proof.Machine.execProgressBar row progress s
  | .clearRow row => Sys2Proof.Machine.execClearRow row s
  | .reserved low => Sys2Proof.Machine.execReserved low s

end Sys2Proof.Machine
end

