-- ==== Sys2Proof/Machine/Step.lean ====
section
/-!
DEFINITION. One step of the block (10_state.md rules R26 and R27). An `Idle` block accepts the host's next request, or waits for
it. A `Busy` one performs its head event or finishes; where a bus word's transmission begins, that is the word's meaning.
-/

namespace Sys2Proof.Machine

/-- One step. -/
def step (s : State) : Host.Outcome State Fault Refusal :=
  match s.seq with
  | .busy i bus rest =>
    match fetchWord s.cfg i bus rest with
    | none => .next (s.advance i bus rest)
    | some c =>
      match decode c with
      | .ok w => exec w s
      | .error e => .refused (.undecodable e)
  | .idle =>
    match s.nextRequest with
    | none => .next s.idleWait
    | some (c, issued) =>
      match decode c with
      | .ok i => exec i issued
      | .error e => .refused (.undecodable e)

/-- `s` with the instruction whose bits are `w` where the next step fetches it: a request in front of the host's list with the
sequencer `Idle`, a bus word next in a request that emits it (log entry 7). -/
def State.withFetchWord (s : State) (nbits w : Nat) : State := s.load (codeWordOfTable nbits w)

end Sys2Proof.Machine
end

