-- ==== Sys2Proof/Machine/Assembler.lean ====
section
/-!
DEFINITION. The textual syntax of 30_encoding.md rule R69 (92_eei_decisions.md D25): how an instruction, a transfer and a
wait are written. It is notation: nothing of the machine reads it.
-/

namespace Sys2Proof.Machine

/-- The opening and closing braces of the syntax. -/
def braced (body : String) : String := (String.singleton (Char.ofNat 123)).append (body.append (String.singleton (Char.ofNat 125)))

/-- One hexadecimal digit. -/
def hexDigit (n : Nat) : String :=
  String.singleton (if n < 10 then Char.ofNat (48 + n) else Char.ofNat (55 + n))

/-- A byte as two hexadecimal digits. -/
def hex2 (b : Byte) : String := hexDigit (b.toNat / 16) ++ hexDigit (b.toNat % 16)

/-- A nibble as one hexadecimal digit. -/
def hex1 (n : Nibble) : String := hexDigit n.toNat

/-- A decimal number, by rule R165's formatter. -/
def decimal (v : Int) : String := String.ofList ((formatDec v).map (fun b => Char.ofNat b.toNat))

/-- `pinrec`: the ten fields, each pin a decimal number. -/
def pinRecordText (p : PinRecord) : String :=
  braced ("rs=" ++ decimal p.rs ++ ",e=" ++ decimal p.e ++ ",d0=" ++ decimal p.d0 ++ ",d1=" ++ decimal p.d1 ++ ",d2=" ++ decimal p.d2
    ++ ",d3=" ++ decimal p.d3 ++ ",d4=" ++ decimal p.d4 ++ ",d5=" ++ decimal p.d5 ++ ",d6=" ++ decimal p.d6 ++ ",d7=" ++ decimal p.d7)

/-- `text`, in its `bytes[...]` form, or `none`. -/
def textText : Option (List Byte) → String
  | none => "none"
  | some t => "bytes[" ++ String.intercalate "," (t.map hex2) ++ "]"

/-- `real`: the exact decimal expansion of a finite value. -/
def realText : FloatVal → String
  | .nan _ => "nan"
  | .inf neg => if neg then "-inf" else "inf"
  | .finite neg m e =>
    let scale := (-e).toNat
    let text := if 0 ≤ e then fixedText (m * 2 ^ e.toNat) 0 else fixedText (m * 5 ^ scale) scale
    (if neg then "-" else "") ++ String.ofList (text.map (fun b => Char.ofNat b.toNat))

/-- `busword` and `request`. A reserved code has no syntax. -/
def Instr.text : Instr → String
  | .nibFset8 => "N:3"
  | .nibFset4 => "N:2"
  | .functionSet8bit => "C:38"
  | .functionSet4bit => "C:28"
  | .displayControl => "C:0C"
  | .clearDisplay => "C:01"
  | .entryMode => "C:06"
  | .setDdramAddr a => "C:" ++ hex2 (0x80#8 ||| a.setWidth 8)
  | .writeData d => "D:" ++ hex2 d
  | .init none => "INIT none"
  | .init (some p) => "INIT " ++ pinRecordText p
  | .clear => "CLEAR"
  | .setCursor row col => "SET_CURSOR " ++ decimal row ++ "," ++ decimal col
  | .printChars t => "PRINT_CHARS " ++ textText t
  | .printInt v => "PRINT_INT " ++ decimal v
  | .printFloat v prec => "PRINT_FLOAT " ++ realText v ++ "," ++ decimal prec
  | .progressBar row progress => "PROGRESS_BAR " ++ decimal row ++ "," ++ decimal progress
  | .clearRow row => "CLEAR_ROW " ++ decimal row
  | .reserved _ => ""

/-- `transfer`. -/
def Transfer.text : Transfer → String
  | .t8 rs d => "T8" ++ braced ((if rs then "1," else "0,") ++ hex2 d)
  | .t4 rs n => "T4" ++ braced ((if rs then "1," else "0,") ++ hex1 n)

/-- `wait`. -/
def waitText (us : Nat) : String := "W" ++ decimal us ++ "us"

end Sys2Proof.Machine
end

