-- ==== Sys2Proof/Machine/Observe.lean ====
section
/-!
DEFINITION. What can be observed of a run (70_reset_and_hazards.md rule R221): its statuses, its trace and the final driver
state; and the abstraction of a trace the receiver sees, latched transfers with their gaps (41_bus_transport.md rule R97).
-/

namespace Sys2Proof.Machine

/-- So many steps, stopping at the first fault or refusal. -/
def run : Nat → State → Host.Outcome State Fault Refusal
  | 0, s => .next s
  | n + 1, s =>
    match step s with
    | .next t => run n t
    | .fault r => .fault r
    | .refused r => .refused r

/-- The event an action becomes; a configure call's answer is given. -/
def Action.event (answer : ConfigAnswer) : Action → Event
  | .configure p => .configure p answer
  | .set p v => .set p v
  | .wait n => .wait n

/-- The trace a request leaves when every configure call is answered Ok. -/
def traceOf (actions : List Action) : List Event := actions.map (Action.event .ok)

/-- The sum of a trace's `Wait` arguments (rule R98). -/
def waitTotal : List Event → Nat
  | [] => 0
  | .wait n :: rest => n + waitTotal rest
  | .set _ _ :: rest => waitTotal rest
  | .configure _ _ :: rest => waitTotal rest

/-- How many `GpioSet` events a trace has. -/
def setCount : List Event → Nat
  | [] => 0
  | .set _ _ :: rest => setCount rest + 1
  | .wait _ :: rest => setCount rest
  | .configure _ _ :: rest => setCount rest

/-- How many `Wait` events a trace has. -/
def waitCount : List Event → Nat
  | [] => 0
  | .wait _ :: rest => waitCount rest + 1
  | .set _ _ :: rest => waitCount rest
  | .configure _ _ :: rest => waitCount rest

/-- How many `GpioConfigure` events a trace has. -/
def configureCount : List Event → Nat
  | [] => 0
  | .configure _ _ :: rest => configureCount rest + 1
  | .set _ _ :: rest => configureCount rest
  | .wait _ :: rest => configureCount rest

/-- The gap after a transfer (rule R97): the `Wait`s up to the next `GpioSet(e, 1)`. -/
def gapAfter (e : PinId) : List Event → Nat
  | [] => 0
  | .wait n :: rest => n + gapAfter e rest
  | .set p v :: rest => if p = e ∧ v = true then 0 else gapAfter e rest
  | .configure _ _ :: rest => gapAfter e rest

/-- The latched transfers of a trace with the gap after each (rule R97), from the given latches. A line no `GpioSet` has
driven shows a free level. -/
def latchedTransfers (bus : Bus) : List (PinId × Level) → List Event → List (Transfer × Nat)
  | _, [] => []
  | latch, .set p v :: rest =>
    let after := Sparse.write latch p v
    if p = bus.pins.e ∧ v = false then
      (transferAt (fun q => (Sparse.read after q).getD (Config.levelAfterConfigure q rest.length)) bus,
        gapAfter bus.pins.e rest) :: latchedTransfers bus after rest
    else latchedTransfers bus after rest
  | latch, .wait _ :: rest => latchedTransfers bus latch rest
  | latch, .configure _ _ :: rest => latchedTransfers bus latch rest

/-- The observation of a run (rule R221). -/
structure Observation where
  statuses    : List Status
  trace       : List Event
  initialized : Bool
  mode        : Option BusWidthMode
  pins        : Option PinRecord
  deriving DecidableEq, Repr

/-- What is observed of a state a run ends in (rule R221). -/
def observe (s : State) : Observation :=
  { statuses := s.statuses, trace := s.trace, initialized := s.initialized, mode := s.mode, pins := s.pins }

/-- A run has ended (rule R221): the block is `Idle` and the host has nothing more to issue. -/
def runEnded (s : State) : Bool := decide (s.seq = .idle) && s.requests.isEmpty

end Sys2Proof.Machine
end

