-- ==== Sys2Proof/WellFormed.lean ====
section
/-!
DEFINITION. Which instructions are well formed on a platform: their operands can be written in the operand types
(30_encoding.md rules R71 and R72), a set-address word carries an address the block forms (rule R119), and a request code
names a request (rule R73). An out-of-bounds row, column, progress or precision is well formed: its request ends in
InvalidArgument (rule R72).
-/

namespace Sys2Proof

/-- The well-formedness check. -/
def Instr.wellFormed (cfg : Config) : Instr → Bool
  | .nibFset8 => true
  | .nibFset4 => true
  | .functionSet8bit => true
  | .functionSet4bit => true
  | .displayControl => true
  | .clearDisplay => true
  | .entryMode => true
  | .setDdramAddr a => Machine.addressFormed a
  | .writeData _ => true
  | .init _ => true
  | .clear => true
  | .setCursor _ _ => true
  | .printChars t => Machine.textHasNoNul t
  | .printInt v => Machine.intInRange cfg v
  | .printFloat v _ => Machine.floatRepresentable cfg.floatFmt v
  | .progressBar _ _ => true
  | .clearRow _ => true
  | .reserved _ => false

end Sys2Proof
end

