-- ==== Sys2Proof/Safety.lean ====
section
/-!
DEFINITION. What counts as a good state and a safe run, in the terms the claims use: the driver-state invariant (10_state.md
rule R25), the canonical forms of the lists, the enable-pulse timing of 70_reset_and_hazards.md rules R210, R211 and R214,
and a receiver in step with the block.
-/

namespace Sys2Proof.Machine

/-- `ARG_OK` (44_command_layer.md rule R150), and INIT's argument check (43_initializer.md rule R131). -/
def argOk (cfg : Config) : Instr → Bool
  | .init none => false
  | .init (some p) => (validate cfg p).isSome
  | .setCursor row col => rowOk row && colOk col
  | .printChars text => text.isSome
  | .printFloat _ prec => precisionOk cfg prec
  | .progressBar row progress => rowOk row && progressOk progress
  | .clearRow row => rowOk row
  | .clear => true
  | .printInt _ => true
  | .nibFset8 => true
  | .nibFset4 => true
  | .functionSet8bit => true
  | .functionSet4bit => true
  | .displayControl => true
  | .clearDisplay => true
  | .entryMode => true
  | .setDdramAddr _ => true
  | .writeData _ => true
  | .reserved _ => true

/-- The instruction is one of the host's requests (30_encoding.md rule R70). -/
def isRequest (i : Instr) : Bool := decide (Instr.role i = .initializer) || decide (Instr.role i = .command)

/-- The driver-state invariant. In an initialized state `mode` and `pins` hold values, VALIDATE accepts the record with that
mode, and the active set is configured (rule R25); otherwise neither holds a value (rules R22 and R23). While INIT runs the
block is not initialized, its candidate is validated, and every pin of the active set is configured or still to be; while
anything else runs, it runs with the driver state. What runs is a request, and what remains is the end of its event list (rule
R27). -/
def DriverInv (s : State) : Prop :=
  (s.initialized = true → ∃ bus : Bus, s.bus = some bus ∧ validate s.cfg bus.pins = some bus.mode ∧
    ∀ p ∈ activeSet bus.mode bus.pins, p ∈ s.configured) ∧
  (s.initialized = false → s.mode = none ∧ s.pins = none) ∧
  (match s.seq with
    | .idle => True
    | .busy i bus rest =>
      isRequest i = true ∧ rest <:+ eventsOf s.cfg i bus ∧
      (Instr.role i = .initializer →
        s.initialized = false ∧ validate s.cfg bus.pins = some bus.mode ∧
        ∀ p ∈ activeSet bus.mode bus.pins, p ∈ s.configured ∨ Action.configure p ∈ rest) ∧
      (Instr.role i ≠ .initializer → s.initialized = true ∧ s.bus = some bus))

/-- Every list that stands for a set or a map is in its one canonical form. -/
def CanonicalForm (s : State) : Prop :=
  Sparse.wf s.latch = true ∧ PinSet.wf s.configured = true ∧ Memory.wf s.receiver.ddram = true

/-! ### Enable-pulse timing -/

/-- Where a trace stands in the enable pulse: no edge yet, E high for so many microseconds of waiting, or E low for so many. -/
inductive EdgeScan where
  | fresh
  | high (waited : Nat)
  | low (waited : Nat)
  deriving DecidableEq, Repr

/-- One event seen by the timing check on the pin `e`; none where the event breaks a rule: E rises less than 40 µs after it
fell (rule R211), falls less than 1 µs after it rose (rule R210), is raised while high, or another line is written while E is
high or less than 40 µs after it fell (rules R96 and R214). -/
def edgeStep (e : PinId) (at_ : EdgeScan) (ev : Event) : Option EdgeScan :=
  match at_, ev with
  | .fresh, .set p v => if p = e ∧ v = true then some (.high 0) else some .fresh
  | .fresh, .wait _ => some .fresh
  | .high w, .wait n => some (.high (w + n))
  | .high w, .set p v => if p = e ∧ v = false ∧ 1 ≤ w then some (.low 0) else none
  | .low w, .wait n => some (.low (w + n))
  | .low w, .set p v =>
    if p = e ∧ v = false then some (.low w) else if 40 ≤ w then some (if p = e then .high 0 else .low w) else none
  | x, .configure _ _ => some x

/-- The timing check over a trace. -/
def edgeScan (e : PinId) : EdgeScan → List Event → Option EdgeScan
  | x, [] => some x
  | x, ev :: rest =>
    match edgeStep e x ev with
    | some y => edgeScan e y rest
    | none => none

/-- The next transmission may start: E may rise, and other lines may be written. -/
def EdgeScan.ready : EdgeScan → Bool
  | .fresh => true
  | .high _ => false
  | .low w => decide (40 ≤ w)

/-- The trace keeps the enable-pulse timing on pin `e`, and the next transmission may start. -/
def timely (e : PinId) (trace : List Event) : Bool :=
  match edgeScan e .fresh trace with
  | some x => x.ready
  | none => false

/-- No `GpioSet` has happened (60_exceptions.md rule R184: a failed INIT makes none). -/
def noSet : List Event → Bool
  | [] => true
  | .set _ _ :: _ => false
  | .wait _ :: rest => noSet rest
  | .configure _ _ :: rest => noSet rest

/-- The timing invariant: what has been performed and what the running request will still perform keep the enable-pulse
timing on the bus's E; with no driver state, no pin was ever set; INIT sets none before its configure calls are done. -/
def TimingInv (s : State) : Prop :=
  match s.seq with
  | .idle => (s.pins = none → noSet s.trace = true) ∧ (∀ p, s.pins = some p → timely p.e s.trace = true)
  | .busy _ bus rest =>
    timely bus.pins.e (s.trace ++ traceOf rest) = true ∧
    ((∃ p, Action.configure p ∈ rest) → noSet s.trace = true)

/-! ### What a transmission hands the receiver -/

/-- The transfers of one bus word on a bus (rule R62). -/
def transfersOfWord (m : BusWidthMode) (rs : Level) (b : Byte) : List Transfer :=
  match m with
  | .eightBit => [.t8 rs b]
  | .fourBit => [.t4 rs (b.extractLsb' 4 4), .t4 rs (b.extractLsb' 0 4)]

/-- From `s` to `u` the receiver is handed these transfers, in order, each while E falls: at least 1 µs
after the start, at least 41 µs after the one before, and at least 40 µs before the end. -/
def Delivers (s : State) (xs : List Transfer) (u : State) : Prop :=
  match xs with
  | [] => u.receiver = s.receiver ∧ s.now ≤ u.now
  | x :: rest => ∃ (k t : Nat) (m : State), s.now + 1 ≤ t ∧ t + 40 ≤ m.now ∧ m.receiver = recv k t x s.receiver ∧ Delivers m rest u

/-- The level of a pin after a list of events, given its latch before (rule R28). -/
def levelAfter (p : PinId) : Option Level → List Action → Option Level
  | l, [] => l
  | l, .set q v :: rest => levelAfter p (if q = p then some v else l) rest
  | l, .wait _ :: rest => levelAfter p l rest
  | l, .configure _ :: rest => levelAfter p l rest

/-- E is low between transmissions (41_bus_transport.md rule R100): in `Idle` with a driver state, and at the end of the event
list a busy sequencer is performing. -/
def EnableLow (s : State) : Prop :=
  match s.seq with
  | .idle => ∀ p, s.pins = some p → s.latchOf p.e = some false
  | .busy _ bus rest => levelAfter bus.pins.e (s.latchOf bus.pins.e) rest = some false

/-! ### The receiver -/

/-- The receiver's interface width that fits a mode. -/
def widthOf : BusWidthMode → InterfaceWidth
  | .eightBit => .eight
  | .fourBit => .four

/-- The receiver is in step with the block: its width is the mode's, a pair starts fresh in four-bit width (rule R215), it is
not busy (rule R110), and it increments without shifting (rule R144). -/
def InStep (m : BusWidthMode) (s : State) : Prop :=
  s.receiver.ifw = widthOf m ∧ (m = .fourBit → s.receiver.phase = .high) ∧ s.receiver.busyUntil ≤ s.now ∧
  s.receiver.inc = true ∧ s.receiver.shift = false

/-- The host's answer to the `j`-th of the configure calls that come next, one a step: listed, or free (43_initializer.md rule
R132). -/
def State.answerAt (s : State) (j : Nat) : ConfigAnswer := (s.cfgAnswers[j]?).getD (Config.cfgOracle (s.draws + j))

/-- The host answers the next `n` configure calls with Ok. -/
def AnswersOk (n : Nat) (s : State) : Prop := ∀ j < n, s.answerAt j = .ok

/-- The configure calls of an event list. -/
def configureCalls (actions : List Action) : Nat := configureCount (traceOf actions)

end Sys2Proof.Machine
end

