-- ==== Sys2Proof/Certificates/Slice0/Obligations.lean ====
section
/-!
DEFINITION. The statements for the provers.
-/

open Sys2Proof Sys2Proof.Machine

/-! ### Reset and the step -/

/-- R200: the reset state, field by field as the rule's table gives it (the lifecycle mode Uninitialized is `initialized` = 0, R192);
the receiver is a draw, with every byte of its display data free (R32; the draw's form is log entries 3 and 11). The block then waits:
with no request, a step (the model's own idle step, log entry 7) leaves all of that as it is, with an empty trace and no status. -/
def Obligations.ResetStateIsTheSpecsTable : Prop :=
  State.reset.initialized = false ∧ State.reset.mode = none ∧ State.reset.pins = none ∧
  (∀ p, State.reset.latchOf p = none) ∧ State.reset.configured = [] ∧ State.reset.seq = .idle ∧
  State.reset.receiver = Receiver.draw 0 ∧
  (∀ a, Memory.read State.reset.receiver.ddram a = some (Config.drawDdram 0 a.toNat)) ∧
  ∃ t, step State.reset = .next t ∧ t.seq = .idle ∧ t.trace = [] ∧ t.statuses = [] ∧ t.initialized = false ∧ t.mode = none ∧
    t.pins = none ∧ (∀ p, t.latchOf p = none) ∧ t.configured = [] ∧ t.receiver = Receiver.draw 0

/-- The reset state meets every invariant stated below. -/
def Obligations.ResetMeetsTheInvariants : Prop :=
  DriverInv State.reset ∧ CanonicalForm State.reset ∧ TimingInv State.reset ∧ EnableLow State.reset

/-- A step runs the instruction it fetches. In `Idle`, when the host's next code word decodes to `i`, the step is `exec i` once that
word is issued, well formed or not; a word the decoder rejects is refused by its reason; and with no word the block stays as it is
but for the time (the model's own idle step, log entry 7). In `Busy`, when the fetched word decodes to `w`, the step is `exec w`; and
wherever a bus word that the running request emits comes next, the step is that word's meaning (log entry 8). -/
def Obligations.StepRunsTheDecodedRequest : Prop :=
  ∀ s : State,
    (∀ (c : CodeWord) (rest : List CodeWord), s.seq = .idle →
      (∀ i, s.requests = c :: rest → decode c = .ok i → step s = exec i { s with requests := rest }) ∧
      (∀ e, s.requests = c :: rest → decode c = .error e → step s = .refused (.undecodable e)) ∧
      (s.requests = [] → ∃ t, step s = .next t ∧ s.now ≤ t.now ∧ t = { s with now := t.now, draws := s.draws + 1 })) ∧
    (∀ (i : Instr) (bus : Bus) (rest : List Action), s.seq = .busy i bus rest →
      (∀ c w, fetchWord s.cfg i bus rest = some c → decode c = .ok w → step s = exec w s) ∧
      (∀ w, emits i bus.mode w = true → eventsOf s.cfg w bus <+: rest → step s = exec w s))

/-- R60 to R64, R70: what a `Busy` step fetches. Where a 9-bit word that the running request emits comes next, that word is fetched;
where one of INIT's single nibbles comes next and no second nibble follows, its 5-bit word is; and nothing is fetched that the
request does not emit next. Bus words as instructions of their own: log entry 8. -/
def Obligations.FetchReadsTheWordThatIsDue : Prop :=
  ∀ (cfg : Config) (i : Instr) (bus : Bus) (rest : List Action),
    (∀ w, emits i bus.mode w = true → eventsOf cfg w bus <+: rest → w ≠ .nibFset8 → w ≠ .nibFset4 →
      fetchWord cfg i bus rest = some (encode w)) ∧
    (∀ w, emits i bus.mode w = true → eventsOf cfg w bus <+: rest → w = .nibFset8 ∨ w = .nibFset4 →
      (∀ v, bus.mode = .fourBit → rest[9]? ≠ some (.set bus.pins.d4 v)) → fetchWord cfg i bus rest = some (encode w)) ∧
    (∀ c, fetchWord cfg i bus rest = some c → ∃ w, c = encode w ∧ emits i bus.mode w = true ∧ eventsOf cfg w bus <+: rest)

/-- R27, R28, R132: a busy sequencer performs its head event. A set writes one latch; a wait lets at least its time pass; a
configure answered Ok adds the pin to `configured`, and one answered Fail ends the request (the answer is
the listed one, or `CFG_ORACLE`'s where none is listed). Everything else of the block's state stays as it was. -/
def Obligations.BusyStepPerformsTheHeadEvent : Prop :=
  ∀ (s : State) (i : Instr) (bus : Bus) (rest : List Action),
    (∀ p v, s.seq = .busy i bus (.set p v :: rest) → ∃ t, step s = .next t ∧ t.seq = .busy i bus rest ∧
      t.trace = s.trace ++ [.set p v] ∧ (∀ q, t.latchOf q = if q = p then some v else s.latchOf q) ∧
      t.configured = s.configured ∧ t.initialized = s.initialized ∧ t.mode = s.mode ∧ t.pins = s.pins ∧
      t.statuses = s.statuses ∧ t.cfg = s.cfg ∧ t.requests = s.requests ∧ s.now ≤ t.now ∧
      (¬(p = bus.pins.e ∧ v = false) → t.receiver = s.receiver)) ∧
    (∀ n, s.seq = .busy i bus (.wait n :: rest) → ∃ t, step s = .next t ∧ t.seq = .busy i bus rest ∧
      t.trace = s.trace ++ [.wait n] ∧ t.latch = s.latch ∧
      t.configured = s.configured ∧ t.initialized = s.initialized ∧ t.mode = s.mode ∧ t.pins = s.pins ∧
      t.statuses = s.statuses ∧ t.cfg = s.cfg ∧ t.requests = s.requests ∧ s.now + n ≤ t.now ∧ t.receiver = s.receiver) ∧
    (∀ p, s.seq = .busy i bus (.configure p :: rest) → s.nextAnswer = .ok → ∃ t, step s = .next t ∧
      t.seq = .busy i bus rest ∧ t.trace = s.trace ++ [.configure p .ok] ∧ t.latch = s.latch ∧
      (∀ q, q ∈ t.configured ↔ q = p ∨ q ∈ s.configured) ∧ t.initialized = s.initialized ∧ t.mode = s.mode ∧ t.pins = s.pins ∧
      t.statuses = s.statuses ∧ t.cfg = s.cfg ∧ t.requests = s.requests ∧ t.cfgAnswers = s.cfgAnswers.tail ∧ s.now ≤ t.now ∧
      t.receiver = s.receiver) ∧
    (∀ p, s.seq = .busy i bus (.configure p :: rest) → s.nextAnswer = .fail → ∃ t, step s = .next t ∧
      t.seq = .idle ∧ t.trace = s.trace ++ [.configure p .fail] ∧ t.statuses = s.statuses ++ [.hardwareConfigurationFailure] ∧
      t.latch = s.latch ∧ t.configured = s.configured ∧ t.initialized = s.initialized ∧ t.mode = s.mode ∧ t.pins = s.pins ∧
      t.cfg = s.cfg ∧ t.requests = s.requests ∧ t.cfgAnswers = s.cfgAnswers.tail ∧ t.receiver = s.receiver)

/-- R97: when E is driven low and every line of the mode has a known level, the receiver takes exactly the transfer those levels
make: in EightBit mode bit `j` of the byte is the level of D(j), in FourBit mode bit `j` of the nibble is that of D(4+j). -/
def Obligations.FallingEnableLatchesTheLines : Prop :=
  ∀ (s : State) (i : Instr) (p : PinRecord) (rest : List Action) (rs : Level),
    s.latchOf p.rs = some rs → p.rs ≠ p.e →
    (∀ b : Byte, s.seq = .busy i ⟨.eightBit, p⟩ (.set p.e false :: rest) → p.e ∉ [p.d0, p.d1, p.d2, p.d3, p.d4, p.d5, p.d6, p.d7] →
      s.latchOf p.d0 = some (b.getLsbD 0) → s.latchOf p.d1 = some (b.getLsbD 1) → s.latchOf p.d2 = some (b.getLsbD 2) →
      s.latchOf p.d3 = some (b.getLsbD 3) → s.latchOf p.d4 = some (b.getLsbD 4) → s.latchOf p.d5 = some (b.getLsbD 5) →
      s.latchOf p.d6 = some (b.getLsbD 6) → s.latchOf p.d7 = some (b.getLsbD 7) →
      ∃ t k, step s = .next t ∧ s.now ≤ t.now ∧ t.receiver = recv k t.now (.t8 rs b) s.receiver) ∧
    (∀ n : Nibble, s.seq = .busy i ⟨.fourBit, p⟩ (.set p.e false :: rest) → p.e ∉ [p.d4, p.d5, p.d6, p.d7] →
      s.latchOf p.d4 = some (n.getLsbD 0) → s.latchOf p.d5 = some (n.getLsbD 1) → s.latchOf p.d6 = some (n.getLsbD 2) →
      s.latchOf p.d7 = some (n.getLsbD 3) →
      ∃ t k, step s = .next t ∧ s.now ≤ t.now ∧ t.receiver = recv k t.now (.t4 rs n) s.receiver)

/-! ### Encoding -/

/-- Decoding an encoded instruction gives it back: every constructor, every value of every operand. -/
def Obligations.DecodeAfterEncode : Prop := ∀ i : Instr, decode (encode i) = .ok i

/-- Each code word means one instruction at most, and an instruction has one code word; only the reserved codes, which name no
request, forget their operand record. -/
def Obligations.EncodeAfterDecode : Prop :=
  ∀ (c : CodeWord) (i : Instr), decode c = .ok i → (∀ low, i ≠ .reserved low) → encode i = c

/-- R74, R67: what each 9-bit word decodes to. Data words are WRITE_DATA; command words with bit 7 are SET_DDRAM_ADDR; of the
others exactly five are words of the block, and the rest are rejected by name. -/
def Obligations.BusWordsDecodeAsTheTableSays : Prop :=
  ∀ w : BitVec 9,
    (w.getLsbD 8 = true → decode (.b9 w) = .ok (.writeData (w.setWidth 8))) ∧
    (w.getLsbD 8 = false → w.getLsbD 7 = true → decode (.b9 w) = .ok (.setDdramAddr (w.setWidth 7))) ∧
    (w.getLsbD 8 = false → w.getLsbD 7 = false →
      decode (.b9 w) = if w = 0x38#9 then .ok .functionSet8bit else if w = 0x28#9 then .ok .functionSet4bit
        else if w = 0x0C#9 then .ok .displayControl else if w = 0x01#9 then .ok .clearDisplay
        else if w = 0x06#9 then .ok .entryMode else .error (.neverEmittedWord w))

/-- Words written out from the spec's encodings decode to their instructions (a sanity check). -/
def Obligations.WordsFromTheSpecDecode : Prop :=
  decode (.n5 0b00011#5) = .ok .nibFset8 ∧ decode (.b9 0b011000101#9) = .ok (.setDdramAddr 0x45#7) ∧
  decode (.b9 0b101001000#9) = .ok (.writeData 0x48#8) ∧ decode (.req 0b0010#4 [.int 1, .int 5]) = .ok (.setCursor 1 5) ∧
  decode (.req 0b0111#4 [.int 1]) = .ok (.clearRow 1)

/-! ### The validator -/

/-- R81: `distinct(L)` holds exactly when no two positions of the list hold equal identifiers. -/
def Obligations.DistinctMeansNoTwoEqualPositions : Prop :=
  ∀ l : List PinId, distinct l = true ↔ ∀ (i j : Nat) (hi : i < l.length) (hj : j < l.length), i < j → l[i] ≠ l[j]

/-- R83, R82: VALIDATE prefers EightBit, falls back to FourBit, else rejects; under `AllValid` every pin of the tier must be
valid, under `SourceAnyValid` one suffices. -/
def Obligations.ValidatorResolvesTheBusWidth : Prop :=
  ∀ (cfg : Config) (p : PinRecord),
    let fits (l : List PinId) : Prop := l.Nodup ∧
      ((cfg.rangeRule = .allValid ∧ ∀ q ∈ l, pinValid cfg q = true) ∨ (cfg.rangeRule = .sourceAnyValid ∧ ∃ q ∈ l, pinValid cfg q = true))
    (validate cfg p = some .eightBit ↔ fits [p.rs, p.e, p.d0, p.d1, p.d2, p.d3, p.d4, p.d5, p.d6, p.d7]) ∧
    (validate cfg p = some .fourBit ↔
      ¬fits [p.rs, p.e, p.d0, p.d1, p.d2, p.d3, p.d4, p.d5, p.d6, p.d7] ∧ fits [p.rs, p.e, p.d4, p.d5, p.d6, p.d7])

/-- R84: records that fail tier 1 and agree on the six high-set pins get the same answer, whatever `d0`..`d3` hold. -/
def Obligations.LowFieldsDoNotMatterToTierTwo : Prop :=
  ∀ (cfg : Config) (p q : PinRecord), set4 p = set4 q → validate cfg p ≠ some .eightBit → validate cfg q ≠ some .eightBit →
    validate cfg p = validate cfg q ∧
    (validate cfg p = some .fourBit ↔ distinct (set4 p) = true ∧ inRange cfg (set4 p) = true)

/-! ### The transport -/

/-- R98: how many `GpioSet` and `Wait` events each primitive emits, its minimum time, and its pulses (rises of E, on distinct pins). -/
def Obligations.TransmissionCountsAndTimes : Prop :=
  ∀ (p : PinRecord) (rs : Level) (b : Byte) (n : Nibble),
    let row (l : List Action) := (setCount (traceOf l), waitCount (traceOf l), waitTotal (traceOf l))
    let pulses (l : List Action) := l.count (.set p.e true)
    row (pulse p) = (2, 2, 41) ∧ row (send8 p rs b) = (11, 2, 41) ∧ row (send4 p rs b) = (13, 4, 82) ∧
    row (sendNibble ⟨.fourBit, p⟩ n) = (7, 2, 41) ∧ row (sendNibble ⟨.eightBit, p⟩ n) = (11, 2, 41) ∧
    pulses (pulse p) = 1 ∧
    (distinct (set8 p) = true → pulses (send8 p rs b) = 1 ∧ pulses (sendNibble ⟨.eightBit, p⟩ n) = 1) ∧
    (distinct (set4 p) = true → pulses (send4 p rs b) = 2 ∧ pulses (sendNibble ⟨.fourBit, p⟩ n) = 1)

/-- R86, R99: no instruction's events touch a pin outside the mode's active set; in FourBit mode D0..D3 are never configured nor
driven (unless such a field repeats a pin of the active set). INIT alone configures. -/
def Obligations.EventsStayOnTheActiveSet : Prop :=
  ∀ (cfg : Config) (i : Instr) (bus : Bus) (a : Action), a ∈ eventsOf cfg i bus →
    (∀ p v, a = .set p v → p ∈ activeSet bus.mode bus.pins) ∧
    (∀ p, a = .configure p → p ∈ activeSet bus.mode bus.pins ∧ Instr.role i = .initializer)

/-- R46, R64, R67, R45: the events of a request are words that it emits, configure calls and waits, and nothing else: no single nibble
outside INIT, no set-address word outside the 32, no other word. -/
def Obligations.RequestsEmitOnlyTheirWords : Prop :=
  ∀ (cfg : Config) (i : Instr) (bus : Bus), isRequest i = true → argOk cfg i = true →
    ∃ parts : List (List Action), eventsOf cfg i bus = parts.flatten ∧ ∀ part ∈ parts,
      (∃ n, part = [.wait n]) ∨ (∃ q, part = [.configure q] ∧ Instr.role i = .initializer) ∨
      (∃ w, part = eventsOf cfg w bus ∧ emits i bus.mode w = true ∧ Instr.role w = .busWord ∧
        (w = .nibFset8 ∨ w = .nibFset4 → Instr.role i = .initializer) ∧
        (∀ a, w = .setDdramAddr a → a.toNat < 16 ∨ (0x40 ≤ a.toNat ∧ a.toNat < 0x50)))

/-! ### The bus words -/

/-- R112 to R120, R64: each bus word, where the request in progress emits it next, runs: its meaning is the step of the block, which
drives RS to the word's level, and the rest of the transmission, then the request's other events, stay in the sequencer. Nothing else
changes. NIB_FSET4 and FUNCTION_SET_4BIT run in FourBit mode, FUNCTION_SET_8BIT in EightBit mode, an address word for each of the 32
addresses of R45. That a bus word is an instruction of its own, run off the events of the request in progress, is the model's choice
(log entry 8). -/
def Obligations.BusWordsAreTransmitted : Prop :=
  ∀ (s : State) (i : Instr) (m : BusWidthMode) (p : PinRecord) (more : List Action),
    let bus : Bus := ⟨m, p⟩
    let begins (w : Instr) (rs : Level) (emission : List Action) : Prop :=
      s.seq = .busy i bus (emission ++ more) →
      ∃ t, exec w s = .next t ∧ step s = .next t ∧ s.now ≤ t.now ∧ (∀ q, t.latchOf q = if q = p.rs then some rs else s.latchOf q) ∧
        (p.rs ≠ p.e → t.receiver = s.receiver) ∧
        t = { s with
          seq := .busy i bus (emission.drop 1 ++ more)
          trace := s.trace ++ [.set p.rs rs]
          latch := t.latch
          receiver := t.receiver
          now := t.now
          draws := t.draws }
    let inInit := ∃ pins, i = .init pins
    let inRow := (∃ row g, i = .progressBar row g) ∨ ∃ row, i = .clearRow row
    let inPrint := (∃ text, i = .printChars text) ∨ (∃ v, i = .printInt v) ∨ ∃ v prec, i = .printFloat v prec
    (inInit → begins .nibFset8 false (sendNibble bus 0x3#4)) ∧
    (inInit → m = .fourBit → begins .nibFset4 false (sendNibble bus 0x2#4)) ∧
    (inInit → m = .eightBit → begins .functionSet8bit false (send bus false 0x38#8)) ∧
    (inInit → m = .fourBit → begins .functionSet4bit false (send bus false 0x28#8)) ∧
    (inInit → begins .displayControl false (send bus false 0x0C#8)) ∧
    (inInit ∨ i = .clear → begins .clearDisplay false (send bus false 0x01#8 ++ [.wait 1600])) ∧
    (inInit → begins .entryMode false (send bus false 0x06#8)) ∧
    ((∃ row col, i = .setCursor row col) ∨ inRow → ∀ a : BitVec 7, a.toNat < 16 ∨ (0x40 ≤ a.toNat ∧ a.toNat < 0x50) →
      begins (.setDdramAddr a) false (send bus false (BitVec.ofNat 8 (0x80 + a.toNat)))) ∧
    (inPrint ∨ inRow → ∀ d : Byte, begins (.writeData d) true (send bus true d))

/-- R46, R67, R45: a bus word runs only where the request in progress emits it next. Elsewhere, in `Idle` too, it is refused by name; the
two nibble words run in INIT alone, and a set-address word outside the 32 addresses never runs. That the model stops there, on words
the block does not produce, is log entry 8. -/
def Obligations.BusWordsRunOnlyWhereARequestEmitsThem : Prop :=
  ∀ (s : State) (w : Instr), Instr.role w = .busWord →
    (s.seq = .idle → exec w s = .refused .wordNotDue) ∧
    (∀ i bus rest, s.seq = .busy i bus rest → ¬(emits i bus.mode w = true ∧ eventsOf s.cfg w bus <+: rest) →
      exec w s = .refused .wordNotDue) ∧
    (∀ t, exec w s = .next t → step s = .next t ∧ ∃ i bus rest, s.seq = .busy i bus rest ∧ eventsOf s.cfg w bus <+: rest ∧
      isRequest i = true ∧ (w = .nibFset8 ∨ w = .nibFset4 → ∃ pins, i = .init pins)) ∧
    (∀ a : BitVec 7, 16 ≤ a.toNat → a.toNat < 0x40 ∨ 0x50 ≤ a.toNat → exec (.setDdramAddr a) s = .refused .wordNotDue)

/-- R41, R42, R62, R92, R93, R95, R97, R100: a bus word that the request in progress emits next, transmitted to its end, hands the
receiver exactly its transfers (one byte as it is on eight lines; high nibble then low nibble on four; an INIT nibble alone, on
D7..D4), with the enable timing of R90; then E is low and RS and the data lines hold the levels of the last transfer. The driver
state, the statuses and the configured set do not change, and the request goes on with its other events. Bus words as instructions:
log entry 8; what the receiver makes of a transfer (`recv`): log entry 10. `Delivers` says that the receiver ends as the composition
of these transfers, taken at times with these gaps; the states between are not tied to states of the run. -/
def Obligations.BusWordsDeliverTheirTransfers : Prop :=
  ∀ (s : State) (i : Instr) (bus : Bus) (more : List Action), distinct (activeSet bus.mode bus.pins) = true →
    ∀ (w : Instr) (eight four : List Transfer),
      (w, eight, four) ∈
        [(Instr.nibFset8, [Transfer.t8 false 0x30#8], [Transfer.t4 false 0x3#4]),
         (.nibFset4, [.t8 false 0x20#8], [.t4 false 0x2#4]),
         (.functionSet8bit, [.t8 false 0x38#8], [.t4 false 0x3#4, .t4 false 0x8#4]),
         (.functionSet4bit, [.t8 false 0x28#8], [.t4 false 0x2#4, .t4 false 0x8#4]),
         (.displayControl, [.t8 false 0x0C#8], [.t4 false 0x0#4, .t4 false 0xC#4]),
         (.clearDisplay, [.t8 false 0x01#8], [.t4 false 0x0#4, .t4 false 0x1#4]),
         (.entryMode, [.t8 false 0x06#8], [.t4 false 0x0#4, .t4 false 0x6#4])] ∨
      (∃ a : BitVec 7, w = .setDdramAddr a ∧ eight = [.t8 false (0b1#1 ++ a)] ∧
        four = [.t4 false (0b1#1 ++ a.extractLsb' 4 3), .t4 false (a.extractLsb' 0 4)]) ∨
      (∃ d : Byte, w = .writeData d ∧ eight = [.t8 true d] ∧ four = [.t4 true (d.extractLsb' 4 4), .t4 true (d.extractLsb' 0 4)]) →
      emits i bus.mode w = true → s.seq = .busy i bus (eventsOf s.cfg w bus ++ more) →
      let transfers := match bus.mode with | .eightBit => eight | .fourBit => four
      ∃ t u, exec w s = .next t ∧ step s = .next t ∧ run (eventsOf s.cfg w bus).length s = .next u ∧ u.seq = .busy i bus more ∧
        Delivers s transfers u ∧ u.trace = s.trace ++ traceOf (eventsOf s.cfg w bus) ∧ u.latchOf bus.pins.e = some false ∧
        (∀ q ∈ activeSet bus.mode bus.pins, u.latchOf q ≠ none) ∧ transfers.getLast? = some (u.latchedTransfer bus) ∧
        u.initialized = s.initialized ∧ u.mode = s.mode ∧ u.pins = s.pins ∧ u.statuses = s.statuses ∧ u.configured = s.configured

/-- R29: a command stops with the fault while `mode` or `pins` holds no value and `initialized` is set. That this is where the fault
is raised, after the entry check, is log entry 23 (DEDUCED). -/
def Obligations.AbsentDriverStateFaults : Prop :=
  ∀ (s : State) (i : Instr), s.seq = .idle → s.mode = none ∨ s.pins = none → i.wellFormed s.cfg = true →
    Instr.role i = .command → s.initialized = true → argOk s.cfg i = true → exec i s = .fault .driverStateAbsent

/-- R112 to R120: what each word does to a receiver in eight-bit width that is not busy, as the whole record it leaves (the observer
model, which the spec takes from general knowledge: log entry 10; a data word with byte 0x01 takes 40 µs: log entry 26). A word the
block never emits leaves a draw (R121, U12), but for a class that the model, by its own choice (DEDUCED, log entry 10), does not draw:
every byte 0x20 to 0x3F is a function set, which acts by its DL, N and F bits (rule R66), though the block emits only 0x28, 0x30 and
0x38 of them. -/
def Obligations.ReceiverEffectsInEightBitWidth : Prop :=
  ∀ (k t : Nat) (r : Receiver), r.ifw = .eight → r.busyUntil ≤ t →
    recv k t (.t8 false 0x30#8) r = { r with lines := .one, font := .dots5x8, busyUntil := t + 40 } ∧
    (∃ l f, recv k t (.t4 false 0x3#4) r = { r with lines := l, font := f, busyUntil := t + 40 }) ∧
    (∃ l f, recv k t (.t4 false 0x2#4) r = { r with ifw := .four, phase := .high, lines := l, font := f, busyUntil := t + 40 }) ∧
    recv k t (.t8 false 0x38#8) r = { r with lines := .two, font := .dots5x8, busyUntil := t + 40 } ∧
    recv k t (.t8 false 0x28#8) r =
      { r with ifw := .four, phase := .high, lines := .two, font := .dots5x8, busyUntil := t + 40 } ∧
    recv k t (.t8 false 0x0C#8) r = { r with disp := true, cursor := false, blink := false, busyUntil := t + 40 } ∧
    recv k t (.t8 false 0x06#8) r = { r with inc := true, shift := false, busyUntil := t + 40 } ∧
    (∃ blank, (∀ a, Memory.read blank a = some 0x20#8) ∧
      recv k t (.t8 false 0x01#8) r = { r with ac := 0#7, inc := true, ddram := blank, busyUntil := t + 1600 }) ∧
    (∀ a : BitVec 7, recv k t (.t8 false (0b1#1 ++ a)) r =
      if a.toNat < 16 ∨ (0x40 ≤ a.toNat ∧ a.toNat < 0x50) then { r with ac := a, busyUntil := t + 40 } else Receiver.draw k) ∧
    (∀ d : Byte, ∃ written next, (∀ a, Memory.read written a = if a = r.ac then some d else Memory.read r.ddram a) ∧
      (r.inc = true → r.ac.toNat ≤ 0x26 ∨ (0x40 ≤ r.ac.toNat ∧ r.ac.toNat ≤ 0x66) → next.toNat = r.ac.toNat + 1) ∧
      recv k t (.t8 true d) r = { r with ddram := written, ac := next, busyUntil := t + 40 }) ∧
    (∀ b : Byte, 0x20 ≤ b.toNat → b.toNat < 0x40 → recv k t (.t8 false b) r =
      { r with
        ifw := if b.getLsbD 4 then .eight else .four
        phase := if b.getLsbD 4 then r.phase else .high
        lines := if b.getLsbD 3 then .two else .one
        font := if b.getLsbD 2 then .dots5x10 else .dots5x8
        busyUntil := t + 40 }) ∧
    (∀ b : Byte, b.toNat < 0x20 ∨ (0x40 ≤ b.toNat ∧ b.toNat < 0x80) → b ∉ [0x01#8, 0x06#8, 0x0C#8] →
      recv k t (.t8 false b) r = Receiver.draw k)

/-- R110: in four-bit width, the high nibble and then the low nibble of a word of the block, the receiver being free at both, act as
that word: the address counter, the display data and the display settings end as the eight-bit transfer of the word leaves them, and
the next nibble starts a fresh pair (the observer model, log entry 10). -/
def Obligations.NibblePairActsAsItsWord : Prop :=
  ∀ (k k' t t' : Nat) (r : Receiver) (rs : Level) (b : Byte), r.ifw = .four → r.phase = .high → r.busyUntil ≤ t → r.busyUntil ≤ t' →
    rs = true ∨ b ∈ [0x38#8, 0x28#8, 0x0C#8, 0x01#8, 0x06#8] ∨
      (∃ a : BitVec 7, b = 0b1#1 ++ a ∧ (a.toNat < 16 ∨ (0x40 ≤ a.toNat ∧ a.toNat < 0x50))) →
    let u := recv k' t' (.t4 rs (b.extractLsb' 0 4)) (recv k t (.t4 rs (b.extractLsb' 4 4)) r)
    let w := recv k' t' (.t8 rs b) { r with ifw := .eight }
    u.phase = .high ∧ u.ac = w.ac ∧ u.ddram = w.ddram ∧ u.lines = w.lines ∧ u.font = w.font ∧ u.disp = w.disp ∧ u.cursor = w.cursor ∧
    u.blink = w.blink ∧ u.inc = w.inc ∧ u.shift = w.shift ∧ u.busyUntil = w.busyUntil ∧
    (u.ifw = .four ↔ ¬(rs = false ∧ b = 0x38#8))

/-- R121, R110: a transfer taken before `BUSY_UNTIL` leaves a draw of the whole observer state, in which every byte of the display data
is free (the observer model, log entries 10 and 11). -/
def Obligations.TransferWhileBusyIsADraw : Prop :=
  ∀ (k t : Nat) (x : Transfer) (r : Receiver), t < r.busyUntil →
    recv k t x r = Receiver.draw k ∧ ∀ a, Memory.read (recv k t x r).ddram a = some (Config.drawDdram k a.toNat)

/-! ### INIT -/

/-- R130, R132 to R139: INIT, uninitialized, with a record VALIDATE accepts, is accepted: the sequencer holds exactly the
sequence of the rule, with its waits, and nothing else changes. -/
def Obligations.InitIsAcceptedWithItsSequence : Prop :=
  ∀ (s : State) (p : PinRecord) (m : BusWidthMode), s.seq = .idle → s.initialized = false → validate s.cfg p = some m →
    let b : Bus := ⟨m, p⟩
    let pins := match m with
      | .eightBit => [p.rs, p.e, p.d0, p.d1, p.d2, p.d3, p.d4, p.d5, p.d6, p.d7]
      | .fourBit => [p.rs, p.e, p.d4, p.d5, p.d6, p.d7]
    let fs := match m with | .eightBit => 0x38#8 | .fourBit => 0x28#8
    let events : List Action := pins.map Action.configure ++ [.wait 20000]
        ++ sendNibble b 0x3#4 ++ [.wait 10000] ++ sendNibble b 0x3#4 ++ [.wait 10000] ++ sendNibble b 0x3#4 ++ [.wait 150]
        ++ (match m with | .eightBit => [] | .fourBit => sendNibble b 0x2#4)
        ++ send b false fs ++ [.wait 10000] ++ send b false fs ++ [.wait 150] ++ send b false fs
        ++ send b false 0x0C#8 ++ send b false 0x01#8 ++ [.wait 1600] ++ send b false 0x06#8 ++ [.wait 10000]
    exec (.init (some p)) s = .next { s with seq := .busy (.init (some p)) b events }

/-- R131, R143, R186: INIT's entry checks. Each error returns its status and changes nothing else; `ERR_PRECEDENCE` decides where
both apply. -/
def Obligations.InitEntryErrors : Prop :=
  ∀ (s : State) (pins : Option PinRecord), s.seq = .idle →
    let bad := pins = none ∨ ∃ p, pins = some p ∧ validate s.cfg p = none
    let ends (k : Status) := exec (.init pins) s = .next { s with statuses := s.statuses ++ [k] }
    (s.initialized = true → ¬bad → ends .invalidState) ∧
    (s.initialized = false → bad → ends .invalidArgument) ∧
    (s.initialized = true → bad → s.cfg.errPrecedence = .stateFirst → ends .invalidState) ∧
    (s.initialized = true → bad → s.cfg.errPrecedence = .argFirst → ends .invalidArgument) ∧
    (s.initialized = false → ¬bad → ∃ t i bus rest, exec (.init pins) s = .next t ∧ t.seq = .busy i bus rest ∧
      t.statuses = s.statuses ∧ t.trace = s.trace)

/-- R141: the counts of events and of pulses (rises of E), the minimum time, the opening configure calls and wait, and the latched
transfers with their gaps, of a whole INIT, in either mode, for every record whose active set is distinct. -/
def Obligations.InitTraceSummary : Prop :=
  ∀ (p : PinRecord) (latch : List (PinId × Level)),
    (distinct (set8 p) = true →
      let tr := traceOf (initEvents ⟨.eightBit, p⟩)
      (configureCount tr, setCount tr, waitCount tr, waitTotal tr) = (10, 99, 26, 62269) ∧
      tr.count (.set p.e true) = 9 ∧ tr.take 11 = (set8 p).map (fun q => Event.configure q .ok) ++ [.wait 20000] ∧
      latchedTransfers ⟨.eightBit, p⟩ latch tr =
        [(.t8 false 0x30#8, 10040), (.t8 false 0x30#8, 10040), (.t8 false 0x30#8, 190), (.t8 false 0x38#8, 10040),
         (.t8 false 0x38#8, 190), (.t8 false 0x38#8, 40), (.t8 false 0x0C#8, 40), (.t8 false 0x01#8, 1640), (.t8 false 0x06#8, 10040)]) ∧
    (distinct (set4 p) = true →
      let tr := traceOf (initEvents ⟨.fourBit, p⟩)
      (configureCount tr, setCount tr, waitCount tr, waitTotal tr) = (6, 106, 40, 62556) ∧
      tr.count (.set p.e true) = 16 ∧ tr.take 7 = (set4 p).map (fun q => Event.configure q .ok) ++ [.wait 20000] ∧
      latchedTransfers ⟨.fourBit, p⟩ latch tr =
        [(.t4 false 0x3#4, 10040), (.t4 false 0x3#4, 10040), (.t4 false 0x3#4, 190), (.t4 false 0x2#4, 40),
         (.t4 false 0x2#4, 40), (.t4 false 0x8#4, 10040), (.t4 false 0x2#4, 40), (.t4 false 0x8#4, 190),
         (.t4 false 0x2#4, 40), (.t4 false 0x8#4, 40), (.t4 false 0x0#4, 40), (.t4 false 0xC#4, 40),
         (.t4 false 0x0#4, 40), (.t4 false 0x1#4, 1640), (.t4 false 0x0#4, 40), (.t4 false 0x6#4, 10040)])

/-- R132, R142, R184, R186: if the first `j` configure calls of an accepted INIT answer Ok and the next answers Fail, INIT ends
with HardwareConfigurationFailure after exactly those calls: no pin is set, the driver state is unchanged, and the first `j` pins
stay configured (93_implementation_defined.md U9: what a real platform leaves configured is open, log entry 24). An answer is the
listed one, or `CFG_ORACLE`'s where none is listed. -/
def Obligations.FailedConfigureEndsInit : Prop :=
  ∀ (s : State) (p : PinRecord) (m : BusWidthMode) (j : Nat) (t : State),
    exec (.init (some p)) s = .next t → s.initialized = false → validate s.cfg p = some m →
    AnswersOk j s → s.answerAt j = .fail → (hj : j < (activeSet m p).length) →
    ∃ u, run (j + 1) t = .next u ∧ u.seq = .idle ∧ u.statuses = s.statuses ++ [.hardwareConfigurationFailure] ∧
      u.trace = s.trace ++ ((activeSet m p).take j).map (fun q => Event.configure q .ok) ++ [.configure (activeSet m p)[j] .fail] ∧
      u.initialized = false ∧ u.mode = s.mode ∧ u.pins = s.pins ∧ u.latch = s.latch ∧ u.receiver = s.receiver ∧
      u.cfgAnswers = s.cfgAnswers.drop (j + 1) ∧ (∀ q, q ∈ u.configured ↔ q ∈ (activeSet m p).take j ∨ q ∈ s.configured)

/-- R144, R204 (the source's claim about the receiver, under the observer model of log entry 10): INIT brings the receiver to the
stated settings whatever its state before, if it is free once the power-on wait is over and the configure calls answer Ok (listed
answers or `CFG_ORACLE`'s). That first premise is the statement's own restriction: R204 says that INIT needs no assumption about the
receiver's state, but by R110 and R121 a receiver still busy at the first nibble becomes a draw, and the statement leaves it out. -/
def Obligations.InitBringsTheReceiverToAKnownState : Prop :=
  ∀ (s : State) (p : PinRecord) (m : BusWidthMode), s.seq = .idle → s.initialized = false → validate s.cfg p = some m →
    AnswersOk (activeSet m p).length s → s.receiver.busyUntil ≤ s.now + 20000 →
    ∃ t u, exec (.init (some p)) s = .next t ∧ run ((initEvents ⟨m, p⟩).length + 1) t = .next u ∧ u.seq = .idle ∧
      u.initialized = true ∧ InStep m u ∧ u.receiver.ac = 0#7 ∧ u.receiver.lines = .two ∧ u.receiver.font = .dots5x8 ∧
      u.receiver.disp = true ∧ u.receiver.cursor = false ∧ u.receiver.blink = false ∧
      (∀ a, Memory.read u.receiver.ddram a = some 0x20#8)

/-! ### The command requests -/

/-- R150, R183, R186: the common entry check, with the bounds of every request. An error returns its status and changes nothing
else. -/
def Obligations.CommandEntryErrors : Prop :=
  ∀ (s : State) (i : Instr), Instr.role i = .command → i.wellFormed s.cfg = true → s.seq = .idle →
    let ends (k : Status) := exec i s = .next { s with statuses := s.statuses ++ [k] }
    (s.initialized = false → argOk s.cfg i = true → ends .invalidState) ∧
    (s.initialized = true → argOk s.cfg i = false → ends .invalidArgument) ∧
    (s.initialized = false → argOk s.cfg i = false → s.cfg.errPrecedence = .stateFirst → ends .invalidState) ∧
    (s.initialized = false → argOk s.cfg i = false → s.cfg.errPrecedence = .argFirst → ends .invalidArgument) ∧
    (argOk s.cfg .clear = true) ∧ (∀ v, argOk s.cfg (.printInt v) = true) ∧
    (∀ t, argOk s.cfg (.printChars t) = true ↔ t ≠ none) ∧
    (∀ row col, argOk s.cfg (.setCursor row col) = true ↔ (row = 0 ∨ row = 1) ∧ 0 ≤ col ∧ col < 16) ∧
    (∀ v prec, argOk s.cfg (.printFloat v prec) = true ↔ 0 ≤ prec ∧ prec ≤ s.cfg.precMax) ∧
    (∀ row prog, argOk s.cfg (.progressBar row prog) = true ↔ (row = 0 ∨ row = 1) ∧ 0 ≤ prog ∧ prog ≤ 100) ∧
    (∀ row, argOk s.cfg (.clearRow row) = true ↔ row = 0 ∨ row = 1)

/-- R151, R152, R44: CLEAR and SET_CURSOR, initialized and in bounds, are accepted with exactly their bus word: 0x01 and its
wait, or `0x80 | (ROW_BASE[row] + col)`. Nothing else changes. -/
def Obligations.ClearAndSetCursorAreAccepted : Prop :=
  ∀ (s : State) (m : BusWidthMode) (p : PinRecord), s.seq = .idle → s.initialized = true → s.mode = some m → s.pins = some p →
    exec .clear s = .next { s with seq := .busy .clear ⟨m, p⟩ (send ⟨m, p⟩ false 0x01#8 ++ [.wait 1600]) } ∧
    (∀ c : Nat, c < 16 → exec (.setCursor 0 c) s =
      .next { s with seq := .busy (.setCursor 0 c) ⟨m, p⟩ (send ⟨m, p⟩ false (BitVec.ofNat 8 (0x80 + c))) }) ∧
    (∀ c : Nat, c < 16 → exec (.setCursor 1 c) s =
      .next { s with seq := .busy (.setCursor 1 c) ⟨m, p⟩ (send ⟨m, p⟩ false (BitVec.ofNat 8 (0xC0 + c))) })

/-- R153 to R155, R43: the print requests, initialized and with operands that can be written, are accepted with one data word for
each byte of their text, in order and unchanged. Nothing else changes. -/
def Obligations.PrintRequestsAreAccepted : Prop :=
  ∀ (s : State) (m : BusWidthMode) (p : PinRecord), s.seq = .idle → s.initialized = true → s.mode = some m → s.pins = some p →
    (∀ text : List Byte, 0x00#8 ∉ text → exec (.printChars (some text)) s =
      .next { s with seq := .busy (.printChars (some text)) ⟨m, p⟩ (text.flatMap (fun c => send ⟨m, p⟩ true c)) }) ∧
    (∀ v : Int, -2 ^ (s.cfg.intBits - 1) ≤ v → v ≤ 2 ^ (s.cfg.intBits - 1) - 1 → exec (.printInt v) s =
      .next { s with seq := .busy (.printInt v) ⟨m, p⟩ ((formatDec v).flatMap (fun c => send ⟨m, p⟩ true c)) }) ∧
    (∀ (v : FloatVal) (prec : Nat), floatRepresentable s.cfg.floatFmt v = true → prec ≤ s.cfg.precMax →
      let events := (formatFixed s.cfg.floatFmt v prec).flatMap (fun c => send ⟨m, p⟩ true c)
      exec (.printFloat v prec) s = .next { s with seq := .busy (.printFloat v prec) ⟨m, p⟩ events })

/-- R156, R157, R160: PROGRESS_BAR and CLEAR_ROW, initialized and in bounds, are accepted with the set-address word of column 0 and
sixteen data words; CLEAR_ROW sets the address again. Nothing else changes. -/
def Obligations.BarAndClearRowAreAccepted : Prop :=
  ∀ (s : State) (m : BusWidthMode) (p : PinRecord) (row : Nat), s.seq = .idle → s.initialized = true → s.mode = some m →
    s.pins = some p → row ≤ 1 →
    let home := send ⟨m, p⟩ false (BitVec.ofNat 8 (0x80 + 0x40 * row))
    let print (text : List Byte) := text.flatMap (fun c => send ⟨m, p⟩ true c)
    let blank := home ++ print (List.replicate 16 0x20#8) ++ home
    (∀ g : Nat, g ≤ 100 →
      let bar := List.replicate (g * 16 / 100) 0xFF#8 ++ List.replicate (16 - g * 16 / 100) 0x20#8
      exec (.progressBar row g) s = .next { s with seq := .busy (.progressBar row g) ⟨m, p⟩ (home ++ print bar) }) ∧
    exec (.clearRow row) s = .next { s with seq := .busy (.clearRow row) ⟨m, p⟩ blank }

/-- R73: the codes 0x8 to 0xF name no request; the model refuses them and returns no status. -/
def Obligations.ReservedCodesAreRefused : Prop :=
  ∀ s : State, (∀ low, exec (.reserved low) s = .refused (.reservedRequestCode low)) ∧
    (∀ (op : BitVec 4) (operands : List Operand) (rest : List CodeWord), 8 ≤ op.toNat → s.seq = .idle →
      s.requests = .req op operands :: rest → step s = .refused (.reservedRequestCode (op.extractLsb' 0 3)))

/-- R72: a text holding 0x00 and a PRINT_INT value outside the `INT_BITS` range are refused before they reach the block, in every
state. The float clause is the model's (R72's list of cases has none): a PRINT_FLOAT value outside `FLOAT_FMT` is refused like the
integer (log entry 19), and a value is written in one form only, with an odd significand or zero (log entry 4). -/
def Obligations.UnwritableOperandsAreRefused : Prop :=
  ∀ s : State, (∀ text : List Byte, 0x00#8 ∈ text → exec (.printChars (some text)) s = .refused .textHoldsNul) ∧
    (∀ v : Int, v < -2 ^ (s.cfg.intBits - 1) ∨ 2 ^ (s.cfg.intBits - 1) - 1 < v → exec (.printInt v) s = .refused .intOutOfRange) ∧
    (∀ v prec, floatRepresentable s.cfg.floatFmt v = false → exec (.printFloat v prec) s = .refused .floatNotRepresentable)

/-- R27, U10: the block accepts no request while it is busy (that the model then refuses the request by name is its choice, log entry
18), and a step of a busy block does not look at the host's requests. -/
def Obligations.BusyBlockAcceptsNothing : Prop :=
  ∀ (s : State) (i j : Instr) (bus : Bus) (rest : List Action), s.seq = .busy j bus rest →
    (isRequest i = true → i.wellFormed s.cfg = true → exec i s = .refused .requestWhileBusy) ∧
    (∀ cs t, step s = .next t → step { s with requests := cs } = .next { t with requests := cs })

/-- R27, R100, R140, R180: every request that is accepted runs to its end, its configure calls answering Ok (listed answers or
`CFG_ORACLE`'s): its events happen once each, in order; it returns Ok and nothing else; INIT commits its candidate and no other request
writes the driver state; the configured set gains exactly the configured pins; each pin ends at the level its events leave it at; the
time passed is at least the sum of the waits. -/
def Obligations.AcceptedInstructionsRunToTheirEnd : Prop :=
  ∀ (s t : State) (i : Instr) (bus : Bus) (events : List Action), s.seq = .idle → exec i s = .next t → t.seq = .busy i bus events →
    AnswersOk (configureCalls events) s →
    ∃ u, run (events.length + 1) t = .next u ∧ u.seq = .idle ∧ u.trace = s.trace ++ traceOf events ∧
      u.statuses = s.statuses ++ [.ok] ∧
      (Instr.role i = .initializer → u.initialized = true ∧ u.mode = some bus.mode ∧ u.pins = some bus.pins) ∧
      (Instr.role i ≠ .initializer → u.initialized = s.initialized ∧ u.mode = s.mode ∧ u.pins = s.pins) ∧
      (∀ q, q ∈ u.configured ↔ q ∈ s.configured ∨ Action.configure q ∈ events) ∧
      (∀ q, u.latchOf q = levelAfter q (s.latchOf q) events) ∧
      (∀ q, (∀ v, Action.set q v ∉ events) → u.latchOf q = s.latchOf q) ∧
      s.now + waitTotal (traceOf events) ≤ u.now ∧ u.cfg = s.cfg ∧ u.requests = s.requests

/-- R160, R156: the number of filled glyphs with its table of values, and a bar's sixteen glyphs. -/
def Obligations.FilledGlyphCount : Prop :=
  (∀ g : Nat, g ≤ 100 → filledOf g = g * 16 / 100 ∧ g * 16 ≤ 1600 ∧ filledOf g ≤ 16 ∧ (filledOf g = 16 ↔ g = 100)) ∧
  (∀ g h : Nat, g ≤ h → h ≤ 100 → filledOf g ≤ filledOf h) ∧
  [0, 1, 6, 7, 12, 13, 49, 50, 93, 94, 99, 100].map filledOf = [0, 0, 0, 1, 1, 2, 7, 8, 14, 15, 15, 16] ∧
  (∀ g : Nat, g ≤ 100 → (barText g).length = 16 ∧ (barText g).count 0xFF#8 = filledOf g ∧ (barText g).count 0x20#8 = 16 - filledOf g)

/-- R165 (the character codes by log entry 12): `digits` writes the decimal digits, most significant first, without leading
zeros, and reading them back gives the number; `formatDec` puts one minus sign before a negative number's. -/
def Obligations.DecimalFormatter : Prop :=
  (∀ u : Nat, digits u ≠ [] ∧ (∀ b ∈ digits u, 0x30 ≤ b.toNat ∧ b.toNat ≤ 0x39) ∧
    (digits u).foldl (fun acc b => acc * 10 + (b.toNat - 0x30)) 0 = u ∧ (0 < u → (digits u).head? ≠ some 0x30#8)) ∧
  digits 0 = [0x30#8] ∧
  ∀ v : Int, formatDec v = if v < 0 then 0x2D#8 :: digits v.natAbs else digits v.natAbs

/-- R167, laws 1 to 4 (the character codes are log entry 12). Law 3 and 4: if `|v| * 10^p` is an integer `N` that `FLOAT_FMT` has,
the text is the sign, the digits of `N / 10^p`, and for `p ≥ 1` a '.' and the last `p` digits of `N`. Law 2: a value within half of
`2^(2 - mantBits)` of 3.14159, with an exponent of 0 or less, prints "3.14" at precision 2; that this is the value law 2 means is the
model's choice (log entry 16). Law 1: exactly one '.', exactly `p` digits after it. -/
def Obligations.FixedPointFormatterLaws : Prop :=
  ∀ (fmt : FloatFmt) (neg : Bool) (m : Nat) (e : Int) (p : Nat), floatRepresentable fmt (.finite neg m e) = true →
    (1 ≤ p → ∃ whole frac, formatFixed fmt (.finite neg m e) p = whole ++ 0x2E#8 :: frac ∧ 0x2E#8 ∉ whole ∧ frac.length = p ∧
      ∀ b ∈ frac, 0x30 ≤ b.toNat ∧ b.toNat ≤ 0x39) ∧
    (neg = false → p = 2 → |(m : ℚ) * 2 ^ e - 314159 / 100000| * 2 ^ (fmt.mantBits - 1) ≤ 1 → e ≤ 0 →
      formatFixed fmt (.finite neg m e) p = [0x33#8, 0x2E#8, 0x31#8, 0x34#8]) ∧
    (∀ n : Nat, (m : ℚ) * 2 ^ e * 10 ^ p = n →
      (∃ m' e', floatRepresentable fmt (.finite false m' e') = true ∧ (m' : ℚ) * 2 ^ e' = n) → ¬(neg = true ∧ m = 0) →
      formatFixed fmt (.finite neg m e) p = (if neg then [0x2D#8] else []) ++ digits (n / 10 ^ p) ++
        (if p = 0 then [] else 0x2E#8 :: (List.range p).reverse.map (fun k => BitVec.ofNat 8 (0x30 + n / 10 ^ k % 10))))

/-- R170, R220: the minimum time of each request, from its waits. -/
def Obligations.RequestTimes : Prop :=
  ∀ (cfg : Config) (p : PinRecord) (m : BusWidthMode),
    let w := match m with | .eightBit => 41 | .fourBit => 82
    let time (i : Instr) := waitTotal (traceOf (eventsOf cfg i ⟨m, p⟩))
    time .clear = w + 1600 ∧ (∀ row col, time (.setCursor row col) = w) ∧
    (∀ text : List Byte, time (.printChars (some text)) = w * text.length) ∧
    (∀ v, time (.printInt v) = w * (formatDec v).length) ∧
    (∀ v prec, time (.printFloat v prec) = w * (formatFixed cfg.floatFmt v prec.toNat).length) ∧
    (∀ row (g : Nat), g ≤ 100 → time (.progressBar row g) = w * 17) ∧ (∀ row, time (.clearRow row) = w * 18)

/-- R46, R212, R215 (under the observer model, log entry 10): a command that runs to its end on a receiver in step leaves it in step: the width,
a fresh nibble pair, and no transfer of the command taken while the receiver is busy. -/
def Obligations.CommandsKeepTheReceiverInStep : Prop :=
  ∀ (s t : State) (i : Instr) (bus : Bus) (events : List Action), DriverInv s → Instr.role i = .command → exec i s = .next t →
    t.seq = .busy i bus events → InStep bus.mode s →
    ∃ u, run (events.length + 1) t = .next u ∧ u.seq = .idle ∧ InStep bus.mode u ∧ u.receiver.lines = s.receiver.lines ∧
      u.receiver.font = s.receiver.font ∧ u.receiver.disp = s.receiver.disp ∧ u.receiver.cursor = s.receiver.cursor ∧
      u.receiver.blink = s.receiver.blink

/-- R120, R153 to R155, R44 (under the observer model, log entry 10): a text printed from an address of row `row`, by PRINT_CHARS,
PRINT_INT or PRINT_FLOAT, that stays inside the row's range (0x00..0x26 or 0x40..0x66) stands there afterwards, character by character,
in the visible columns as the shown row has them; every other byte of the display data is as before; and the address counter stands
after the text. What a text that leaves the range does is free (U3). -/
def Obligations.PrintedTextStandsInDdram : Prop :=
  ∀ (s : State) (bus : Bus) (i : Instr) (text : List Byte) (row col : Nat), DriverInv s → s.seq = .idle → s.initialized = true →
    s.bus = some bus → InStep bus.mode s → row ≤ 1 → col + text.length ≤ 0x27 →
    s.receiver.ac = BitVec.ofNat 7 (0x40 * row + col) →
    (i = .printChars (some text) ∧ 0x00#8 ∉ text) ∨
      (∃ v : Int, i = .printInt v ∧ -2 ^ (s.cfg.intBits - 1) ≤ v ∧ v ≤ 2 ^ (s.cfg.intBits - 1) - 1 ∧ text = formatDec v) ∨
      (∃ (v : FloatVal) (prec : Nat), i = .printFloat v prec ∧ floatRepresentable s.cfg.floatFmt v = true ∧ prec ≤ s.cfg.precMax ∧
        text = formatFixed s.cfg.floatFmt v prec) →
    ∃ t u, exec i s = .next t ∧ run ((eventsOf s.cfg i bus).length + 1) t = .next u ∧ u.seq = .idle ∧
      (∀ (j : Nat) (hj : j < text.length),
        Memory.read u.receiver.ddram (BitVec.ofNat 7 (0x40 * row + col + j)) = some text[j] ∧
        (col + j < 16 → u.receiver.shown row (col + j : Nat) = some text[j])) ∧
      (∀ a : BitVec 7, (a.toNat < 0x40 * row + col ∨ 0x40 * row + col + text.length ≤ a.toNat) →
        Memory.read u.receiver.ddram a = Memory.read s.receiver.ddram a) ∧
      u.receiver.ac = BitVec.ofNat 7 (0x40 * row + col + text.length)

/-- R151, R152, R156, R157 (under the observer model, log entry 10): after SET_CURSOR the address counter is the position's address and
the display data is as before; after CLEAR_ROW the row is blank, every other byte is as before and the cursor stands at its column 0;
after PROGRESS_BAR the row shows the bar, every other byte is as before and the cursor stands past it; after CLEAR every byte is 0x20
and the cursor stands at address 0. -/
def Obligations.CursorRequestsMoveTheAddressCounter : Prop :=
  ∀ (s : State) (bus : Bus) (row : Nat), DriverInv s → s.seq = .idle → s.initialized = true → s.bus = some bus →
    InStep bus.mode s → row ≤ 1 →
    let ends (i : Instr) (good : Receiver → Prop) : Prop :=
      ∃ t u, exec i s = .next t ∧ run ((eventsOf s.cfg i bus).length + 1) t = .next u ∧ u.seq = .idle ∧ good u.receiver
    let otherBytes (r : Receiver) : Prop := ∀ a : BitVec 7, a.toNat < 0x40 * row ∨ 0x40 * row + 16 ≤ a.toNat →
      Memory.read r.ddram a = Memory.read s.receiver.ddram a
    ends .clear (fun r => r.ac = 0#7 ∧ ∀ a, Memory.read r.ddram a = some 0x20#8) ∧
    (∀ col : Nat, col < 16 → ends (.setCursor row col)
      (fun r => r.ac = BitVec.ofNat 7 (0x40 * row + col) ∧ r.ddram = s.receiver.ddram)) ∧
    ends (.clearRow row)
      (fun r => r.ac = BitVec.ofNat 7 (0x40 * row) ∧ otherBytes r ∧ ∀ c : Nat, c < 16 → r.shown row c = some 0x20#8) ∧
    (∀ g : Nat, g ≤ 100 → ends (.progressBar row g)
      (fun r => r.ac = BitVec.ofNat 7 (0x40 * row + 16) ∧ otherBytes r ∧
        ∀ c : Nat, c < 16 → r.shown row c = some (if c < g * 16 / 100 then 0xFF#8 else 0x20#8)))

/-! ### What every step keeps -/

/-- R25, R27: the driver-state invariant is kept by every step. -/
def Obligations.StepKeepsTheDriverInvariant : Prop := ∀ s t : State, DriverInv s → step s = .next t → DriverInv t

/-- The latches, the configured set and the display data stay in canonical form: pins strictly rising, and each of the 128 display
addresses listed once, rising. The list form is the model's (log entry 25); R28, R30 and R40 give the maps and the set it stands for. -/
def Obligations.StepKeepsTheCanonicalForm : Prop := ∀ s t : State, CanonicalForm s → step s = .next t → CanonicalForm t

/-- R210, R211, R214, R96: the enable-pulse timing holds of every trace the block makes, across requests too: E is high for at least
1 µs of waits and low for at least 40 µs of waits before it rises again, and RS and the data lines are not written while it is high nor
until 40 µs of waits after it fell. -/
def Obligations.StepKeepsTheEnableTiming : Prop :=
  ∀ s t : State, DriverInv s → TimingInv s → step s = .next t → TimingInv t

/-- R100: E is low between requests: whenever the block is Idle with a driver state, and at the end of what a busy block still performs. -/
def Obligations.StepKeepsEnableLow : Prop :=
  ∀ s t : State, DriverInv s → EnableLow s → step s = .next t → EnableLow t

/-- R21, R22, R23, R201: once initialized, always initialized, with the same mode and pins. -/
def Obligations.InitializationIsForGood : Prop :=
  ∀ s t : State, DriverInv s → step s = .next t → s.initialized = true →
    t.initialized = true ∧ t.mode = s.mode ∧ t.pins = s.pins

/-- R140, R192: `mode`, `pins` or `initialized` changes only in the last step of an INIT, with all its events done; that step writes
all three from the candidate and returns Ok. -/
def Obligations.OnlyTheEndOfInitWritesTheDriverState : Prop :=
  ∀ s t : State, step s = .next t → (t.initialized ≠ s.initialized ∨ t.mode ≠ s.mode ∨ t.pins ≠ s.pins) →
    ∃ pins bus, s.seq = .busy (.init pins) bus [] ∧ t.seq = .idle ∧ t.initialized = true ∧ t.mode = some bus.mode ∧
      t.pins = some bus.pins ∧ t.statuses = s.statuses ++ [.ok] ∧ t.trace = s.trace

/-- R9, R27, R181, R180: a step appends at most one event to the trace and at most one status; a status leaves the block Idle; the
time never goes back; and the platform's parameters never change. -/
def Obligations.StepsOnlyAppendToTheObservation : Prop :=
  ∀ s t : State, step s = .next t →
    (t.trace = s.trace ∨ ∃ e, t.trace = s.trace ++ [e]) ∧
    (t.statuses = s.statuses ∨ (t.seq = .idle ∧ ∃ k, t.statuses = s.statuses ++ [k])) ∧
    s.now + waitTotal (t.trace.drop s.trace.length) ≤ t.now ∧ t.cfg = s.cfg

/-- R29, R183: in a good state nothing ever reads an absent `mode` or `pins`: no instruction faults, and no step does. -/
def Obligations.GoodStatesDoNotFault : Prop :=
  ∀ s : State, DriverInv s → (∀ i f, exec i s ≠ .fault f) ∧ ∀ f, step s ≠ .fault f
end

