-- ==== Sys2Proof/Laws/State.lean ====
section
/-!
SUPPORT. The state's updates, field by field: what each named operation of Machine/Ops.lean leaves in each field.
-/

namespace Sys2Proof.Machine

variable (s : State)

/-! ### returnStatus -/

@[simp] theorem State.returnStatus_cfg (st : Status) : (s.returnStatus st).cfg = s.cfg := rfl
@[simp] theorem State.returnStatus_initialized (st : Status) : (s.returnStatus st).initialized = s.initialized := rfl
@[simp] theorem State.returnStatus_mode (st : Status) : (s.returnStatus st).mode = s.mode := rfl
@[simp] theorem State.returnStatus_pins (st : Status) : (s.returnStatus st).pins = s.pins := rfl
@[simp] theorem State.returnStatus_latch (st : Status) : (s.returnStatus st).latch = s.latch := rfl
@[simp] theorem State.returnStatus_configured (st : Status) : (s.returnStatus st).configured = s.configured := rfl
@[simp] theorem State.returnStatus_seq (st : Status) : (s.returnStatus st).seq = .idle := rfl
@[simp] theorem State.returnStatus_receiver (st : Status) : (s.returnStatus st).receiver = s.receiver := rfl
@[simp] theorem State.returnStatus_trace (st : Status) : (s.returnStatus st).trace = s.trace := rfl
@[simp] theorem State.returnStatus_statuses (st : Status) : (s.returnStatus st).statuses = s.statuses ++ [st] := rfl
@[simp] theorem State.returnStatus_now (st : Status) : (s.returnStatus st).now = s.now := rfl
@[simp] theorem State.returnStatus_draws (st : Status) : (s.returnStatus st).draws = s.draws := rfl
@[simp] theorem State.returnStatus_requests (st : Status) : (s.returnStatus st).requests = s.requests := rfl
@[simp] theorem State.returnStatus_cfgAnswers (st : Status) : (s.returnStatus st).cfgAnswers = s.cfgAnswers := rfl

/-! ### raise -/

@[simp] theorem State.raise_cfg (st : Status) : (s.raise st).cfg = s.cfg := rfl
@[simp] theorem State.raise_initialized (st : Status) : (s.raise st).initialized = s.initialized := rfl
@[simp] theorem State.raise_mode (st : Status) : (s.raise st).mode = s.mode := rfl
@[simp] theorem State.raise_pins (st : Status) : (s.raise st).pins = s.pins := rfl
@[simp] theorem State.raise_latch (st : Status) : (s.raise st).latch = s.latch := rfl
@[simp] theorem State.raise_configured (st : Status) : (s.raise st).configured = s.configured := rfl
@[simp] theorem State.raise_seq (st : Status) : (s.raise st).seq = .idle := rfl
@[simp] theorem State.raise_receiver (st : Status) : (s.raise st).receiver = s.receiver := rfl
@[simp] theorem State.raise_trace (st : Status) : (s.raise st).trace = s.trace := rfl
@[simp] theorem State.raise_statuses (st : Status) : (s.raise st).statuses = s.statuses ++ [st] := rfl
@[simp] theorem State.raise_now (st : Status) : (s.raise st).now = s.now := rfl
@[simp] theorem State.raise_draws (st : Status) : (s.raise st).draws = s.draws := rfl
@[simp] theorem State.raise_requests (st : Status) : (s.raise st).requests = s.requests := rfl
@[simp] theorem State.raise_cfgAnswers (st : Status) : (s.raise st).cfgAnswers = s.cfgAnswers := rfl

/-! ### toIdle -/

@[simp] theorem State.toIdle_cfg : (s.toIdle).cfg = s.cfg := rfl
@[simp] theorem State.toIdle_initialized : (s.toIdle).initialized = s.initialized := rfl
@[simp] theorem State.toIdle_mode : (s.toIdle).mode = s.mode := rfl
@[simp] theorem State.toIdle_pins : (s.toIdle).pins = s.pins := rfl
@[simp] theorem State.toIdle_latch : (s.toIdle).latch = s.latch := rfl
@[simp] theorem State.toIdle_configured : (s.toIdle).configured = s.configured := rfl
@[simp] theorem State.toIdle_seq : (s.toIdle).seq = .idle := rfl
@[simp] theorem State.toIdle_receiver : (s.toIdle).receiver = s.receiver := rfl
@[simp] theorem State.toIdle_trace : (s.toIdle).trace = s.trace := rfl
@[simp] theorem State.toIdle_statuses : (s.toIdle).statuses = s.statuses := rfl
@[simp] theorem State.toIdle_now : (s.toIdle).now = s.now := rfl
@[simp] theorem State.toIdle_draws : (s.toIdle).draws = s.draws := rfl
@[simp] theorem State.toIdle_requests : (s.toIdle).requests = s.requests := rfl
@[simp] theorem State.toIdle_cfgAnswers : (s.toIdle).cfgAnswers = s.cfgAnswers := rfl

/-! ### commit -/

@[simp] theorem State.commit_cfg (bus : Bus) : (s.commit bus).cfg = s.cfg := rfl
@[simp] theorem State.commit_initialized (bus : Bus) : (s.commit bus).initialized = true := rfl
@[simp] theorem State.commit_mode (bus : Bus) : (s.commit bus).mode = some bus.mode := rfl
@[simp] theorem State.commit_pins (bus : Bus) : (s.commit bus).pins = some bus.pins := rfl
@[simp] theorem State.commit_latch (bus : Bus) : (s.commit bus).latch = s.latch := rfl
@[simp] theorem State.commit_configured (bus : Bus) : (s.commit bus).configured = s.configured := rfl
@[simp] theorem State.commit_seq (bus : Bus) : (s.commit bus).seq = s.seq := rfl
@[simp] theorem State.commit_receiver (bus : Bus) : (s.commit bus).receiver = s.receiver := rfl
@[simp] theorem State.commit_trace (bus : Bus) : (s.commit bus).trace = s.trace := rfl
@[simp] theorem State.commit_statuses (bus : Bus) : (s.commit bus).statuses = s.statuses := rfl
@[simp] theorem State.commit_now (bus : Bus) : (s.commit bus).now = s.now := rfl
@[simp] theorem State.commit_draws (bus : Bus) : (s.commit bus).draws = s.draws := rfl
@[simp] theorem State.commit_requests (bus : Bus) : (s.commit bus).requests = s.requests := rfl
@[simp] theorem State.commit_cfgAnswers (bus : Bus) : (s.commit bus).cfgAnswers = s.cfgAnswers := rfl

/-! ### configureOk -/

@[simp] theorem State.configureOk_cfg (p : PinId) : (s.configureOk p).cfg = s.cfg := rfl
@[simp] theorem State.configureOk_initialized (p : PinId) : (s.configureOk p).initialized = s.initialized := rfl
@[simp] theorem State.configureOk_mode (p : PinId) : (s.configureOk p).mode = s.mode := rfl
@[simp] theorem State.configureOk_pins (p : PinId) : (s.configureOk p).pins = s.pins := rfl
@[simp] theorem State.configureOk_latch (p : PinId) : (s.configureOk p).latch = s.latch := rfl
@[simp] theorem State.configureOk_configured (p : PinId) : (s.configureOk p).configured = PinSet.insert s.configured p := rfl
@[simp] theorem State.configureOk_seq (p : PinId) : (s.configureOk p).seq = s.seq := rfl
@[simp] theorem State.configureOk_receiver (p : PinId) : (s.configureOk p).receiver = s.receiver := rfl
@[simp] theorem State.configureOk_trace (p : PinId) : (s.configureOk p).trace = s.trace ++ [.configure p .ok] := rfl
@[simp] theorem State.configureOk_statuses (p : PinId) : (s.configureOk p).statuses = s.statuses := rfl
@[simp] theorem State.configureOk_now (p : PinId) : (s.configureOk p).now = s.now + Config.callTime s.draws := rfl
@[simp] theorem State.configureOk_draws (p : PinId) : (s.configureOk p).draws = s.draws + 1 := rfl
@[simp] theorem State.configureOk_requests (p : PinId) : (s.configureOk p).requests = s.requests := rfl
@[simp] theorem State.configureOk_cfgAnswers (p : PinId) : (s.configureOk p).cfgAnswers = s.cfgAnswers.tail := rfl

/-! ### configureFail -/

@[simp] theorem State.configureFail_cfg (p : PinId) : (s.configureFail p).cfg = s.cfg := rfl
@[simp] theorem State.configureFail_initialized (p : PinId) : (s.configureFail p).initialized = s.initialized := rfl
@[simp] theorem State.configureFail_mode (p : PinId) : (s.configureFail p).mode = s.mode := rfl
@[simp] theorem State.configureFail_pins (p : PinId) : (s.configureFail p).pins = s.pins := rfl
@[simp] theorem State.configureFail_latch (p : PinId) : (s.configureFail p).latch = s.latch := rfl
@[simp] theorem State.configureFail_configured (p : PinId) : (s.configureFail p).configured = s.configured := rfl
@[simp] theorem State.configureFail_seq (p : PinId) : (s.configureFail p).seq = s.seq := rfl
@[simp] theorem State.configureFail_receiver (p : PinId) : (s.configureFail p).receiver = s.receiver := rfl
@[simp] theorem State.configureFail_trace (p : PinId) : (s.configureFail p).trace = s.trace ++ [.configure p .fail] := rfl
@[simp] theorem State.configureFail_statuses (p : PinId) : (s.configureFail p).statuses = s.statuses := rfl
@[simp] theorem State.configureFail_now (p : PinId) : (s.configureFail p).now = s.now + Config.callTime s.draws := rfl
@[simp] theorem State.configureFail_draws (p : PinId) : (s.configureFail p).draws = s.draws + 1 := rfl
@[simp] theorem State.configureFail_requests (p : PinId) : (s.configureFail p).requests = s.requests := rfl
@[simp] theorem State.configureFail_cfgAnswers (p : PinId) : (s.configureFail p).cfgAnswers = s.cfgAnswers.tail := rfl

/-! ### waitFor -/

@[simp] theorem State.waitFor_cfg (n : Nat) : (s.waitFor n).cfg = s.cfg := rfl
@[simp] theorem State.waitFor_initialized (n : Nat) : (s.waitFor n).initialized = s.initialized := rfl
@[simp] theorem State.waitFor_mode (n : Nat) : (s.waitFor n).mode = s.mode := rfl
@[simp] theorem State.waitFor_pins (n : Nat) : (s.waitFor n).pins = s.pins := rfl
@[simp] theorem State.waitFor_latch (n : Nat) : (s.waitFor n).latch = s.latch := rfl
@[simp] theorem State.waitFor_configured (n : Nat) : (s.waitFor n).configured = s.configured := rfl
@[simp] theorem State.waitFor_seq (n : Nat) : (s.waitFor n).seq = s.seq := rfl
@[simp] theorem State.waitFor_receiver (n : Nat) : (s.waitFor n).receiver = s.receiver := rfl
@[simp] theorem State.waitFor_trace (n : Nat) : (s.waitFor n).trace = s.trace ++ [.wait n] := rfl
@[simp] theorem State.waitFor_statuses (n : Nat) : (s.waitFor n).statuses = s.statuses := rfl
@[simp] theorem State.waitFor_now (n : Nat) : (s.waitFor n).now = s.now + n + Config.waitOverrun s.draws := rfl
@[simp] theorem State.waitFor_draws (n : Nat) : (s.waitFor n).draws = s.draws + 1 := rfl
@[simp] theorem State.waitFor_requests (n : Nat) : (s.waitFor n).requests = s.requests := rfl
@[simp] theorem State.waitFor_cfgAnswers (n : Nat) : (s.waitFor n).cfgAnswers = s.cfgAnswers := rfl

/-! ### drive -/

@[simp] theorem State.drive_cfg (p : PinId) (v : Level) : (s.drive p v).cfg = s.cfg := rfl
@[simp] theorem State.drive_initialized (p : PinId) (v : Level) : (s.drive p v).initialized = s.initialized := rfl
@[simp] theorem State.drive_mode (p : PinId) (v : Level) : (s.drive p v).mode = s.mode := rfl
@[simp] theorem State.drive_pins (p : PinId) (v : Level) : (s.drive p v).pins = s.pins := rfl
@[simp] theorem State.drive_latch (p : PinId) (v : Level) : (s.drive p v).latch = Sparse.write s.latch p v := rfl
@[simp] theorem State.drive_configured (p : PinId) (v : Level) : (s.drive p v).configured = s.configured := rfl
@[simp] theorem State.drive_seq (p : PinId) (v : Level) : (s.drive p v).seq = s.seq := rfl
@[simp] theorem State.drive_receiver (p : PinId) (v : Level) : (s.drive p v).receiver = s.receiver := rfl
@[simp] theorem State.drive_trace (p : PinId) (v : Level) : (s.drive p v).trace = s.trace ++ [.set p v] := rfl
@[simp] theorem State.drive_statuses (p : PinId) (v : Level) : (s.drive p v).statuses = s.statuses := rfl
@[simp] theorem State.drive_now (p : PinId) (v : Level) : (s.drive p v).now = s.now + Config.callTime s.draws := rfl
@[simp] theorem State.drive_draws (p : PinId) (v : Level) : (s.drive p v).draws = s.draws + 1 := rfl
@[simp] theorem State.drive_requests (p : PinId) (v : Level) : (s.drive p v).requests = s.requests := rfl
@[simp] theorem State.drive_cfgAnswers (p : PinId) (v : Level) : (s.drive p v).cfgAnswers = s.cfgAnswers := rfl

/-! ### receive -/

@[simp] theorem State.receive_cfg (bus : Bus) : (s.receive bus).cfg = s.cfg := rfl
@[simp] theorem State.receive_initialized (bus : Bus) : (s.receive bus).initialized = s.initialized := rfl
@[simp] theorem State.receive_mode (bus : Bus) : (s.receive bus).mode = s.mode := rfl
@[simp] theorem State.receive_pins (bus : Bus) : (s.receive bus).pins = s.pins := rfl
@[simp] theorem State.receive_latch (bus : Bus) : (s.receive bus).latch = s.latch := rfl
@[simp] theorem State.receive_configured (bus : Bus) : (s.receive bus).configured = s.configured := rfl
@[simp] theorem State.receive_seq (bus : Bus) : (s.receive bus).seq = s.seq := rfl
@[simp] theorem State.receive_receiver (bus : Bus) : (s.receive bus).receiver = recv s.draws s.now (s.latchedTransfer bus) s.receiver := rfl
@[simp] theorem State.receive_trace (bus : Bus) : (s.receive bus).trace = s.trace := rfl
@[simp] theorem State.receive_statuses (bus : Bus) : (s.receive bus).statuses = s.statuses := rfl
@[simp] theorem State.receive_now (bus : Bus) : (s.receive bus).now = s.now := rfl
@[simp] theorem State.receive_draws (bus : Bus) : (s.receive bus).draws = s.draws + 1 := rfl
@[simp] theorem State.receive_requests (bus : Bus) : (s.receive bus).requests = s.requests := rfl
@[simp] theorem State.receive_cfgAnswers (bus : Bus) : (s.receive bus).cfgAnswers = s.cfgAnswers := rfl

/-! ### busyWith -/

@[simp] theorem State.busyWith_cfg (i : Instr) (bus : Bus) (rest : List Action) : (s.busyWith i bus rest).cfg = s.cfg := rfl
@[simp] theorem State.busyWith_initialized (i : Instr) (bus : Bus) (rest : List Action) : (s.busyWith i bus rest).initialized = s.initialized := rfl
@[simp] theorem State.busyWith_mode (i : Instr) (bus : Bus) (rest : List Action) : (s.busyWith i bus rest).mode = s.mode := rfl
@[simp] theorem State.busyWith_pins (i : Instr) (bus : Bus) (rest : List Action) : (s.busyWith i bus rest).pins = s.pins := rfl
@[simp] theorem State.busyWith_latch (i : Instr) (bus : Bus) (rest : List Action) : (s.busyWith i bus rest).latch = s.latch := rfl
@[simp] theorem State.busyWith_configured (i : Instr) (bus : Bus) (rest : List Action) : (s.busyWith i bus rest).configured = s.configured := rfl
@[simp] theorem State.busyWith_seq (i : Instr) (bus : Bus) (rest : List Action) : (s.busyWith i bus rest).seq = .busy i bus rest := rfl
@[simp] theorem State.busyWith_receiver (i : Instr) (bus : Bus) (rest : List Action) : (s.busyWith i bus rest).receiver = s.receiver := rfl
@[simp] theorem State.busyWith_trace (i : Instr) (bus : Bus) (rest : List Action) : (s.busyWith i bus rest).trace = s.trace := rfl
@[simp] theorem State.busyWith_statuses (i : Instr) (bus : Bus) (rest : List Action) : (s.busyWith i bus rest).statuses = s.statuses := rfl
@[simp] theorem State.busyWith_now (i : Instr) (bus : Bus) (rest : List Action) : (s.busyWith i bus rest).now = s.now := rfl
@[simp] theorem State.busyWith_draws (i : Instr) (bus : Bus) (rest : List Action) : (s.busyWith i bus rest).draws = s.draws := rfl
@[simp] theorem State.busyWith_requests (i : Instr) (bus : Bus) (rest : List Action) : (s.busyWith i bus rest).requests = s.requests := rfl
@[simp] theorem State.busyWith_cfgAnswers (i : Instr) (bus : Bus) (rest : List Action) : (s.busyWith i bus rest).cfgAnswers = s.cfgAnswers := rfl

/-! ### idleWait -/

@[simp] theorem State.idleWait_cfg : (s.idleWait).cfg = s.cfg := rfl
@[simp] theorem State.idleWait_initialized : (s.idleWait).initialized = s.initialized := rfl
@[simp] theorem State.idleWait_mode : (s.idleWait).mode = s.mode := rfl
@[simp] theorem State.idleWait_pins : (s.idleWait).pins = s.pins := rfl
@[simp] theorem State.idleWait_latch : (s.idleWait).latch = s.latch := rfl
@[simp] theorem State.idleWait_configured : (s.idleWait).configured = s.configured := rfl
@[simp] theorem State.idleWait_seq : (s.idleWait).seq = s.seq := rfl
@[simp] theorem State.idleWait_receiver : (s.idleWait).receiver = s.receiver := rfl
@[simp] theorem State.idleWait_trace : (s.idleWait).trace = s.trace := rfl
@[simp] theorem State.idleWait_statuses : (s.idleWait).statuses = s.statuses := rfl
@[simp] theorem State.idleWait_now : (s.idleWait).now = s.now + Config.idleTime s.draws := rfl
@[simp] theorem State.idleWait_draws : (s.idleWait).draws = s.draws + 1 := rfl
@[simp] theorem State.idleWait_requests : (s.idleWait).requests = s.requests := rfl
@[simp] theorem State.idleWait_cfgAnswers : (s.idleWait).cfgAnswers = s.cfgAnswers := rfl

/-! ### takeRequest -/

@[simp] theorem State.takeRequest_cfg (cs : List CodeWord) : (s.takeRequest cs).cfg = s.cfg := rfl
@[simp] theorem State.takeRequest_initialized (cs : List CodeWord) : (s.takeRequest cs).initialized = s.initialized := rfl
@[simp] theorem State.takeRequest_mode (cs : List CodeWord) : (s.takeRequest cs).mode = s.mode := rfl
@[simp] theorem State.takeRequest_pins (cs : List CodeWord) : (s.takeRequest cs).pins = s.pins := rfl
@[simp] theorem State.takeRequest_latch (cs : List CodeWord) : (s.takeRequest cs).latch = s.latch := rfl
@[simp] theorem State.takeRequest_configured (cs : List CodeWord) : (s.takeRequest cs).configured = s.configured := rfl
@[simp] theorem State.takeRequest_seq (cs : List CodeWord) : (s.takeRequest cs).seq = s.seq := rfl
@[simp] theorem State.takeRequest_receiver (cs : List CodeWord) : (s.takeRequest cs).receiver = s.receiver := rfl
@[simp] theorem State.takeRequest_trace (cs : List CodeWord) : (s.takeRequest cs).trace = s.trace := rfl
@[simp] theorem State.takeRequest_statuses (cs : List CodeWord) : (s.takeRequest cs).statuses = s.statuses := rfl
@[simp] theorem State.takeRequest_now (cs : List CodeWord) : (s.takeRequest cs).now = s.now := rfl
@[simp] theorem State.takeRequest_draws (cs : List CodeWord) : (s.takeRequest cs).draws = s.draws := rfl
@[simp] theorem State.takeRequest_requests (cs : List CodeWord) : (s.takeRequest cs).requests = cs := rfl
@[simp] theorem State.takeRequest_cfgAnswers (cs : List CodeWord) : (s.takeRequest cs).cfgAnswers = s.cfgAnswers := rfl

/-! ### setPin -/

@[simp] theorem State.setPin_cfg (bus : Bus) (p : PinId) (v : Level) : (s.setPin bus p v).cfg = s.cfg := by
  unfold State.setPin; split <;> rfl
@[simp] theorem State.setPin_initialized (bus : Bus) (p : PinId) (v : Level) : (s.setPin bus p v).initialized = s.initialized := by
  unfold State.setPin; split <;> rfl
@[simp] theorem State.setPin_mode (bus : Bus) (p : PinId) (v : Level) : (s.setPin bus p v).mode = s.mode := by
  unfold State.setPin; split <;> rfl
@[simp] theorem State.setPin_pins (bus : Bus) (p : PinId) (v : Level) : (s.setPin bus p v).pins = s.pins := by
  unfold State.setPin; split <;> rfl
@[simp] theorem State.setPin_latch (bus : Bus) (p : PinId) (v : Level) : (s.setPin bus p v).latch = Sparse.write s.latch p v := by
  unfold State.setPin; split <;> rfl
@[simp] theorem State.setPin_configured (bus : Bus) (p : PinId) (v : Level) : (s.setPin bus p v).configured = s.configured := by
  unfold State.setPin; split <;> rfl
@[simp] theorem State.setPin_seq (bus : Bus) (p : PinId) (v : Level) : (s.setPin bus p v).seq = s.seq := by
  unfold State.setPin; split <;> rfl
@[simp] theorem State.setPin_trace (bus : Bus) (p : PinId) (v : Level) : (s.setPin bus p v).trace = s.trace ++ [.set p v] := by
  unfold State.setPin; split <;> rfl
@[simp] theorem State.setPin_statuses (bus : Bus) (p : PinId) (v : Level) : (s.setPin bus p v).statuses = s.statuses := by
  unfold State.setPin; split <;> rfl
@[simp] theorem State.setPin_now (bus : Bus) (p : PinId) (v : Level) : (s.setPin bus p v).now = s.now + Config.callTime s.draws := by
  unfold State.setPin; split <;> rfl
@[simp] theorem State.setPin_requests (bus : Bus) (p : PinId) (v : Level) : (s.setPin bus p v).requests = s.requests := by
  unfold State.setPin; split <;> rfl
@[simp] theorem State.setPin_cfgAnswers (bus : Bus) (p : PinId) (v : Level) : (s.setPin bus p v).cfgAnswers = s.cfgAnswers := by
  unfold State.setPin; split <;> rfl

/-- Only a fall of E reaches the receiver (41_bus_transport.md rule R97). -/
theorem State.setPin_receiver (bus : Bus) (p : PinId) (v : Level) (h : ¬(p = bus.pins.e ∧ v = false)) :
    (s.setPin bus p v).receiver = s.receiver := by
  simp [State.setPin, h]

/-- A fall of E gives the receiver the latched transfer. -/
theorem State.setPin_fall (bus : Bus) : s.setPin bus bus.pins.e false = (s.drive bus.pins.e false).receive bus := by
  simp [State.setPin]

/-! ### withFetchWord -/

/-- Loading an instruction moves the sequencer and adds to the host's requests; it does nothing else. -/
theorem State.load_eq (c : CodeWord) : ∃ q l, s.load c = { s with seq := q, requests := l } := by
  unfold State.load
  split
  · split <;> exact ⟨_, _, rfl⟩
  · exact ⟨_, _, rfl⟩

@[simp] theorem State.withFetchWord_cfg (n w : Nat) : (s.withFetchWord n w).cfg = s.cfg := by
  obtain ⟨q, l, h⟩ := s.load_eq (codeWordOfTable n w); rw [State.withFetchWord, h]
@[simp] theorem State.withFetchWord_initialized (n w : Nat) : (s.withFetchWord n w).initialized = s.initialized := by
  obtain ⟨q, l, h⟩ := s.load_eq (codeWordOfTable n w); rw [State.withFetchWord, h]
@[simp] theorem State.withFetchWord_mode (n w : Nat) : (s.withFetchWord n w).mode = s.mode := by
  obtain ⟨q, l, h⟩ := s.load_eq (codeWordOfTable n w); rw [State.withFetchWord, h]
@[simp] theorem State.withFetchWord_pins (n w : Nat) : (s.withFetchWord n w).pins = s.pins := by
  obtain ⟨q, l, h⟩ := s.load_eq (codeWordOfTable n w); rw [State.withFetchWord, h]
@[simp] theorem State.withFetchWord_latch (n w : Nat) : (s.withFetchWord n w).latch = s.latch := by
  obtain ⟨q, l, h⟩ := s.load_eq (codeWordOfTable n w); rw [State.withFetchWord, h]
@[simp] theorem State.withFetchWord_configured (n w : Nat) : (s.withFetchWord n w).configured = s.configured := by
  obtain ⟨q, l, h⟩ := s.load_eq (codeWordOfTable n w); rw [State.withFetchWord, h]
@[simp] theorem State.withFetchWord_receiver (n w : Nat) : (s.withFetchWord n w).receiver = s.receiver := by
  obtain ⟨q, l, h⟩ := s.load_eq (codeWordOfTable n w); rw [State.withFetchWord, h]
@[simp] theorem State.withFetchWord_trace (n w : Nat) : (s.withFetchWord n w).trace = s.trace := by
  obtain ⟨q, l, h⟩ := s.load_eq (codeWordOfTable n w); rw [State.withFetchWord, h]
@[simp] theorem State.withFetchWord_statuses (n w : Nat) : (s.withFetchWord n w).statuses = s.statuses := by
  obtain ⟨q, l, h⟩ := s.load_eq (codeWordOfTable n w); rw [State.withFetchWord, h]
@[simp] theorem State.withFetchWord_now (n w : Nat) : (s.withFetchWord n w).now = s.now := by
  obtain ⟨q, l, h⟩ := s.load_eq (codeWordOfTable n w); rw [State.withFetchWord, h]
@[simp] theorem State.withFetchWord_draws (n w : Nat) : (s.withFetchWord n w).draws = s.draws := by
  obtain ⟨q, l, h⟩ := s.load_eq (codeWordOfTable n w); rw [State.withFetchWord, h]
@[simp] theorem State.withFetchWord_cfgAnswers (n w : Nat) : (s.withFetchWord n w).cfgAnswers = s.cfgAnswers := by
  obtain ⟨q, l, h⟩ := s.load_eq (codeWordOfTable n w); rw [State.withFetchWord, h]

/-! ### The bus, and operations that commute with the sequencer's position -/

/-- The bus depends on `mode` and `pins` alone. -/
theorem State.bus_congr {s t : State} (hm : t.mode = s.mode) (hp : t.pins = s.pins) : t.bus = s.bus := by
  simp [State.bus, hm, hp]

theorem State.bus_eq_some {s : State} {bus : Bus} : s.bus = some bus ↔ s.mode = some bus.mode ∧ s.pins = some bus.pins := by
  unfold State.bus
  constructor
  · intro h
    split at h
    · obtain rfl := Option.some.inj h; exact ⟨by assumption, by assumption⟩
    · cases h
  · rintro ⟨hm, hp⟩; simp [hm, hp]

theorem State.commit_bus (bus : Bus) : (s.commit bus).bus = some bus := by simp [State.bus_eq_some]

@[simp] theorem State.busyWith_busyWith (i i' : Instr) (b b' : Bus) (r r' : List Action) :
    (s.busyWith i b r).busyWith i' b' r' = s.busyWith i' b' r' := rfl

@[simp] theorem State.busyWith_nextAnswer (i : Instr) (b : Bus) (r : List Action) :
    (s.busyWith i b r).nextAnswer = s.nextAnswer := rfl

/-- Performing an event does not look at the sequencer. -/
theorem State.perform_busyWith (bus : Bus) (a : Action) (i : Instr) (b : Bus) (r : List Action) :
    (s.busyWith i b r).perform bus a = (s.perform bus a).busyWith i b r := by
  cases a with
  | configure p => rfl
  | wait n => rfl
  | set p v => simp only [State.perform, State.setPin]; split <;> rfl

theorem State.performAll_busyWith (bus : Bus) (as : List Action) (i : Instr) (b : Bus) (r : List Action) (s : State) :
    State.performAll bus as (s.busyWith i b r) = (State.performAll bus as s).busyWith i b r := by
  induction as generalizing s with
  | nil => rfl
  | cons a rest ih => simp only [State.performAll, State.perform_busyWith, ih]

theorem State.performAll_append (bus : Bus) (as bs : List Action) (s : State) :
    State.performAll bus (as ++ bs) s = State.performAll bus bs (State.performAll bus as s) := by
  induction as generalizing s with
  | nil => rfl
  | cons a rest ih => simp only [List.cons_append, State.performAll, ih]

@[simp] theorem State.performAll_nil (bus : Bus) : State.performAll bus [] s = s := rfl

@[simp] theorem State.performAll_cons (bus : Bus) (a : Action) (rest : List Action) :
    State.performAll bus (a :: rest) s = State.performAll bus rest (s.perform bus a) := rfl

end Sys2Proof.Machine
end

