-- ==== Sys2Proof/Laws/Ops.lean ====
section
/-!
SUPPORT. What the shared operations do: sparse lists and pin sets (read after write, canonical form kept), the validator's
checks, the entry checks, and everything a step can do.
-/

namespace Sys2Proof.Machine

/-! ### Sparse lists -/

theorem Sparse.read_write {α : Type} (m : List (Nat × α)) (q : Nat) (v : α) (a : Nat) :
    Sparse.read (Sparse.write m q v) a = if a = q then some v else Sparse.read m a := by
  induction m with
  | nil => simp [Sparse.write, Sparse.read]
  | cons kv rest ih =>
    obtain ⟨k, u⟩ := kv
    simp only [Sparse.write]
    split
    · simp [Sparse.read]
    · split
      · subst_vars
        simp only [Sparse.read]
        split <;> simp_all
      · simp only [Sparse.read, ih]
        split <;> split <;> simp_all

@[simp] theorem Sparse.read_write_self {α : Type} (m : List (Nat × α)) (q : Nat) (v : α) :
    Sparse.read (Sparse.write m q v) q = some v := by simp [Sparse.read_write]

theorem Sparse.read_write_ne {α : Type} (m : List (Nat × α)) {q a : Nat} (v : α) (h : a ≠ q) :
    Sparse.read (Sparse.write m q v) a = Sparse.read m a := by simp [Sparse.read_write, h]

/-- The canonical form says that the keys rise strictly. -/
theorem Sparse.wf_iff {α : Type} (m : List (Nat × α)) : Sparse.wf m = true ↔ (m.map Prod.fst).Pairwise (· < ·) := by
  induction m with
  | nil => simp [Sparse.wf]
  | cons kv rest ih =>
    cases rest with
    | nil => simp [Sparse.wf]
    | cons kv' rest' =>
      simp only [Sparse.wf, Bool.and_eq_true, decide_eq_true_eq, ih]
      simp only [List.map_cons, List.pairwise_cons, List.mem_cons, forall_eq_or_imp]
      constructor
      · rintro ⟨h, h1, h2⟩
        exact ⟨⟨h, fun a ha => lt_trans h (h1 a ha)⟩, h1, h2⟩
      · rintro ⟨⟨h, -⟩, h1, h2⟩
        exact ⟨h, h1, h2⟩

theorem Sparse.mem_keys_write {α : Type} (m : List (Nat × α)) (q : Nat) (v : α) (a : Nat) :
    a ∈ (Sparse.write m q v).map Prod.fst ↔ a = q ∨ a ∈ m.map Prod.fst := by
  induction m with
  | nil => simp [Sparse.write]
  | cons kv rest ih =>
    obtain ⟨k, u⟩ := kv
    simp only [Sparse.write]
    split
    · simp
    · split
      · subst_vars; simp
      · simp only [List.map_cons, List.mem_cons, ih]; tauto

theorem Sparse.wf_write {α : Type} (m : List (Nat × α)) (q : Nat) (v : α) (h : Sparse.wf m = true) :
    Sparse.wf (Sparse.write m q v) = true := by
  rw [Sparse.wf_iff] at *
  induction m with
  | nil => simp [Sparse.write]
  | cons kv rest ih =>
    obtain ⟨k, u⟩ := kv
    simp only [List.map_cons, List.pairwise_cons] at h
    simp only [Sparse.write]
    split
    · rename_i hlt
      simp only [List.map_cons, List.pairwise_cons, List.mem_cons, forall_eq_or_imp]
      exact ⟨⟨hlt, fun a ha => lt_trans hlt (h.1 a ha)⟩, h.1, h.2⟩
    · split
      · subst_vars
        simpa using h
      · simp only [List.map_cons, List.pairwise_cons]
        refine ⟨fun a ha => ?_, ih h.2⟩
        rcases (Sparse.mem_keys_write rest q v a).1 ha with rfl | ha
        · omega
        · exact h.1 a ha

/-! ### DDRAM -/

theorem Memory.read_write (m : List Host.Cell) (a b : BitVec 7) (v : Byte) :
    Memory.read (Memory.write m a v) b = if b = a then some v else Memory.read m b := by
  simp only [Memory.read, Memory.write, Sparse.read_write, BitVec.toNat_inj]

/-- Writing an address that is listed keeps the list of addresses. -/
theorem Sparse.keys_write {α : Type} (m : List (Nat × α)) (q : Nat) (v : α) (h : Sparse.wf m = true) (hq : q ∈ m.map Prod.fst) :
    (Sparse.write m q v).map Prod.fst = m.map Prod.fst := by
  rw [Sparse.wf_iff] at h
  induction m with
  | nil => simp at hq
  | cons kv rest ih =>
    obtain ⟨k, u⟩ := kv
    simp only [List.map_cons, List.pairwise_cons, List.mem_cons] at h hq
    simp only [Sparse.write]
    split
    · rename_i hlt
      rcases hq with rfl | hq
      · exact absurd hlt (lt_irrefl _)
      · exact absurd (h.1 q hq) (by omega)
    · split
      · subst_vars; rfl
      · rename_i hne
        simp only [List.map_cons, ih h.2 (hq.resolve_left hne)]

theorem Memory.wf_iff (m : List Host.Cell) : Memory.wf m = true ↔ m.map Prod.fst = List.range ddramSize := by
  simp [Memory.wf]

/-- In canonical form the addresses rise strictly. -/
theorem Memory.sparse_wf {m : List Host.Cell} (h : Memory.wf m = true) : Sparse.wf m = true := by
  rw [Sparse.wf_iff, (Memory.wf_iff m).1 h]; exact List.pairwise_lt_range

theorem Memory.wf_write (m : List Host.Cell) (a : BitVec 7) (v : Byte) (h : Memory.wf m = true) :
    Memory.wf (Memory.write m a v) = true := by
  have hm := (Memory.wf_iff m).1 h
  rw [Memory.wf_iff, ← hm]
  exact Sparse.keys_write m _ v (Memory.sparse_wf h) (by rw [hm, List.mem_range]; exact a.isLt)

theorem Memory.wf_range (f : Nat → Byte) : Memory.wf ((List.range ddramSize).map (fun a => (a, f a))) = true := by
  rw [Memory.wf_iff, List.map_map]; exact List.map_id _

theorem Memory.wf_cleared : Memory.wf Memory.cleared = true := Memory.wf_range _

theorem Memory.wf_draw (k : Nat) : Memory.wf (Receiver.draw k).ddram = true := Memory.wf_range _

/-- A memory that lists every address reads at each what it lists there. -/
theorem Sparse.read_range {α : Type} (f : Nat → α) (n b a : Nat) (h : b ≤ a) (h' : a < b + n) :
    Sparse.read ((List.range' b n).map (fun a => (a, f a))) a = some (f a) := by
  induction n generalizing b with
  | zero => omega
  | succ n ih =>
    simp only [List.range'_succ, List.map_cons, Sparse.read]
    split
    · subst_vars; rfl
    · exact ih (b + 1) (by omega) (by omega)

theorem Memory.read_range (f : Nat → Byte) (a : BitVec 7) :
    Memory.read ((List.range ddramSize).map (fun a => (a, f a))) a = some (f a.toNat) := by
  rw [Memory.read, List.range_eq_range']; exact Sparse.read_range f _ 0 _ (Nat.zero_le _) (by simpa [ddramSize] using a.isLt)

/-- Every byte of a draw is free (rules R32 and R121). -/
theorem Memory.read_draw (k : Nat) (a : BitVec 7) :
    Memory.read (Receiver.draw k).ddram a = some (Config.drawDdram k a.toNat) := Memory.read_range _ a

/-- After clear-display every address reads 0x20 (rule R117). -/
theorem Memory.read_cleared (a : BitVec 7) : Memory.read Memory.cleared a = some 0x20#8 :=
  Memory.read_range _ a

/-! ### Pin sets -/

theorem PinSet.mem_insert (l : List PinId) (q p : PinId) : p ∈ PinSet.insert l q ↔ p = q ∨ p ∈ l := by
  induction l with
  | nil => simp [PinSet.insert]
  | cons k rest ih =>
    simp only [PinSet.insert]
    split
    · simp
    · split
      · subst_vars; simp
      · simp only [List.mem_cons, ih]; tauto

theorem PinSet.wf_iff (l : List PinId) : PinSet.wf l = true ↔ l.Pairwise (· < ·) := by
  induction l with
  | nil => simp [PinSet.wf]
  | cons p rest ih =>
    cases rest with
    | nil => simp [PinSet.wf]
    | cons q rest' =>
      simp only [PinSet.wf, Bool.and_eq_true, decide_eq_true_eq, ih]
      simp only [List.pairwise_cons, List.mem_cons, forall_eq_or_imp]
      constructor
      · rintro ⟨h, h1, h2⟩
        exact ⟨⟨h, fun a ha => lt_trans h (h1 a ha)⟩, h1, h2⟩
      · rintro ⟨⟨h, -⟩, h1, h2⟩
        exact ⟨h, h1, h2⟩

theorem PinSet.wf_insert (l : List PinId) (q : PinId) (h : PinSet.wf l = true) : PinSet.wf (PinSet.insert l q) = true := by
  rw [PinSet.wf_iff] at *
  induction l with
  | nil => simp [PinSet.insert]
  | cons k rest ih =>
    simp only [List.pairwise_cons] at h
    simp only [PinSet.insert]
    split
    · rename_i hlt
      simp only [List.pairwise_cons, List.mem_cons, forall_eq_or_imp]
      exact ⟨⟨hlt, fun a ha => lt_trans hlt (h.1 a ha)⟩, h.1, h.2⟩
    · rename_i hge
      split
      · subst_vars
        simpa using h
      · rename_i hne
        simp only [List.pairwise_cons]
        refine ⟨fun a ha => ?_, ih h.2⟩
        rcases (PinSet.mem_insert rest q a).1 ha with rfl | ha
        · exact lt_of_le_of_ne (not_lt.1 hge) (Ne.symm hne)
        · exact h.1 a ha

/-! ### The validator -/

theorem distinct_cons (p : PinId) (l : List PinId) : distinct (p :: l) = true ↔ p ∉ l ∧ distinct l = true := by
  simp [distinct]

/-- `validate` answers a mode only if that mode's active set is distinct. -/
theorem distinct_of_validate {cfg : Config} {p : PinRecord} {m : BusWidthMode} (h : validate cfg p = some m) :
    distinct (activeSet m p) = true := by
  unfold validate at h
  split at h
  · obtain rfl := Option.some.inj h; simp_all [activeSet]
  · split at h
    · obtain rfl := Option.some.inj h; simp_all [activeSet]
    · cases h

/-! ### The entry checks -/

theorem entryError_good (cfg : Config) : entryError cfg false false = none := rfl

/-- What the entry checks raise is InvalidState or InvalidArgument. -/
theorem entryError_cases {cfg : Config} {a b : Bool} {k : Status} (h : entryError cfg a b = some k) :
    k = .invalidState ∨ k = .invalidArgument := by
  unfold entryError at h
  cases a <;> cases b <;> cases hp : cfg.errPrecedence <;> simp_all

/-! ### Everything an accepted instruction can do -/

/-- A command request (rule R150): an error status, or its events with the driver state's bus. -/
theorem commandRequest_cases {i : Instr} {ok : Bool} {ev : Bus → List Action} {s t : State}
    (h : commandRequest i ok ev s = .next t) :
    s.seq = .idle ∧
    ((∃ k, entryError s.cfg (!s.initialized) (!ok) = some k ∧ t = s.raise k) ∨
     (∃ bus, s.initialized = true ∧ ok = true ∧ s.bus = some bus ∧ t = s.busyWith i bus (ev bus))) := by
  unfold commandRequest at h
  split at h
  · cases h
  · rename_i hs
    refine ⟨hs, ?_⟩
    split at h
    · rename_i k hk; cases h; exact .inl ⟨k, hk, rfl⟩
    · rename_i hk
      split at h
      · rename_i bus hb
        cases h
        refine .inr ⟨bus, ?_, ?_, hb, rfl⟩
        · revert hk; cases s.initialized <;> cases ok <;> cases hp : s.cfg.errPrecedence <;> simp [entryError, hp]
        · revert hk; cases s.initialized <;> cases ok <;> cases hp : s.cfg.errPrecedence <;> simp [entryError, hp]
      · cases h

/-- A bus word: the step of the request in progress that begins its transmission. -/
theorem busWord_cases {w : Instr} {ev : Bus → List Action} {s t : State} (h : busWord w ev s = .next t) :
    ∃ i bus rest, s.seq = .busy i bus rest ∧ emits i bus.mode w = true ∧ ev bus <+: rest ∧ t = s.advance i bus rest := by
  unfold busWord at h
  split at h
  · rename_i i bus rest hs
    split at h
    · rename_i hd
      rw [Bool.and_eq_true, List.isPrefixOf_iff_prefix] at hd
      cases h; exact ⟨i, bus, rest, hs, hd.1, hd.2, rfl⟩
    · cases h
  · cases h

/-- INIT (rules R130 and R131): an error status, or its events with the validated candidate. -/
theorem execInit_cases {pins : Option PinRecord} {s t : State} (h : execInit pins s = .next t) :
    s.seq = .idle ∧
    ((∃ k, (k = .invalidState ∨ k = .invalidArgument) ∧ t = s.raise k) ∨
     (∃ bus, s.initialized = false ∧ pins = some bus.pins ∧ validate s.cfg bus.pins = some bus.mode ∧
       t = s.busyWith (.init pins) bus (initEvents bus))) := by
  unfold execInit at h
  split at h
  · cases h
  · rename_i hs
    refine ⟨hs, ?_⟩
    split at h
    · rename_i hk; cases h; exact .inl ⟨_, entryError_cases hk, rfl⟩
    · rename_i bus hk hb
      cases h
      refine .inr ⟨bus, ?_, ?_, ?_, rfl⟩
      · revert hk; cases s.initialized <;> simp [entryError, hb]
      · unfold initCandidate at hb
        split at hb
        · cases hb
        · split at hb
          · obtain rfl := Option.some.inj hb; rfl
          · cases hb
      · unfold initCandidate at hb
        split at hb
        · cases hb
        · split at hb
          · obtain rfl := Option.some.inj hb; assumption
          · cases hb
    · cases h; exact .inl ⟨_, .inr rfl, rfl⟩

/-- A request is accepted, or ended at entry, in `Idle` only (10_state.md rule R27). -/
theorem idle_of_request {i : Instr} {s t : State} (hr : isRequest i = true) (h : exec i s = .next t) : s.seq = .idle := by
  cases i with
  | init pins => exact (execInit_cases h).1
  | clear => exact (commandRequest_cases h).1
  | setCursor row col => exact (commandRequest_cases h).1
  | progressBar row progress => exact (commandRequest_cases h).1
  | clearRow row => exact (commandRequest_cases h).1
  | printChars text =>
    simp only [exec, execPrintChars] at h
    split at h
    · exact (commandRequest_cases h).1
    · cases h
  | printInt value =>
    simp only [exec, execPrintInt] at h
    split at h
    · exact (commandRequest_cases h).1
    · cases h
  | printFloat value precision =>
    simp only [exec, execPrintFloat] at h
    split at h
    · exact (commandRequest_cases h).1
    · cases h
  | _ => cases hr

/-- Everything `exec` can answer as a next state in `Idle`: an error status returned at entry, or the request's whole event
list in the sequencer, with nothing else changed. -/
theorem exec_cases {i : Instr} {s t : State} (hs : s.seq = .idle) (h : exec i s = .next t) :
    (∃ k, isRequest i = true ∧ (k = .invalidState ∨ k = .invalidArgument) ∧ t = s.raise k) ∨
    (∃ bus, t = s.busyWith i bus (eventsOf s.cfg i bus) ∧
      ((Instr.role i = .initializer ∧ s.initialized = false ∧ i = .init (some bus.pins) ∧
         validate s.cfg bus.pins = some bus.mode) ∨
       (Instr.role i = .command ∧ s.initialized = true ∧ argOk s.cfg i = true ∧ s.bus = some bus))) := by
  have word : ∀ {i : Instr} {ev : Bus → List Action}, busWord i ev s = .next t → False := by
    intro i ev h
    obtain ⟨j, bus, rest, hb, -⟩ := busWord_cases h
    rw [hs] at hb; cases hb
  have cmd : ∀ {i : Instr} {ok : Bool} {ev : Bus → List Action}, commandRequest i ok ev s = .next t → Instr.role i = .command →
      ok = argOk s.cfg i → (∀ b, ev b = eventsOf s.cfg i b) →
      (∃ k, isRequest i = true ∧ (k = .invalidState ∨ k = .invalidArgument) ∧ t = s.raise k) ∨
      (∃ bus, t = s.busyWith i bus (eventsOf s.cfg i bus) ∧
        ((Instr.role i = .initializer ∧ s.initialized = false ∧ i = .init (some bus.pins) ∧
           validate s.cfg bus.pins = some bus.mode) ∨
         (Instr.role i = .command ∧ s.initialized = true ∧ argOk s.cfg i = true ∧ s.bus = some bus))) := by
    intro i ok ev h hr hok he
    obtain ⟨-, ⟨k, hk, ht⟩ | ⟨bus, hi, ha, hb, ht⟩⟩ := commandRequest_cases h
    · exact .inl ⟨k, by simp [isRequest, hr], entryError_cases hk, ht⟩
    · exact .inr ⟨bus, by rw [ht, he], .inr ⟨hr, hi, hok ▸ ha, hb⟩⟩
  cases i with
  | init pins =>
    obtain ⟨-, ⟨k, hk, ht⟩ | ⟨bus, hi, hp, hv, ht⟩⟩ := execInit_cases h
    · exact .inl ⟨k, rfl, hk, ht⟩
    · exact .inr ⟨bus, ht, .inl ⟨rfl, hi, by rw [hp], hv⟩⟩
  | clear => exact cmd (i := .clear) h rfl rfl (fun _ => rfl)
  | setCursor row col => exact cmd (i := .setCursor row col) h rfl rfl (fun _ => rfl)
  | progressBar row progress => exact cmd (i := .progressBar row progress) h rfl rfl (fun _ => rfl)
  | clearRow row => exact cmd (i := .clearRow row) h rfl rfl (fun _ => rfl)
  | printChars text =>
    simp only [exec, execPrintChars] at h
    split at h
    · exact cmd (i := .printChars text) h rfl rfl (fun _ => rfl)
    · cases h
  | printInt value =>
    simp only [exec, execPrintInt] at h
    split at h
    · exact cmd (i := .printInt value) h rfl rfl (fun _ => rfl)
    · cases h
  | printFloat value precision =>
    simp only [exec, execPrintFloat] at h
    split at h
    · exact cmd (i := .printFloat value precision) h rfl rfl (fun _ => rfl)
    · cases h
  | reserved low => cases h
  | _ => exact (word h).elim

/-- What a bus word's meaning is, whichever word: the step that begins its transmission where it is due, else a refusal. -/
theorem exec_word {w : Instr} (hw : Instr.role w = .busWord) (s : State) :
    exec w s = busWord w (eventsOf s.cfg w) s := by
  cases w <;> first | rfl | cases hw

/-- Only bus words are emitted. -/
theorem role_of_emits {i w : Instr} {m : BusWidthMode} (h : emits i m w = true) : Instr.role w = .busWord := by
  cases w <;> first | rfl | (simp [emits] at h)

/-- Where a bus word is due, its meaning is the sequencer's step. -/
theorem exec_due {w i : Instr} {bus : Bus} {rest : List Action} {s : State} (hs : s.seq = .busy i bus rest)
    (h : wordDue s.cfg i bus rest w = true) : exec w s = .next (s.advance i bus rest) := by
  have he : emits i bus.mode w = true := by simp only [wordDue, Bool.and_eq_true] at h; exact h.1
  rw [exec_word (role_of_emits he), busWord, hs]
  simp only [wordDue] at h
  simp [h]

/-! ### Everything a step can do -/

/-- The head event of a running instruction, with the next state it gives (rule R27). -/
theorem advance_cases (i : Instr) (bus : Bus) (rest : List Action) (s : State) :
    (rest = [] ∧ s.advance i bus rest = s.finish i bus) ∨
    (∃ a more, rest = a :: more ∧ ((∃ p, a = .configure p) → s.nextAnswer = .ok) ∧
      s.advance i bus rest = (s.perform bus a).busyWith i bus more) ∨
    (∃ p more, rest = .configure p :: more ∧ s.nextAnswer = .fail ∧
      s.advance i bus rest = (s.configureFail p).raise .hardwareConfigurationFailure) := by
  cases rest with
  | nil => exact .inl ⟨rfl, rfl⟩
  | cons a more =>
    cases a with
    | configure p =>
      cases hn : s.nextAnswer with
      | ok => exact .inr (.inl ⟨_, _, rfl, fun _ => rfl, by simp [State.advance, hn, State.perform]⟩)
      | fail => exact .inr (.inr ⟨p, more, rfl, rfl, by simp [State.advance, hn]⟩)
    | set p v => exact .inr (.inl ⟨_, _, rfl, (fun h => by obtain ⟨q, h⟩ := h; cases h), rfl⟩)
    | wait n => exact .inr (.inl ⟨_, _, rfl, (fun h => by obtain ⟨q, h⟩ := h; cases h), rfl⟩)

/-- What is fetched is due. -/
theorem wordDue_of_fetchWord {cfg : Config} {i : Instr} {bus : Bus} {rest : List Action} {c : CodeWord}
    (h : fetchWord cfg i bus rest = some c) : ∃ w, decode c = .ok w ∧ wordDue cfg i bus rest w = true := by
  have h := List.find?_some h
  unfold codeDue at h
  split at h
  · rename_i w hw; exact ⟨w, hw, h⟩
  · cases h

/-- A step of a busy sequencer, whether or not it begins a bus word. -/
theorem step_busy {s : State} {i : Instr} {bus : Bus} {rest : List Action} (h : s.seq = .busy i bus rest) :
    step s = .next (s.advance i bus rest) := by
  simp only [step, h]
  cases hf : fetchWord s.cfg i bus rest with
  | none => rfl
  | some c =>
    obtain ⟨w, hw, hd⟩ := wordDue_of_fetchWord hf
    simp only [hw, exec_due h hd]

/-- Everything a step can do from an idle sequencer. -/
theorem step_idle_cases {s t : State} (hs : s.seq = .idle) (h : step s = .next t) :
    (s.requests = [] ∧ t = s.idleWait) ∨
    (∃ c rest i, s.requests = c :: rest ∧ decode c = .ok i ∧ exec i (s.takeRequest rest) = .next t) := by
  simp only [step, hs, State.nextRequest] at h
  cases hr : s.requests with
  | nil => rw [hr] at h; cases h; exact .inl ⟨rfl, rfl⟩
  | cons c rest =>
    rw [hr] at h
    simp only at h
    cases hd : decode c with
    | ok i => rw [hd] at h; exact .inr ⟨c, rest, i, rfl, hd, h⟩
    | error e => rw [hd] at h; cases h

/-- What the final write and status of an instruction can be (rule R27). -/
theorem finish_cases (i : Instr) (bus : Bus) (s : State) :
    (Instr.role i = .initializer ∧ s.finish i bus = (s.commit bus).returnStatus .ok) ∨
    (Instr.role i = .command ∧ s.finish i bus = s.returnStatus .ok) ∨
    ((Instr.role i = .busWord ∨ Instr.role i = .reservedCode) ∧ s.finish i bus = s.toIdle) := by
  unfold State.finish
  cases h : Instr.role i <;> simp

end Sys2Proof.Machine
end

