-- ==== Sys2Proof/Laws/Transport.lean ====
section
/-!
SUPPORT. What a list of events leaves in each field of the state, and what the transport's primitives give the receiver
(41_bus_transport.md rules R90 to R100).
-/

namespace Sys2Proof.Machine

/-! ### A list of events, field by field -/

section Fields

variable (bus : Bus)

theorem perform_cfg (a : Action) (s : State) : (s.perform bus a).cfg = s.cfg := by cases a <;> simp [State.perform]
theorem perform_initialized (a : Action) (s : State) : (s.perform bus a).initialized = s.initialized := by
  cases a <;> simp [State.perform]
theorem perform_mode (a : Action) (s : State) : (s.perform bus a).mode = s.mode := by cases a <;> simp [State.perform]
theorem perform_pins (a : Action) (s : State) : (s.perform bus a).pins = s.pins := by cases a <;> simp [State.perform]
theorem perform_seq (a : Action) (s : State) : (s.perform bus a).seq = s.seq := by cases a <;> simp [State.perform]
theorem perform_statuses (a : Action) (s : State) : (s.perform bus a).statuses = s.statuses := by
  cases a <;> simp [State.perform]
theorem perform_requests (a : Action) (s : State) : (s.perform bus a).requests = s.requests := by
  cases a <;> simp [State.perform]
theorem perform_trace (a : Action) (s : State) : (s.perform bus a).trace = s.trace ++ [a.event .ok] := by
  cases a <;> simp [State.perform, Action.event]
theorem perform_bus (a : Action) (s : State) : (s.perform bus a).bus = s.bus :=
  State.bus_congr (perform_mode bus a s) (perform_pins bus a s)

variable (as : List Action)

theorem performAll_cfg (s : State) : (State.performAll bus as s).cfg = s.cfg := by
  induction as generalizing s with
  | nil => rfl
  | cons a rest ih => simp [State.performAll, ih, perform_cfg]
theorem performAll_initialized (s : State) : (State.performAll bus as s).initialized = s.initialized := by
  induction as generalizing s with
  | nil => rfl
  | cons a rest ih => simp [State.performAll, ih, perform_initialized]
theorem performAll_mode (s : State) : (State.performAll bus as s).mode = s.mode := by
  induction as generalizing s with
  | nil => rfl
  | cons a rest ih => simp [State.performAll, ih, perform_mode]
theorem performAll_pins (s : State) : (State.performAll bus as s).pins = s.pins := by
  induction as generalizing s with
  | nil => rfl
  | cons a rest ih => simp [State.performAll, ih, perform_pins]
theorem performAll_seq (s : State) : (State.performAll bus as s).seq = s.seq := by
  induction as generalizing s with
  | nil => rfl
  | cons a rest ih => simp [State.performAll, ih, perform_seq]
theorem performAll_statuses (s : State) : (State.performAll bus as s).statuses = s.statuses := by
  induction as generalizing s with
  | nil => rfl
  | cons a rest ih => simp [State.performAll, ih, perform_statuses]
theorem performAll_requests (s : State) : (State.performAll bus as s).requests = s.requests := by
  induction as generalizing s with
  | nil => rfl
  | cons a rest ih => simp [State.performAll, ih, perform_requests]
/-- The trace grows by exactly the events performed (rule R9). -/
theorem performAll_trace (s : State) : (State.performAll bus as s).trace = s.trace ++ traceOf as := by
  induction as generalizing s with
  | nil => simp [traceOf]
  | cons a rest ih => simp [State.performAll, ih, perform_trace, traceOf]

end Fields

/-! ### Levels on the lines -/

/-- A latch that is known shows its level. -/
theorem State.levelOf_of_latch {s : State} {p : PinId} {v : Level} (h : s.latchOf p = some v) : s.levelOf p = v := by
  simp [State.levelOf, h]

theorem State.latchOf_drive (p q : PinId) (v : Level) (s : State) :
    (s.drive p v).latchOf q = if q = p then some v else s.latchOf q := by
  simp [State.latchOf, Sparse.read_write]

theorem State.latchOf_setPin (bus : Bus) (p q : PinId) (v : Level) (s : State) :
    (s.setPin bus p v).latchOf q = if q = p then some v else s.latchOf q := by
  simp [State.latchOf, Sparse.read_write]

@[simp] theorem State.latchOf_waitFor (n : Nat) (s : State) (q : PinId) : (s.waitFor n).latchOf q = s.latchOf q := rfl

/-- The eight bits of a byte, put together from the lines D7..D0, are the byte (rule R41). -/
theorem byte_of_lines (b : Byte) :
    (BitVec.ofBool (b.getLsbD 7) ++ BitVec.ofBool (b.getLsbD 6) ++ BitVec.ofBool (b.getLsbD 5) ++ BitVec.ofBool (b.getLsbD 4)
      ++ BitVec.ofBool (b.getLsbD 3) ++ BitVec.ofBool (b.getLsbD 2) ++ BitVec.ofBool (b.getLsbD 1) ++ BitVec.ofBool (b.getLsbD 0)) = b := by
  revert b; decide +kernel

/-- The four bits of a nibble, put together from the lines D7..D4, are the nibble (rule R42). -/
theorem nibble_of_lines (n : Nibble) :
    (BitVec.ofBool (n.getLsbD 3) ++ BitVec.ofBool (n.getLsbD 2) ++ BitVec.ofBool (n.getLsbD 1) ++ BitVec.ofBool (n.getLsbD 0)) = n := by
  revert n; decide +kernel

/-! ### The enable pulse -/

/-- PULSE (rule R90): E rises and falls; at the fall, at least 1 µs after the start, the receiver takes the transfer the lines
show; at least 40 µs pass after the fall. -/
theorem pulse_effect (bus : Bus) (s : State) (x : Transfer)
    (hx : ∀ t : State, (∀ q, q ≠ bus.pins.e → t.latchOf q = s.latchOf q) → t.latchedTransfer bus = x) :
    ∃ k t, s.now + 1 ≤ t ∧ t + 40 ≤ (State.performAll bus (pulse bus.pins) s).now ∧
      (State.performAll bus (pulse bus.pins) s).receiver = recv k t x s.receiver ∧
      ∀ q, (State.performAll bus (pulse bus.pins) s).latchOf q = if q = bus.pins.e then some false else s.latchOf q := by
  have hrise : s.setPin bus bus.pins.e true = s.drive bus.pins.e true := by simp [State.setPin]
  set w := (s.drive bus.pins.e true).waitFor tEHigh with hw
  have hrun : State.performAll bus (pulse bus.pins) s = ((w.drive bus.pins.e false).receive bus).waitFor tEPost := by
    simp only [pulse, State.performAll_cons, State.performAll_nil, State.perform, hrise, State.setPin_fall, ← hw]
  have hlatch : ∀ q, (w.drive bus.pins.e false).latchOf q = if q = bus.pins.e then some false else s.latchOf q := by
    intro q
    rw [State.latchOf_drive, hw, State.latchOf_waitFor, State.latchOf_drive]
    split <;> simp_all
  have hxx : (w.drive bus.pins.e false).latchedTransfer bus = x := by
    apply hx; intro q hq; rw [hlatch]; simp [hq]
  have hnow : s.now + 1 ≤ (w.drive bus.pins.e false).now := by
    simp [hw, tEHigh]; omega
  refine ⟨(w.drive bus.pins.e false).draws, (w.drive bus.pins.e false).now, hnow, ?_, ?_, ?_⟩
  · rw [hrun]; simp [tEPost]
  · rw [hrun, State.waitFor_receiver, State.receive_receiver, hxx]
    simp [hw]
  · intro q; rw [hrun]; exact hlatch q

/-- Performing a `GpioSet` on a line other than E reaches no receiver. -/
theorem perform_set_other (bus : Bus) {p : PinId} (v : Level) (h : p ≠ bus.pins.e) (s : State) :
    s.perform bus (.set p v) = s.drive p v := by simp [State.perform, State.setPin, h]

/-! ### Transmissions -/

/-- A distinct list's pins differ from one another (40_pin_validation.md rule R81). -/
theorem pairwise_of_distinct {l : List PinId} (h : distinct l = true) : l.Pairwise (· ≠ ·) := by
  induction l with
  | nil => exact List.Pairwise.nil
  | cons a r ih =>
    obtain ⟨h1, h2⟩ := (distinct_cons a r).1 h
    exact List.Pairwise.cons (fun b hb hab => h1 (hab ▸ hb)) (ih h2)

/-- SEND in EightBit mode delivers one transfer, the byte as it is (rules R92 and R97). -/
theorem send8_delivers (p : PinRecord) (hd : distinct (set8 p) = true) (rs : Level) (b : Byte) (s : State) :
    Delivers s [.t8 rs b] (State.performAll ⟨.eightBit, p⟩ (send8 p rs b) s) ∧
    (State.performAll ⟨.eightBit, p⟩ (send8 p rs b) s).latchOf p.e = some false := by
  have hne := pairwise_of_distinct hd
  simp only [set8, List.pairwise_cons, List.mem_cons, forall_eq_or_imp, List.not_mem_nil, false_implies, implies_true,
    List.Pairwise.nil, and_true] at hne
  set bus : Bus := ⟨.eightBit, p⟩ with hbus
  have he : bus.pins.e = p.e := rfl
  set w := State.performAll bus ([.set p.rs rs] ++ putByte p b) s with hw
  have hrun : State.performAll bus (send8 p rs b) s = State.performAll bus (pulse bus.pins) w := by
    simp only [send8, State.performAll_append, hw]; rfl
  have hdrives : w = (((((((((s.drive p.rs rs).drive p.d0 (b.getLsbD 0)).drive p.d1 (b.getLsbD 1)).drive p.d2 (b.getLsbD 2)).drive
      p.d3 (b.getLsbD 3)).drive p.d4 (b.getLsbD 4)).drive p.d5 (b.getLsbD 5)).drive p.d6 (b.getLsbD 6)).drive p.d7 (b.getLsbD 7)) := by
    rw [hw]
    simp only [putByte, List.cons_append, List.nil_append, State.performAll_cons, State.performAll_nil]
    repeat rw [perform_set_other bus _ (by rw [he]; first | exact hne.1.1 | exact Ne.symm (by tauto))]
  have hlatch : ∀ t : State, (∀ q, q ≠ bus.pins.e → t.latchOf q = w.latchOf q) → t.latchedTransfer bus = .t8 rs b := by
    intro t ht
    have lv : ∀ q v, q ≠ p.e → w.latchOf q = some v → t.levelOf q = v := fun q v hq hv =>
      State.levelOf_of_latch (by rw [ht q (by rw [he]; exact hq), hv])
    have h0 : t.levelOf p.rs = rs := lv _ _ (by tauto) (by
      rw [hdrives]; simp only [State.latchOf_drive]; simp [hne])
    have h1 : ∀ q v, (q, v) ∈ [(p.d0, b.getLsbD 0), (p.d1, b.getLsbD 1), (p.d2, b.getLsbD 2), (p.d3, b.getLsbD 3),
        (p.d4, b.getLsbD 4), (p.d5, b.getLsbD 5), (p.d6, b.getLsbD 6), (p.d7, b.getLsbD 7)] → t.levelOf q = v := by
      intro q v hq
      simp only [List.mem_cons, Prod.mk.injEq, List.not_mem_nil, or_false] at hq
      casesm* _ ∨ _
      all_goals
        obtain ⟨rfl, rfl⟩ := ‹q = _ ∧ v = _›
        exact lv _ _ (Ne.symm (by tauto)) (by rw [hdrives]; simp only [State.latchOf_drive]; simp [hne])
    simp only [State.latchedTransfer, transferAt, hbus, h0, Transfer.t8.injEq, true_and]
    rw [h1 p.d0 (b.getLsbD 0) (by simp), h1 p.d1 (b.getLsbD 1) (by simp), h1 p.d2 (b.getLsbD 2) (by simp),
      h1 p.d3 (b.getLsbD 3) (by simp), h1 p.d4 (b.getLsbD 4) (by simp), h1 p.d5 (b.getLsbD 5) (by simp),
      h1 p.d6 (b.getLsbD 6) (by simp), h1 p.d7 (b.getLsbD 7) (by simp)]
    exact byte_of_lines b
  obtain ⟨k, t, h1, h2, h3, h4⟩ := pulse_effect bus w (.t8 rs b) hlatch
  have hwr : w.receiver = s.receiver := by rw [hdrives]; simp
  have hwn : s.now ≤ w.now := by rw [hdrives]; simp; omega
  rw [hrun]
  refine ⟨⟨k, t, State.performAll bus (pulse bus.pins) w, by omega, h2, by rw [h3, hwr], rfl, le_refl _⟩, ?_⟩
  rw [h4]; simp [he]

/-- Four lines and a pulse in FourBit mode, RS being already driven, deliver one nibble transfer (rules R91 and R97). -/
theorem nibble_delivers (p : PinRecord) (hd : distinct (set4 p) = true) (rs : Level) (n : Nibble) (s : State)
    (hrs : s.latchOf p.rs = some rs) :
    Delivers s [.t4 rs n] (State.performAll ⟨.fourBit, p⟩ (putNibble p n ++ pulse p) s) ∧
    (State.performAll ⟨.fourBit, p⟩ (putNibble p n ++ pulse p) s).latchOf p.e = some false ∧
    (State.performAll ⟨.fourBit, p⟩ (putNibble p n ++ pulse p) s).latchOf p.rs = some rs := by
  have hne := pairwise_of_distinct hd
  simp only [set4, List.pairwise_cons, List.mem_cons, forall_eq_or_imp, List.not_mem_nil, false_implies, implies_true,
    List.Pairwise.nil, and_true] at hne
  set bus : Bus := ⟨.fourBit, p⟩ with hbus
  have he : bus.pins.e = p.e := rfl
  set w := State.performAll bus (putNibble p n) s with hw
  have hrun : State.performAll bus (putNibble p n ++ pulse p) s = State.performAll bus (pulse bus.pins) w := by
    simp only [State.performAll_append, hw]; rfl
  have hdrives : w = ((((s.drive p.d4 (n.getLsbD 0)).drive p.d5 (n.getLsbD 1)).drive p.d6 (n.getLsbD 2)).drive p.d7 (n.getLsbD 3)) := by
    rw [hw]
    simp only [putNibble, State.performAll_cons, State.performAll_nil]
    repeat rw [perform_set_other bus _ (by rw [he]; exact Ne.symm (by tauto))]
  have hlrs : w.latchOf p.rs = some rs := by
    rw [hdrives]; simp only [State.latchOf_drive]; simp [hne, hrs]
  have hlatch : ∀ t : State, (∀ q, q ≠ bus.pins.e → t.latchOf q = w.latchOf q) → t.latchedTransfer bus = .t4 rs n := by
    intro t ht
    have lv : ∀ q v, q ≠ p.e → w.latchOf q = some v → t.levelOf q = v := fun q v hq hv =>
      State.levelOf_of_latch (by rw [ht q (by rw [he]; exact hq), hv])
    have h0 : t.levelOf p.rs = rs := lv _ _ (by tauto) hlrs
    have h1 : ∀ q v, (q, v) ∈ [(p.d4, n.getLsbD 0), (p.d5, n.getLsbD 1), (p.d6, n.getLsbD 2), (p.d7, n.getLsbD 3)] → t.levelOf q = v := by
      intro q v hq
      simp only [List.mem_cons, Prod.mk.injEq, List.not_mem_nil, or_false] at hq
      casesm* _ ∨ _
      all_goals
        obtain ⟨rfl, rfl⟩ := ‹q = _ ∧ v = _›
        exact lv _ _ (Ne.symm (by tauto)) (by rw [hdrives]; simp only [State.latchOf_drive]; simp [hne])
    simp only [State.latchedTransfer, transferAt, hbus, h0, Transfer.t4.injEq, true_and]
    rw [h1 p.d4 (n.getLsbD 0) (by simp), h1 p.d5 (n.getLsbD 1) (by simp), h1 p.d6 (n.getLsbD 2) (by simp),
      h1 p.d7 (n.getLsbD 3) (by simp)]
    exact nibble_of_lines n
  obtain ⟨k, t, h1, h2, h3, h4⟩ := pulse_effect bus w (.t4 rs n) hlatch
  have hwr : w.receiver = s.receiver := by rw [hdrives]; simp
  have hwn : s.now ≤ w.now := by rw [hdrives]; simp; omega
  rw [hrun]
  refine ⟨⟨k, t, State.performAll bus (pulse bus.pins) w, by omega, h2, by rw [h3, hwr], rfl, le_refl _⟩, ?_, ?_⟩
  · rw [h4]; simp [he]
  · rw [h4, if_neg (by rw [he]; tauto)]; exact hlrs

/-- Delivering one list of transfers and then another delivers both. -/
theorem Delivers.append {s m u : State} {xs ys : List Transfer} (h1 : Delivers s xs m) (h2 : Delivers m ys u) :
    Delivers s (xs ++ ys) u := by
  induction xs generalizing s with
  | nil =>
    obtain ⟨hr, hn⟩ := h1
    cases ys with
    | nil => exact ⟨h2.1.trans hr, hn.trans h2.2⟩
    | cons y ys =>
      obtain ⟨k, t, m', a, b, c, d⟩ := h2
      exact ⟨k, t, m', by omega, b, by rw [c, hr], d⟩
  | cons x xs ih =>
    obtain ⟨k, t, m', a, b, c, d⟩ := h1
    exact ⟨k, t, m', a, b, c, ih d⟩

/-- Driving RS first changes nothing for the receiver. -/
theorem Delivers.drive {s u : State} {p : PinId} {v : Level} {xs : List Transfer} (h : Delivers (s.drive p v) xs u) :
    Delivers s xs u := by
  have h0 : Delivers s [] (s.drive p v) := ⟨rfl, by simp⟩
  simpa using h0.append h

/-- SEND in FourBit mode delivers the high nibble, then the low nibble (rules R93 and R97). -/
theorem send4_delivers (p : PinRecord) (hd : distinct (set4 p) = true) (rs : Level) (b : Byte) (s : State) :
    Delivers s [.t4 rs (b.extractLsb' 4 4), .t4 rs (b.extractLsb' 0 4)] (State.performAll ⟨.fourBit, p⟩ (send4 p rs b) s) ∧
    (State.performAll ⟨.fourBit, p⟩ (send4 p rs b) s).latchOf p.e = some false := by
  have hne := pairwise_of_distinct hd
  simp only [set4, List.pairwise_cons, List.mem_cons, forall_eq_or_imp] at hne
  set w := s.drive p.rs rs with hw
  have hrun : State.performAll ⟨.fourBit, p⟩ (send4 p rs b) s =
      State.performAll ⟨.fourBit, p⟩ (putNibble p (b.extractLsb' 0 4) ++ pulse p)
        (State.performAll ⟨.fourBit, p⟩ (putNibble p (b.extractLsb' 4 4) ++ pulse p) w) := by
    have : send4 p rs b = [.set p.rs rs] ++ ((putNibble p (b.extractLsb' 4 4) ++ pulse p) ++ (putNibble p (b.extractLsb' 0 4) ++ pulse p)) := by
      simp [send4]
    rw [this, State.performAll_append, State.performAll_append, State.performAll_cons, State.performAll_nil,
      perform_set_other ⟨.fourBit, p⟩ rs hne.1.1]
  obtain ⟨a1, a2, a3⟩ := nibble_delivers p hd rs (b.extractLsb' 4 4) w (by simp [hw, State.latchOf_drive])
  obtain ⟨b1, b2, -⟩ := nibble_delivers p hd rs (b.extractLsb' 0 4) _ a3
  rw [hrun]
  exact ⟨(a1.append b1).drive, b2⟩

/-- SEND_NIBBLE in FourBit mode delivers one nibble (rule R95). -/
theorem sendNibble4_delivers (p : PinRecord) (hd : distinct (set4 p) = true) (n : Nibble) (s : State) :
    Delivers s [.t4 false n] (State.performAll ⟨.fourBit, p⟩ (sendNibble ⟨.fourBit, p⟩ n) s) ∧
    (State.performAll ⟨.fourBit, p⟩ (sendNibble ⟨.fourBit, p⟩ n) s).latchOf p.e = some false := by
  have hne := pairwise_of_distinct hd
  simp only [set4, List.pairwise_cons, List.mem_cons, forall_eq_or_imp] at hne
  have hrun : State.performAll ⟨.fourBit, p⟩ (sendNibble ⟨.fourBit, p⟩ n) s =
      State.performAll ⟨.fourBit, p⟩ (putNibble p n ++ pulse p) (s.drive p.rs false) := by
    have : sendNibble ⟨.fourBit, p⟩ n = [.set p.rs false] ++ (putNibble p n ++ pulse p) := by simp [sendNibble]
    rw [this, State.performAll_append, State.performAll_cons, State.performAll_nil, perform_set_other ⟨.fourBit, p⟩ false hne.1.1]
  obtain ⟨a1, a2, -⟩ := nibble_delivers p hd false n (s.drive p.rs false) (by simp [State.latchOf_drive])
  rw [hrun]
  exact ⟨a1.drive, a2⟩

/-- SEND delivers the transfers of its bus word, and leaves E low (rules R94 and R100). -/
theorem send_delivers (bus : Bus) (hd : distinct (activeSet bus.mode bus.pins) = true) (rs : Level) (b : Byte) (s : State) :
    Delivers s (transfersOfWord bus.mode rs b) (State.performAll bus (send bus rs b) s) ∧
    (State.performAll bus (send bus rs b) s).latchOf bus.pins.e = some false := by
  obtain ⟨m, p⟩ := bus
  cases m with
  | eightBit => exact send8_delivers p hd rs b s
  | fourBit => exact send4_delivers p hd rs b s

/-- A wait reaches no receiver. -/
theorem wait_delivers (bus : Bus) (n : Nat) (s : State) :
    (State.performAll bus [.wait n] s).receiver = s.receiver ∧ s.now + n ≤ (State.performAll bus [.wait n] s).now ∧
    ∀ q, (State.performAll bus [.wait n] s).latchOf q = s.latchOf q := by
  refine ⟨by simp [State.perform], by simp [State.perform], fun q => by simp [State.perform]⟩

end Sys2Proof.Machine
end

