-- ==== Sys2Proof/Laws/Run.lean ====
section
/-!
SUPPORT. Running a busy sequencer (10_state.md rule R27): the events are performed one a step, then the request finishes.
-/

namespace Sys2Proof.Machine

/-- The model's `run` is the host's, on this machine. -/
theorem run_eq_core_run (n : Nat) (s : State) : run n s = Host.Core.run Sys2Proof.core n s := by
  induction n generalizing s with
  | zero => rfl
  | succ k ih =>
    have : Sys2Proof.core.step s = step s := rfl
    simp only [run, Host.Core.run, this]
    cases step s with
    | next t => exact ih t
    | fault r => rfl
    | refused r => rfl

/-- Two runs, one after the other. -/
theorem run_add (a b : Nat) {s t : State} (h : run a s = .next t) : run (a + b) s = run b t := by
  induction a generalizing s with
  | zero => cases h; simp
  | succ k ih =>
    rw [Nat.succ_add]
    simp only [run] at h ⊢
    cases hs : step s with
    | next u => rw [hs] at h; exact ih h
    | fault r => rw [hs] at h; cases h
    | refused r => rw [hs] at h; cases h

theorem run_one (s : State) : run 1 s = step s := by
  simp only [run]; cases step s <;> rfl

/-! ### The answers to come -/

theorem State.answerAt_zero (s : State) : s.answerAt 0 = s.nextAnswer := by
  unfold State.answerAt State.nextAnswer
  cases s.cfgAnswers <;> rfl

theorem State.answerAt_configureOk (s : State) (p : PinId) (j : Nat) : (s.configureOk p).answerAt j = s.answerAt (j + 1) := by
  simp [State.answerAt, Nat.add_comm 1, Nat.add_assoc]

/-- The next configure call is answered Ok, and so are those after it. -/
theorem nextAnswer_ok {n : Nat} {s : State} (h : AnswersOk (n + 1) s) : s.nextAnswer = .ok := by
  rw [← s.answerAt_zero]; exact h 0 (Nat.succ_pos n)

theorem answersOk_configureOk {n : Nat} {s : State} (p : PinId) (h : AnswersOk (n + 1) s) : AnswersOk n (s.configureOk p) :=
  fun j hj => by rw [s.answerAt_configureOk]; exact h (j + 1) (Nat.succ_lt_succ hj)

/-- Answers listed in the state are the answers given. -/
theorem answersOk_of_listed {n : Nat} {s : State} (h : s.cfgAnswers.take n = List.replicate n .ok) : AnswersOk n s := by
  intro j hj
  have : (s.cfgAnswers.take n)[j]? = some .ok := by rw [h]; simp [hj]
  rw [List.getElem?_take_of_lt hj] at this
  simp [State.answerAt, this]

/-! ### Performing a list of events -/

/-- One event that does not end the request is one step. -/
theorem run_event {s : State} {i : Instr} {bus : Bus} {a : Action} {more : List Action} (h : s.seq = .busy i bus (a :: more))
    (ha : (∃ p, a = .configure p) → s.nextAnswer = .ok) : run 1 s = .next ((s.perform bus a).busyWith i bus more) := by
  rw [run_one, step_busy h]
  cases a with
  | configure p => simp [State.advance, ha ⟨p, rfl⟩, State.perform]
  | set p v => rfl
  | wait n => rfl

/-- A busy sequencer performs events that configure no pin, one a step. -/
theorem run_performs (as rest : List Action) {s : State} {i : Instr} {bus : Bus} (h : s.seq = .busy i bus (as ++ rest))
    (hq : ∀ p, Action.configure p ∉ as) : run as.length s = .next ((State.performAll bus as s).busyWith i bus rest) := by
  induction as generalizing s with
  | nil =>
    simp only [List.length_nil, run, State.performAll_nil]
    rw [List.nil_append] at h
    simp [State.busyWith, ← h]
  | cons a more ih =>
    have h1 := run_event h (fun ⟨p, hp⟩ => absurd (by simp [hp]) (hq p))
    rw [List.length_cons, Nat.add_comm, run_add 1 more.length h1, ih rfl (fun p hp => hq p (by simp [hp])),
      State.performAll_busyWith, State.performAll_cons, State.busyWith_busyWith]

/-- A busy sequencer makes its configure calls, one a step, as long as they are answered Ok. -/
theorem run_configures (ps : List PinId) (rest : List Action) {s : State} {i : Instr} {bus : Bus}
    (h : s.seq = .busy i bus (ps.map .configure ++ rest)) (ha : AnswersOk ps.length s) :
    run ps.length s = .next ((State.performAll bus (ps.map .configure) s).busyWith i bus rest) := by
  induction ps generalizing s with
  | nil => exact run_performs [] rest h (by simp)
  | cons p more ih =>
    rw [List.map_cons, List.cons_append] at h
    have h1 := run_event h (fun _ => nextAnswer_ok ha)
    have h2 : AnswersOk more.length ((s.perform bus (.configure p)).busyWith i bus (more.map .configure ++ rest)) :=
      answersOk_configureOk p ha
    rw [List.length_cons, Nat.add_comm, run_add 1 more.length h1, ih rfl h2, State.performAll_busyWith, List.map_cons, State.performAll_cons, State.busyWith_busyWith]

theorem finish_busyWith (i j : Instr) (bus b : Bus) (rest : List Action) (s : State) :
    (s.busyWith j b rest).finish i bus = s.finish i bus := by
  unfold State.finish; split <;> rfl

/-- A busy sequencer whose configure calls come first and are all answered Ok performs all its events and finishes. -/
theorem run_finishes (ps : List PinId) (as : List Action) {s : State} {i : Instr} {bus : Bus}
    (h : s.seq = .busy i bus (ps.map .configure ++ as)) (hq : ∀ p, Action.configure p ∉ as) (ha : AnswersOk ps.length s) :
    run ((ps.map Action.configure ++ as).length + 1) s =
      .next ((State.performAll bus (ps.map .configure ++ as) s).finish i bus) := by
  have h2 := run_performs as [] (s := (State.performAll bus (ps.map .configure) s).busyWith i bus as) (i := i) (bus := bus)
    (by rw [List.append_nil]; rfl) hq
  rw [List.length_append, List.length_map, Nat.add_assoc, run_add _ _ (run_configures ps as h ha), run_add _ 1 h2, run_one,
    step_busy rfl]
  simp only [State.advance, finish_busyWith, State.performAll_busyWith, State.performAll_append]

end Sys2Proof.Machine
end

