-- ==== Sys2Proof/Laws/Events.lean ====
section
/-!
SUPPORT. What a list of events leaves behind, by its events alone: counts and times of a trace (41_bus_transport.md rule R98),
the configured set, the latches, the time, and the latched transfers of a trace (rule R97).
-/

namespace Sys2Proof.Machine

/-! ### Counts and times -/

theorem traceOf_append (a b : List Action) : traceOf (a ++ b) = traceOf a ++ traceOf b := by simp [traceOf]

theorem waitTotal_append (a b : List Event) : waitTotal (a ++ b) = waitTotal a + waitTotal b := by
  induction a with
  | nil => simp [waitTotal]
  | cons x r ih => cases x <;> simp [waitTotal, ih]; omega

theorem setCount_append (a b : List Event) : setCount (a ++ b) = setCount a + setCount b := by
  induction a with
  | nil => simp [setCount]
  | cons x r ih => cases x <;> simp [setCount, ih]; omega
theorem waitCount_append (a b : List Event) : waitCount (a ++ b) = waitCount a + waitCount b := by
  induction a with
  | nil => simp [waitCount]
  | cons x r ih => cases x <;> simp [waitCount, ih]; omega
theorem configureCount_append (a b : List Event) : configureCount (a ++ b) = configureCount a + configureCount b := by
  induction a with
  | nil => simp [configureCount]
  | cons x r ih => cases x <;> simp [configureCount, ih]; omega

/-- A trace's counts of configure, set and wait events, and the sum of its waits (rule R98). -/
def counts (t : List Event) : Nat × Nat × Nat × Nat := (configureCount t, setCount t, waitCount t, waitTotal t)
theorem counts_append (a b : List Event) : counts (a ++ b) =
    ((counts a).1 + (counts b).1, (counts a).2.1 + (counts b).2.1, (counts a).2.2.1 + (counts b).2.2.1,
    (counts a).2.2.2 + (counts b).2.2.2) := by
  simp [counts, setCount_append, waitCount_append, configureCount_append, waitTotal_append]
theorem counts_send8 (p rs b) : counts (traceOf (send8 p rs b)) = (0, 11, 2, 41) := rfl
theorem counts_send4 (p rs b) : counts (traceOf (send4 p rs b)) = (0, 13, 4, 82) := rfl
theorem counts_sendNibble (p n) : counts (traceOf (sendNibble ⟨.fourBit, p⟩ n)) = (0, 7, 2, 41) := rfl
theorem counts_wait (n) : counts (traceOf [.wait n]) = (0, 0, 1, n) := rfl
theorem counts_configureAll8 (p) : counts (traceOf (configureAllEvents ⟨.eightBit, p⟩)) = (10, 0, 0, 0) := rfl
theorem counts_configureAll4 (p) : counts (traceOf (configureAllEvents ⟨.fourBit, p⟩)) = (6, 0, 0, 0) := rfl
theorem counts_nil : counts (traceOf []) = (0,0,0,0) := rfl

theorem waitTotal_send (m : BusWidthMode) (p : PinRecord) (rs : Level) (b : Byte) :
    waitTotal (traceOf (send ⟨m, p⟩ rs b)) = (match m with | .eightBit => 41 | .fourBit => 82) := by
  cases m <;> rfl

theorem waitTotal_print (m : BusWidthMode) (p : PinRecord) (text : List Byte) :
    waitTotal (traceOf (printEvents text ⟨m,p⟩)) = (match m with | .eightBit => 41 | .fourBit => 82) * text.length := by
  induction text with
  | nil => rfl
  | cons c r ih =>
    simp only [printEvents, List.flatMap_cons, traceOf_append, waitTotal_append] at ih ⊢
    rw [ih]; simp only [writeDataEvents, sendData, waitTotal_send, List.length_cons]; cases m <;> simp <;> omega

/-! ### The fields an event list changes -/

theorem mem_configured_performAll (bus : Bus) (l : List Action) (s : State) (q : PinId) :
    q ∈ (State.performAll bus l s).configured ↔ q ∈ s.configured ∨ Action.configure q ∈ l := by
  induction l generalizing s with
  | nil => simp
  | cons a r ih =>
    rw [State.performAll_cons, ih]
    cases a with
    | configure p => simp [State.perform, PinSet.mem_insert]; tauto
    | set p v => simp [State.perform]
    | wait n => simp [State.perform]

/-- The latch of a pin after a list of events is the level the events leave it at (rule R28). -/
theorem latchOf_performAll (bus : Bus) (l : List Action) (s : State) (q : PinId) :
    (State.performAll bus l s).latchOf q = levelAfter q (s.latchOf q) l := by
  induction l generalizing s with
  | nil => rfl
  | cons a r ih =>
    rw [State.performAll_cons, ih]
    cases a with
    | configure p => rfl
    | set p v => simp only [State.perform, State.latchOf_setPin, levelAfter, eq_comm]
    | wait n => rfl

theorem levelAfter_append (q : PinId) (v : Option Level) (a b : List Action) :
    levelAfter q v (a ++ b) = levelAfter q (levelAfter q v a) b := by
  induction a generalizing v with
  | nil => rfl
  | cons x r ih => cases x <;> exact ih _

theorem levelAfter_of_not_set {q : PinId} {v : Option Level} {l : List Action} (h : ∀ u, Action.set q u ∉ l) :
    levelAfter q v l = v := by
  induction l generalizing v with
  | nil => rfl
  | cons a r ih =>
    have hr := ih (v := v) (fun u hu => h u (by simp [hu]))
    cases a with
    | configure p => exact hr
    | set p u =>
      have : p ≠ q := by rintro rfl; exact h u (by simp)
      rw [levelAfter, if_neg this, hr]
    | wait n => exact hr

theorem now_performAll (bus : Bus) (l : List Action) (s : State) :
    s.now + waitTotal (traceOf l) ≤ (State.performAll bus l s).now := by
  induction l generalizing s with
  | nil => simp [traceOf, waitTotal]
  | cons a r ih =>
    rw [State.performAll_cons]
    have := ih (s.perform bus a)
    cases a with
    | configure p => simp only [State.perform, traceOf, List.map_cons, Action.event, waitTotal,
        State.configureOk_now] at *; omega
    | set p v => simp only [State.perform, traceOf, List.map_cons, Action.event, waitTotal, State.setPin_now] at *; omega
    | wait n => simp only [State.perform, traceOf, List.map_cons, Action.event, waitTotal, State.waitFor_now] at *; omega

theorem receiver_performAll_of_no_set (bus : Bus) (l : List Action) (s : State) (h : ∀ p v, Action.set p v ∉ l) :
    (State.performAll bus l s).receiver = s.receiver := by
  induction l generalizing s with
  | nil => rfl
  | cons a r ih =>
    rw [State.performAll_cons, ih _ (fun p v hv => h p v (by simp [hv]))]
    cases a with
    | configure p => rfl
    | set p v => exact absurd (by simp) (h p v)
    | wait n => rfl

theorem configureCalls_eq_zero {l : List Action} (h : ∀ p, Action.configure p ∉ l) : configureCalls l = 0 := by
  induction l with
  | nil => rfl
  | cons a r ih =>
    cases a with
    | configure p => exact absurd (by simp) (h p)
    | set p v => exact ih (fun p hp => h p (by simp [hp]))
    | wait n => exact ih (fun p hp => h p (by simp [hp]))

theorem no_configure_send (bus : Bus) (rs : Level) (b : Byte) (p : PinId) : Action.configure p ∉ send bus rs b := by
  obtain ⟨m, q⟩ := bus
  cases m <;> simp [send, send8, send4, putByte, putNibble, pulse]

theorem no_configure_sendNibble (bus : Bus) (n : Nibble) (p : PinId) : Action.configure p ∉ sendNibble bus n := by
  obtain ⟨m, q⟩ := bus
  cases m <;> simp [sendNibble, send8, putByte, putNibble, pulse]

theorem no_configure_print (bus : Bus) (text : List Byte) (p : PinId) : Action.configure p ∉ printEvents text bus := by
  simp only [printEvents, List.mem_flatMap, not_exists, not_and]
  exact fun c _ => no_configure_send bus true c p

/-- Only INIT configures pins (43_initializer.md rule R132). -/
theorem no_configure_of_not_init (cfg : Config) {i : Instr} (bus : Bus) (h : Instr.role i ≠ .initializer) (p : PinId) :
    Action.configure p ∉ eventsOf cfg i bus := by
  have hs := fun rs b => no_configure_send bus rs b p
  have hn := fun n => no_configure_sendNibble bus n p
  have hp := fun t => no_configure_print bus t p
  cases i with
  | init pins => exact absurd rfl h
  | nibFset8 => exact hn _
  | nibFset4 => exact hn _
  | clearDisplay => simpa [eventsOf, clearDisplayEvents, sendCmd] using hs _ _
  | clear => simpa [eventsOf, clearDisplayEvents, sendCmd] using hs _ _
  | printChars t => exact hp _
  | printInt v => exact hp _
  | printFloat v prec => exact hp _
  | progressBar row g =>
    simp only [eventsOf, progressBarEvents, List.mem_append, not_or]
    exact ⟨hs _ _, hp _⟩
  | clearRow row =>
    simp only [eventsOf, clearRowEvents, List.mem_append, not_or]
    exact ⟨⟨hs _ _, hp _⟩, hs _ _⟩
  | reserved low => simp [eventsOf]
  | _ => exact hs _ _

/-- An accepted instruction other than INIT, run to its end. -/
theorem run_of_not_init {i : Instr} (h : Instr.role i ≠ .initializer) (bus : Bus) (s : State) :
    run ((eventsOf s.cfg i bus).length + 1) (s.busyWith i bus (eventsOf s.cfg i bus)) =
      .next ((State.performAll bus (eventsOf s.cfg i bus) s).finish i bus) := by
  have := run_finishes [] (eventsOf s.cfg i bus) (s := s.busyWith i bus (eventsOf s.cfg i bus)) (i := i) (bus := bus) rfl
    (no_configure_of_not_init s.cfg bus h) (fun j hj => absurd hj (Nat.not_lt_zero j))
  rw [List.map_nil, List.nil_append] at this
  rw [this, State.performAll_busyWith, finish_busyWith]

theorem configureCalls_append (a b : List Action) : configureCalls (a ++ b) = configureCalls a + configureCalls b := by
  simp [configureCalls, traceOf_append, configureCount_append]

theorem configureCalls_configure (ps : List PinId) : configureCalls (ps.map .configure) = ps.length := by
  induction ps with
  | nil => rfl
  | cons p r ih => simp only [List.map_cons, List.length_cons, ← ih]; rfl

/-- INIT configures the active set first, and no pin after that (rules R130 and R132). -/
theorem initEvents_split (bus : Bus) : ∃ later, initEvents bus = (activeSet bus.mode bus.pins).map .configure ++ later ∧
    ∀ p, Action.configure p ∉ later := by
  refine ⟨_, by simp only [initEvents, configureAllEvents, List.append_assoc]; rfl, fun p => ?_⟩
  have hs := fun rs b => no_configure_send bus rs b p
  have hn := fun n => no_configure_sendNibble bus n p
  obtain ⟨m, q⟩ := bus
  cases m <;> simp [initStep2Events, initStep3Events, initStep4Events, functionSetEvents, nibFset8Events, nibFset4Events,
    functionSet8bitEvents, functionSet4bitEvents, displayControlEvents, clearDisplayEvents, entryModeEvents, sendCmd, hs, hn]

/-- An accepted request, its configure calls answered Ok, performs all its events and finishes (10_state.md rule R27). -/
theorem run_accepted {s t : State} {i : Instr} {bus : Bus} {events : List Action} (hs : s.seq = .idle) (h : exec i s = .next t)
    (ht : t.seq = .busy i bus events) (ha : AnswersOk (configureCalls events) s) :
    t = s.busyWith i bus events ∧ isRequest i = true ∧
    run (events.length + 1) t = .next ((State.performAll bus events s).finish i bus) := by
  rcases exec_cases hs h with ⟨k, -, -, rfl⟩ | ⟨b, rfl, hr⟩
  · cases ht
  · obtain ⟨-, rfl, rfl⟩ := Sequencer.busy.inj ht
    rcases hr with ⟨hr, -, hi, -⟩ | ⟨hr, -⟩
    · refine ⟨rfl, by simp [isRequest, hr], ?_⟩
      obtain ⟨later, he, hn⟩ := initEvents_split b
      have hev : eventsOf s.cfg i b = (activeSet b.mode b.pins).map .configure ++ later := by rw [hi]; exact he
      rw [hev, configureCalls_append, configureCalls_configure, configureCalls_eq_zero hn] at ha
      have hx := run_finishes _ later (s := s.busyWith i b (eventsOf s.cfg i b)) (by rw [hev]; rfl) hn ha
      rw [← hev, State.performAll_busyWith, finish_busyWith] at hx
      exact hx
    · exact ⟨rfl, by simp [isRequest, hr], run_of_not_init (by rw [hr]; decide) b s⟩

/-! ### The latched transfers of a trace -/

theorem gapAfter_send8 (p : PinRecord) (rs : Level) (b : Byte) (rest : List Event) :
    gapAfter p.e (traceOf (send8 p rs b) ++ rest) = 0 := by
  simp [send8, traceOf, putByte, pulse, gapAfter, Action.event]
theorem gapAfter_putNibble (p : PinRecord) (n : Nibble) (rest : List Event) :
    gapAfter p.e (traceOf (putNibble p n ++ pulse p) ++ rest) = 0 := by
  simp [traceOf, putNibble, pulse, gapAfter, Action.event]
theorem gapAfter_send4 (p : PinRecord) (rs : Level) (b : Byte) (rest : List Event) :
    gapAfter p.e (traceOf (send4 p rs b) ++ rest) = 0 := by
  simp [send4, traceOf, putNibble, pulse, gapAfter, Action.event]
theorem gapAfter_sendNibble (p : PinRecord) (n : Nibble) (rest : List Event) :
    gapAfter p.e (traceOf (sendNibble ⟨.fourBit, p⟩ n) ++ rest) = 0 := by
  simp [sendNibble, traceOf, putNibble, pulse, gapAfter, Action.event]
theorem gapAfter_wait (e : PinId) (n : Nat) (rest : List Event) : gapAfter e (traceOf [.wait n] ++ rest) =
    n + gapAfter e rest := by
  simp [traceOf, gapAfter, Action.event]

/-- The latches after a list of events. -/
def latchAfter (l : List (PinId × Level)) : List Action → List (PinId × Level)
  | [] => l
  | .set p v :: r => latchAfter (Sparse.write l p v) r
  | .wait _ :: r => latchAfter l r
  | .configure _ :: r => latchAfter l r

theorem read_latchAfter (as : List Action) (l : List (PinId × Level)) (q : PinId) : Sparse.read (latchAfter l as) q =
    levelAfter q (Sparse.read l q) as := by
  induction as generalizing l with
  | nil => rfl
  | cons a r ih =>
    cases a <;> simp only [latchAfter, levelAfter, ih]
    rename_i p v
    rw [Sparse.read_write]; congr 1; simp only [eq_comm]

theorem latchedTransfers_no_fall (bus : Bus) (as : List Action) (h : Action.set bus.pins.e false ∉ as)
    (l : List (PinId × Level)) (rest : List Event) :
  latchedTransfers bus l (traceOf as ++ rest) = latchedTransfers bus (latchAfter l as) rest := by
  induction as generalizing l with
  | nil => rfl
  | cons a r ih =>
    have ih := fun l => ih (fun hh => h (by simp [hh])) l
    cases a with
    | set p v =>
      have : ¬ (p = bus.pins.e ∧ v = false) := by rintro ⟨rfl, rfl⟩; simp at h
      simp only [traceOf, List.map_cons, Action.event, List.cons_append, latchedTransfers, this, if_false] at ih ⊢
      exact ih _
    | wait n => exact ih l
    | configure n => exact ih l

theorem transferAt_eight (p : PinRecord) (rs : Level) (b : Byte) (f : PinId → Level) (h0 : f p.rs = rs)
    (h1 : ∀ q v, (q, v) ∈ [(p.d0, b.getLsbD 0), (p.d1, b.getLsbD 1), (p.d2, b.getLsbD 2), (p.d3, b.getLsbD 3), (p.d4,
    b.getLsbD 4), (p.d5, b.getLsbD 5), (p.d6, b.getLsbD 6), (p.d7, b.getLsbD 7)] → f q = v) :
   transferAt f ⟨.eightBit, p⟩ = .t8 rs b := by
  simp only [transferAt, h0, Transfer.t8.injEq, true_and]
  rw [h1 p.d0 (b.getLsbD 0) (by simp), h1 p.d1 (b.getLsbD 1) (by simp), h1 p.d2 (b.getLsbD 2) (by simp),
      h1 p.d3 (b.getLsbD 3) (by simp), h1 p.d4 (b.getLsbD 4) (by simp), h1 p.d5 (b.getLsbD 5) (by simp),
      h1 p.d6 (b.getLsbD 6) (by simp), h1 p.d7 (b.getLsbD 7) (by simp)]
  exact byte_of_lines b

theorem transferAt_four (p : PinRecord) (rs : Level) (n : Nibble) (f : PinId → Level) (h0 : f p.rs = rs)
    (h1 : ∀ q v, (q, v) ∈ [(p.d4, n.getLsbD 0), (p.d5, n.getLsbD 1), (p.d6, n.getLsbD 2), (p.d7,
    n.getLsbD 3)] → f q = v) :
   transferAt f ⟨.fourBit, p⟩ = .t4 rs n := by
  simp only [transferAt, h0, Transfer.t4.injEq, true_and]
  rw [h1 p.d4 (n.getLsbD 0) (by simp), h1 p.d5 (n.getLsbD 1) (by simp), h1 p.d6 (n.getLsbD 2) (by simp),
      h1 p.d7 (n.getLsbD 3) (by simp)]
  exact nibble_of_lines n

theorem latchedTransfers_send8 (p : PinRecord) (hd : distinct (set8 p) = true) (latch : List (PinId × Level))
    (rs : Level) (b : Byte) :
  ∃ latch', ∀ rest, latchedTransfers ⟨.eightBit, p⟩ latch (traceOf (send8 p rs b) ++ rest) =
      (.t8 rs b, 40 + gapAfter p.e rest) :: latchedTransfers ⟨.eightBit, p⟩ latch' rest := by
  have hne := pairwise_of_distinct hd
  simp only [set8, List.pairwise_cons, List.mem_cons, forall_eq_or_imp, List.not_mem_nil, false_implies, implies_true,
    List.Pairwise.nil, and_true] at hne
  have h1 : Action.set p.e false ∉ ([.set p.rs rs] ++ putByte p b) := by
    simp [putByte]; simp [hne]; intro h; exact absurd h.symm hne.1.1
  have key : ∀ q v, (q, v) ∈ [(p.d0, b.getLsbD 0), (p.d1, b.getLsbD 1), (p.d2, b.getLsbD 2), (p.d3, b.getLsbD 3),
      (p.d4, b.getLsbD 4), (p.d5, b.getLsbD 5), (p.d6, b.getLsbD 6),
      (p.d7, b.getLsbD 7)] → q ≠ p.e ∧ levelAfter q (Sparse.read latch q) ([.set p.rs rs] ++ putByte p b) = some v := by
    intro q v hq
    simp only [List.mem_cons, Prod.mk.injEq, List.not_mem_nil, or_false] at hq
    casesm* _ ∨ _
    all_goals
      obtain ⟨rfl, rfl⟩ := ‹q = _ ∧ v = _›
      exact ⟨Ne.symm (by tauto), by simp only [putByte, levelAfter, List.cons_append, List.nil_append]; simp [hne, Ne.symm]⟩
  have krs : levelAfter p.rs (Sparse.read latch p.rs) ([.set p.rs rs] ++ putByte p b) = some rs := by
    have h : ∀ v, Action.set p.rs v ∉ putByte p b := by
      intro v; simp [putByte]; tauto
    rw [List.singleton_append, levelAfter, if_pos rfl, levelAfter_of_not_set h]
  refine ⟨Sparse.write (Sparse.write (latchAfter latch ([.set p.rs rs] ++ putByte p b)) p.e true) p.e false, fun rest => ?_⟩
  have : send8 p rs b = ([.set p.rs rs] ++ putByte p b) ++ pulse p := by simp [send8]
  rw [this, traceOf_append, List.append_assoc, latchedTransfers_no_fall ⟨.eightBit, p⟩ _ h1]
  simp only [traceOf, pulse, List.cons_append, List.nil_append, List.map_cons, List.map_nil, Action.event, latchedTransfers]
  simp only [Bool.true_eq_false, and_false, if_false, and_self, if_true, gapAfter, tEPost]
  congr 2
  apply transferAt_eight
  · rw [Sparse.read_write, if_neg (by tauto), Sparse.read_write, if_neg (by tauto)]
    have := read_latchAfter ([.set p.rs rs] ++ putByte p b) latch p.rs
    rw [krs] at this; simp only [List.cons_append, List.nil_append] at this; rw [this]; rfl
  · intro q v hq
    obtain ⟨a, b'⟩ := key q v hq
    rw [Sparse.read_write, if_neg a, Sparse.read_write, if_neg a]
    have := read_latchAfter ([.set p.rs rs] ++ putByte p b) latch q
    rw [b'] at this; simp only [List.cons_append, List.nil_append] at this; rw [this]; rfl

theorem latchedTransfers_nibble (p : PinRecord) (hd : distinct (set4 p) = true) (latch : List (PinId × Level))
    (rs : Level) (n : Nibble) (hrs : Sparse.read latch p.rs = some rs) :
  ∃ latch', (∀ rest, latchedTransfers ⟨.fourBit, p⟩ latch (traceOf (putNibble p n ++ pulse p) ++ rest) = (.t4 rs n,
      40 + gapAfter p.e rest) :: latchedTransfers ⟨.fourBit, p⟩ latch' rest) ∧ Sparse.read latch' p.rs = some rs := by
  have hne := pairwise_of_distinct hd
  simp only [set4, List.pairwise_cons, List.mem_cons, forall_eq_or_imp, List.not_mem_nil, false_implies, implies_true,
    List.Pairwise.nil, and_true] at hne
  have h1 : Action.set p.e false ∉ (putNibble p n) := by
    simp [putNibble]; simp [hne]
  have key : ∀ q v, (q, v) ∈ [(p.d4, n.getLsbD 0), (p.d5, n.getLsbD 1), (p.d6, n.getLsbD 2), (p.d7, n.getLsbD 3)] →
      q ≠ p.e ∧ levelAfter q (Sparse.read latch q) (putNibble p n) = some v := by
    intro q v hq
    simp only [List.mem_cons, Prod.mk.injEq, List.not_mem_nil, or_false] at hq
    casesm* _ ∨ _
    all_goals
      obtain ⟨rfl, rfl⟩ := ‹q = _ ∧ v = _›
      exact ⟨Ne.symm (by tauto), by simp only [putNibble, levelAfter]; simp [hne, Ne.symm]⟩
  have krs : levelAfter p.rs (Sparse.read latch p.rs) (putNibble p n) = some rs := by
    simp only [putNibble, levelAfter]
    rw [if_neg (Ne.symm (by tauto)), if_neg (Ne.symm (by tauto)), if_neg (Ne.symm (by tauto)), if_neg (Ne.symm (by tauto)), hrs]
  refine ⟨Sparse.write (Sparse.write (latchAfter latch (putNibble p n)) p.e true) p.e false, fun rest => ?_, ?_⟩
  · rw [traceOf_append, List.append_assoc, latchedTransfers_no_fall ⟨.fourBit, p⟩ _ h1]
    simp only [traceOf, pulse, List.cons_append, List.nil_append, List.map_cons, List.map_nil, Action.event, latchedTransfers]
    simp only [Bool.true_eq_false, and_false, if_false, and_self, if_true, gapAfter, tEPost]
    congr 2
    apply transferAt_four
    · rw [Sparse.read_write, if_neg (by tauto), Sparse.read_write, if_neg (by tauto)]
      have := read_latchAfter (putNibble p n) latch p.rs
      rw [krs] at this; rw [this]; rfl
    · intro q v hq
      obtain ⟨a, b'⟩ := key q v hq
      rw [Sparse.read_write, if_neg a, Sparse.read_write, if_neg a]
      have := read_latchAfter (putNibble p n) latch q
      rw [b'] at this; rw [this]; rfl
  · rw [Sparse.read_write, if_neg (by tauto), Sparse.read_write, if_neg (by tauto)]
    rw [read_latchAfter, krs]

theorem latchedTransfers_sendNibble4 (p : PinRecord) (hd : distinct (set4 p) = true) (latch : List (PinId × Level))
    (n : Nibble) :
  ∃ latch', ∀ rest, latchedTransfers ⟨.fourBit, p⟩ latch (traceOf (sendNibble ⟨.fourBit, p⟩ n) ++ rest) =
      (.t4 false n, 40 + gapAfter p.e rest) :: latchedTransfers ⟨.fourBit, p⟩ latch' rest := by
  have hne := pairwise_of_distinct hd
  simp only [set4, List.pairwise_cons, List.mem_cons, forall_eq_or_imp, List.not_mem_nil, false_implies, implies_true,
    List.Pairwise.nil, and_true] at hne
  obtain ⟨l', a, b⟩ := latchedTransfers_nibble p hd (Sparse.write latch p.rs false) false n (by simp)
  refine ⟨l', fun rest => ?_⟩
  have : sendNibble ⟨.fourBit, p⟩ n = [.set p.rs false] ++ (putNibble p n ++ pulse p) := by simp [sendNibble]
  rw [this, traceOf_append, List.append_assoc, latchedTransfers_no_fall ⟨.fourBit, p⟩ _ (by simp; exact Ne.symm (by tauto))]
  exact a rest

theorem latchedTransfers_send4 (p : PinRecord) (hd : distinct (set4 p) = true) (latch : List (PinId × Level))
    (rs : Level) (b : Byte) :
  ∃ latch', ∀ rest, latchedTransfers ⟨.fourBit, p⟩ latch (traceOf (send4 p rs b) ++ rest) =
      (.t4 rs (b.extractLsb' 4 4), 40) :: (.t4 rs (b.extractLsb' 0 4), 40 + gapAfter p.e rest) :: latchedTransfers
      ⟨.fourBit, p⟩ latch' rest := by
  have hne := pairwise_of_distinct hd
  simp only [set4, List.pairwise_cons, List.mem_cons, forall_eq_or_imp, List.not_mem_nil, false_implies, implies_true,
    List.Pairwise.nil, and_true] at hne
  obtain ⟨l', a, b1⟩ := latchedTransfers_nibble p hd (Sparse.write latch p.rs rs) rs (b.extractLsb' 4 4) (by simp)
  obtain ⟨l2, a2, b2⟩ := latchedTransfers_nibble p hd l' rs (b.extractLsb' 0 4) b1
  refine ⟨l2, fun rest => ?_⟩
  have : send4 p rs b =
      [.set p.rs rs] ++ ((putNibble p (b.extractLsb' 4 4) ++ pulse p) ++ (putNibble p (b.extractLsb' 0 4) ++ pulse p)) := by
      simp [send4]
  rw [this, traceOf_append, List.append_assoc, latchedTransfers_no_fall ⟨.fourBit,
      p⟩ _ (by simp; intro h; exact absurd h.symm (by tauto))]
  rw [traceOf_append, List.append_assoc]
  simp only [latchAfter]
  rw [a, a2, gapAfter_putNibble]

theorem latchedTransfers_no_set (bus : Bus) (as : List Action) (h : ∀ p v, Action.set p v ∉ as)
    (l : List (PinId × Level)) (rest : List Event) :
  latchedTransfers bus l (traceOf as ++ rest) = latchedTransfers bus l rest := by
  rw [latchedTransfers_no_fall bus as (h _ _)]
  congr 1
  induction as generalizing l with
  | nil => rfl
  | cons a r ih =>
    cases a with
    | set p v => exact absurd (by simp) (h p v)
    | wait n => exact ih (fun p v hh => h p v (by simp [hh])) l
    | configure n => exact ih (fun p v hh => h p v (by simp [hh])) l

/-! ### The lines after a transmission -/

/-- What SEND on eight lines leaves on the pins: RS and each data line at its level, E low (rules R92 and R100). -/
theorem levels_after_send8 (p : PinRecord) (hd : distinct (set8 p) = true) (rs : Level) (b : Byte) (l : Option Level) :
    ∀ x ∈ [(p.rs, rs), (p.e, false), (p.d0, b.getLsbD 0), (p.d1, b.getLsbD 1), (p.d2, b.getLsbD 2), (p.d3, b.getLsbD 3),
      (p.d4, b.getLsbD 4), (p.d5, b.getLsbD 5), (p.d6, b.getLsbD 6), (p.d7, b.getLsbD 7)],
      levelAfter x.1 l (send8 p rs b) = some x.2 := by
  have hne := pairwise_of_distinct hd
  have hne' := List.pairwise_reverse.2 (hne.imp Ne.symm)
  simp only [set8, List.reverse_cons, List.reverse_nil, List.nil_append, List.cons_append, List.pairwise_cons, List.mem_cons,
    forall_eq_or_imp, List.not_mem_nil, false_implies, implies_true, List.Pairwise.nil, and_true] at hne hne'
  simp only [List.forall_mem_cons, send8, putByte, pulse, levelAfter, List.cons_append, List.nil_append]
  simp [hne, hne']

/-- What the last nibble on four lines leaves on the pins, RS being driven before (rules R91 and R100). -/
theorem levels_after_nibble (p : PinRecord) (hd : distinct (set4 p) = true) (n : Nibble) (l : Option Level) :
    (∀ x ∈ [(p.e, false), (p.d4, n.getLsbD 0), (p.d5, n.getLsbD 1), (p.d6, n.getLsbD 2), (p.d7, n.getLsbD 3)],
      levelAfter x.1 l (putNibble p n ++ pulse p) = some x.2) ∧ levelAfter p.rs l (putNibble p n ++ pulse p) = l := by
  have hne := pairwise_of_distinct hd
  have hne' := List.pairwise_reverse.2 (hne.imp Ne.symm)
  simp only [set4, List.reverse_cons, List.reverse_nil, List.nil_append, List.cons_append, List.pairwise_cons, List.mem_cons,
    forall_eq_or_imp, List.not_mem_nil, false_implies, implies_true, List.Pairwise.nil, and_true] at hne hne'
  simp only [List.forall_mem_cons, putNibble, pulse, levelAfter, List.cons_append, List.nil_append]
  simp [hne, hne']

/-- A transfer stands on the lines: every pin of the active set is driven, and RS and the data lines make it. -/
theorem lines_of_levels8 {p : PinRecord} {rs : Level} {b : Byte} {u : State}
    (h : ∀ x ∈ [(p.rs, rs), (p.e, false), (p.d0, b.getLsbD 0), (p.d1, b.getLsbD 1), (p.d2, b.getLsbD 2), (p.d3, b.getLsbD 3),
      (p.d4, b.getLsbD 4), (p.d5, b.getLsbD 5), (p.d6, b.getLsbD 6), (p.d7, b.getLsbD 7)], u.latchOf x.1 = some x.2) :
    (∀ q ∈ set8 p, u.latchOf q ≠ none) ∧ u.latchedTransfer ⟨.eightBit, p⟩ = .t8 rs b := by
  constructor
  · intro q hq
    have hq : q ∈ [(p.rs, rs), (p.e, false), (p.d0, b.getLsbD 0), (p.d1, b.getLsbD 1), (p.d2, b.getLsbD 2), (p.d3, b.getLsbD 3),
      (p.d4, b.getLsbD 4), (p.d5, b.getLsbD 5), (p.d6, b.getLsbD 6), (p.d7, b.getLsbD 7)].map Prod.fst := hq
    obtain ⟨x, hx, rfl⟩ := List.mem_map.1 hq
    rw [h x hx]; simp
  · exact transferAt_eight p rs b _ (State.levelOf_of_latch (h _ (List.mem_cons_self ..))) fun q v hq =>
      State.levelOf_of_latch (h (q, v) (List.mem_cons_of_mem _ (List.mem_cons_of_mem _ hq)))

theorem lines_of_levels4 {p : PinRecord} {rs : Level} {n : Nibble} {u : State} (h0 : u.latchOf p.rs = some rs)
    (h : ∀ x ∈ [(p.e, false), (p.d4, n.getLsbD 0), (p.d5, n.getLsbD 1), (p.d6, n.getLsbD 2), (p.d7, n.getLsbD 3)],
      u.latchOf x.1 = some x.2) :
    (∀ q ∈ set4 p, u.latchOf q ≠ none) ∧ u.latchedTransfer ⟨.fourBit, p⟩ = .t4 rs n := by
  constructor
  · intro q hq
    rcases List.mem_cons.1 hq with rfl | hq
    · rw [h0]; simp
    · have hq : q ∈ [(p.e, false), (p.d4, n.getLsbD 0), (p.d5, n.getLsbD 1), (p.d6, n.getLsbD 2), (p.d7, n.getLsbD 3)].map
        Prod.fst := hq
      obtain ⟨x, hx, rfl⟩ := List.mem_map.1 hq
      rw [h x hx]; simp
  · exact transferAt_four p rs n _ (State.levelOf_of_latch h0) fun q v hq =>
      State.levelOf_of_latch (h (q, v) (List.mem_cons_of_mem _ hq))

/-- After SEND, RS and the data lines hold its last transfer (rule R100). -/
theorem send_lines (bus : Bus) (hd : distinct (activeSet bus.mode bus.pins) = true) (rs : Level) (b : Byte) (s : State) :
    let u := State.performAll bus (send bus rs b) s
    (∀ q ∈ activeSet bus.mode bus.pins, u.latchOf q ≠ none) ∧
    (transfersOfWord bus.mode rs b).getLast? = some (u.latchedTransfer bus) := by
  obtain ⟨m, p⟩ := bus
  cases m with
  | eightBit =>
    obtain ⟨h1, h2⟩ := lines_of_levels8 (u := State.performAll ⟨.eightBit, p⟩ (send ⟨.eightBit, p⟩ rs b) s)
      (fun x hx => by rw [latchOf_performAll]; exact levels_after_send8 p hd rs b _ x hx)
    exact ⟨h1, by rw [h2]; rfl⟩
  | fourBit =>
    have hsplit : send ⟨.fourBit, p⟩ rs b = (.set p.rs rs :: (putNibble p (b.extractLsb' 4 4) ++ pulse p)) ++
        (putNibble p (b.extractLsb' 0 4) ++ pulse p) := by simp [send, send4]
    obtain ⟨h1, h2⟩ := lines_of_levels4 (u := State.performAll ⟨.fourBit, p⟩ (send ⟨.fourBit, p⟩ rs b) s) (rs := rs)
      (by rw [latchOf_performAll, hsplit, levelAfter_append, (levels_after_nibble p hd _ _).2, levelAfter, if_pos rfl,
        (levels_after_nibble p hd _ _).2])
      (fun x hx => by rw [latchOf_performAll, hsplit, levelAfter_append]; exact (levels_after_nibble p hd _ _).1 x hx)
    exact ⟨h1, by rw [h2]; rfl⟩

/-- After SEND_NIBBLE, RS and the data lines hold its transfer (rules R95 and R100). -/
theorem sendNibble_lines (bus : Bus) (hd : distinct (activeSet bus.mode bus.pins) = true) (n : Nibble) (s : State) :
    let u := State.performAll bus (sendNibble bus n) s
    (∀ q ∈ activeSet bus.mode bus.pins, u.latchOf q ≠ none) ∧
    u.latchedTransfer bus = (match bus.mode with | .eightBit => .t8 false (n ++ 0x0#4) | .fourBit => .t4 false n) := by
  obtain ⟨m, p⟩ := bus
  cases m with
  | eightBit =>
    obtain ⟨h1, h2⟩ := send_lines ⟨.eightBit, p⟩ hd false (n ++ 0x0#4) s
    exact ⟨h1, (Option.some.inj h2).symm⟩
  | fourBit =>
    have hsplit : sendNibble ⟨.fourBit, p⟩ n = .set p.rs false :: (putNibble p n ++ pulse p) := by simp [sendNibble]
    exact lines_of_levels4
      (by rw [latchOf_performAll, hsplit, levelAfter, if_pos rfl, (levels_after_nibble p hd _ _).2])
      (fun x hx => by rw [latchOf_performAll, hsplit, levelAfter]; exact (levels_after_nibble p hd _ _).1 x hx)

end Sys2Proof.Machine
end

