-- ==== Sys2Proof/Laws/Format.lean ====
section
/-!
SUPPORT. The number formatters (44_command_layer.md rules R165 and R167): the digits written, and the exact arithmetic behind
the fixed-point text.
-/

namespace Sys2Proof.Machine

/-! ### Decimal digits -/

theorem lastDigits_eq (p n : Nat) : lastDigits p n = (List.range p).reverse.map (fun k => digitByte (n / 10 ^ k % 10)) := by
  induction p with
  | zero => rfl
  | succ k ih => simp [lastDigits, ih, List.range_succ]

theorem digitByte_eq (k : Nat) : digitByte k = BitVec.ofNat 8 (0x30 + k) := by
  simp [digitByte, BitVec.ofNat_add]

theorem digitByte_range (k : Nat) (hk : k < 10) : 0x30 ≤ (digitByte k).toNat ∧ (digitByte k).toNat ≤ 0x39 := by
  interval_cases k <;> decide

theorem digitsOnto_range (fuel u : Nat) (acc : List Byte) (hacc : ∀ b ∈ acc, 0x30 ≤ b.toNat ∧ b.toNat ≤ 0x39)  :
   (∀ b ∈ digitsOnto fuel u acc, 0x30 ≤ b.toNat ∧ b.toNat ≤ 0x39) := by
  induction fuel generalizing u acc with
  | zero => exact hacc
  | succ n ih =>
    simp only [digitsOnto]
    split
    · rename_i h; intro b hb; rcases List.mem_cons.1 hb with rfl | hb
      · exact digitByte_range _ h
      · exact hacc b hb
    · apply ih; intro b hb; rcases List.mem_cons.1 hb with rfl | hb
      · exact digitByte_range _ (Nat.mod_lt _ (by omega))
      · exact hacc b hb

/-- `digitsOnto` with fuel enough: at least one digit is written, reading the digits back gives the number, and a positive
number starts with no zero. -/
theorem digitsOnto_spec (fuel u : Nat) (acc : List Byte) (h : u < 10 ^ fuel)
    (hacc : ∀ b ∈ acc, 0x30 ≤ b.toNat ∧ b.toNat ≤ 0x39) (hf : 0 < fuel) :
   (∀ b ∈ digitsOnto fuel u acc, 0x30 ≤ b.toNat ∧ b.toNat ≤ 0x39) ∧ digitsOnto fuel u acc ≠ [] ∧
   (∀ z, (digitsOnto fuel u acc).foldl (fun acc b => acc * 10 + (b.toNat - 0x30)) z =
      acc.foldl (fun acc b => acc * 10 + (b.toNat - 0x30)) (z * 10 ^ ((digitsOnto fuel u acc).length - acc.length) + u)) ∧
   acc.length < (digitsOnto fuel u acc).length ∧
   (0 < u → (digitsOnto fuel u acc).head? ≠ some 0x30#8) := by
  have dv : ∀ k, k < 10 → (digitByte k).toNat = 0x30 + k := by
    intro k hk; interval_cases k <;> rfl
  induction fuel generalizing u acc with
  | zero => omega
  | succ n ih =>
    simp only [digitsOnto]
    split
    · rename_i h10
      have := dv u h10
      refine ⟨?_, by simp, ?_, by simp, ?_⟩
      · intro b hb; rcases List.mem_cons.1 hb with rfl | hb
        · omega
        · exact hacc b hb
      · intro z; simp [this]
      · intro hu; simp; intro hh; rw [hh] at this; simp at this; omega
    · rename_i h10
      have hd := dv (u % 10) (Nat.mod_lt _ (by omega))
      have hn : 0 < n := by
        rcases Nat.eq_zero_or_pos n with rfl | h'
        · simp at h; omega
        · exact h'
      have := ih (u/10) (digitByte (u%10) :: acc) (by rw [pow_succ] at h; omega) (by
        intro b hb; rcases List.mem_cons.1 hb with rfl | hb
        · omega
        · exact hacc b hb) hn
      obtain ⟨a, b, c, d, e⟩ := this
      refine ⟨a, b, ?_, ?_, ?_⟩
      · intro z
        rw [c]
        simp only [List.foldl_cons, hd]
        congr 1
        simp only [List.length_cons] at d ⊢
        have : (digitsOnto n (u/10) (digitByte (u % 10) :: acc)).length - acc.length =
            ((digitsOnto n (u/10) (digitByte (u % 10) :: acc)).length - (acc.length+1)) + 1 := by omega
        rw [this, pow_succ]
        have := Nat.div_add_mod u 10
        generalize 10 ^ ((digitsOnto n (u/10) (digitByte (u % 10) :: acc)).length - (acc.length+1)) = P
        rw [Nat.add_mul, Nat.mul_assoc, Nat.add_assoc]; congr 1; omega
      · simp only [List.length_cons] at d; omega
      · intro _; exact e (by omega)

/-- The fuel `digits` gives is enough. -/
theorem lt_ten_pow_log2 (u : Nat) : u < 10 ^ (Nat.log2 u + 1) := by
  have h1 : u < 2 ^ (Nat.log2 u + 1) := Nat.lt_log2_self
  exact lt_of_lt_of_le h1 (Nat.pow_le_pow_left (by omega) _)

/-! ### Exact arithmetic -/

theorem bitLength_mul_pow (m k : Nat) (hm : m ≠ 0) : bitLength (m * 2 ^ k) = bitLength m + k := by
  have : m * 2 ^ k ≠ 0 := by positivity
  simp only [bitLength, hm, this, if_false, Nat.log2_eq_log_two]
  have : Nat.log 2 (m * 2 ^ k) = Nat.log 2 m + k := by
    induction k with
    | zero => simp
    | succ j ih => rw [pow_succ, ← mul_assoc, Nat.log_mul_base (by norm_num) (by positivity), ih (by positivity)]; omega
  omega

theorem two_pow_dvd_odd_mul (m k j : Nat) (hm : m % 2 = 1) : 2 ^ j ∣ m * 2 ^ k ↔ j ≤ k := by
  constructor
  · intro h
    have hc : Nat.Coprime (2 ^ j) m := Nat.Coprime.pow_left _ ((Nat.coprime_two_left).2 (Nat.odd_iff.2 hm))
    have := hc.dvd_of_dvd_mul_left h
    exact (Nat.pow_dvd_pow_iff_le_right (by norm_num)).1 this
  · intro h; exact Dvd.dvd.mul_left (pow_dvd_pow _ h) _

/-- `natRepresentable` says that the format has the integer. -/
theorem natRepresentable_iff (fmt : FloatFmt) (n : Nat) : natRepresentable fmt n = true ↔ ∃ m e,
    floatRepresentable fmt (.finite false m e) = true ∧ (m : ℚ) * 2 ^ e = n := by
  rcases Nat.eq_zero_or_pos n with rfl | hn
  · constructor
    · intro _; exact ⟨0, 0, by simp [floatRepresentable], by simp⟩
    · intro _; simp [natRepresentable]
  · obtain ⟨k, m, hm, rfl⟩ := Nat.exists_eq_two_pow_mul_odd (n := n) (by omega)
    have hm1 := Nat.odd_iff.1 hm
    have hm0 : m ≠ 0 := by omega
    rw [mul_comm]
    have hbl := bitLength_mul_pow m k hm0
    have hb0 : ((m * 2 ^ k) == 0) = false := by simp; omega
    have key : natRepresentable fmt (m * 2 ^ k) = true ↔ floatRepresentable fmt (.finite false m k) = true := by
      simp only [natRepresentable, floatRepresentable, hm0, if_false, hbl, hb0, Bool.or_false, Bool.and_eq_true,
          beq_iff_eq, decide_eq_true_eq, hm1, true_and, ← Nat.dvd_iff_mod_eq_zero, two_pow_dvd_odd_mul m k _ hm1]
      push_cast
      omega
    rw [key]
    constructor
    · intro h; exact ⟨m, k, h, by push_cast; simp⟩
    · rintro ⟨m', e', h1, h2⟩
      have hm' : m' ≠ 0 := by rintro rfl; simp at h2; omega
      have ho' : m' % 2 = 1 := by simp [floatRepresentable, hm'] at h1; exact h1.1.1.1
      -- m' * 2^e' = m * 2^k
      have : m' = m ∧ e' = k := by
        push_cast at h2
        rcases le_or_gt 0 e' with he | he
        · obtain ⟨e, rfl⟩ := Int.eq_ofNat_of_zero_le he
          have h3 : m' * 2 ^ e = m * 2 ^ k := by
            have : ((m' * 2 ^ e : Nat) : ℚ) = ((m * 2 ^ k : Nat) : ℚ) := by push_cast; simpa using h2
            exact_mod_cast this
          have a1 := (two_pow_dvd_odd_mul m k e hm1).1 (h3 ▸ Dvd.intro_left _ rfl)
          have a2 := (two_pow_dvd_odd_mul m' e k ho').1 (h3.symm ▸ Dvd.intro_left _ rfl)
          have : e = k := le_antisymm a1 a2
          subst this
          exact ⟨Nat.eq_of_mul_eq_mul_right (by positivity) h3, rfl⟩
        · exfalso
          obtain ⟨e, rfl⟩ : ∃ e : Nat, e' = -(e : Int) := ⟨(-e').toNat, by omega⟩
          have h3 : m' = m * 2 ^ k * 2 ^ e := by
            have : ((m' : Nat) : ℚ) = ((m * 2 ^ k * 2 ^ e: Nat) : ℚ) := by
              push_cast; rw [← h2]; simp
            exact_mod_cast this
          have : 2 ∣ 2 ^ e := dvd_pow_self 2 (by omega)
          have : 2 ∣ m' := h3 ▸ Dvd.dvd.mul_left this _
          omega
      obtain ⟨rfl, rfl⟩ := this
      exact h1

/-- `exactScaled` answers the integer `m * 2^e * 10^p` where the format has it. -/
theorem exactScaled_eq (fmt : FloatFmt) (m : Nat) (e : Int) (p n : Nat) : exactScaled fmt m e p = some n ↔
    (m : ℚ) * 2 ^ e * 10 ^ p = n ∧ natRepresentable fmt n = true := by
  unfold exactScaled
  rcases le_or_gt 0 e with he | he
  · obtain ⟨k, rfl⟩ := Int.eq_ofNat_of_zero_le he
    have : (m : ℚ) * 2 ^ (k : Int) * 10 ^ p = n ↔ m * 2 ^ k * 10 ^ p = n := by
      rw [zpow_natCast]; exact_mod_cast Iff.rfl
    rw [this]
    simp only [he, if_true, Int.toNat_natCast]
    constructor
    · intro h; split at h
      · cases h; exact ⟨rfl, by assumption⟩
      · cases h
    · rintro ⟨rfl, h⟩; rw [if_pos h]
  · obtain ⟨k, rfl⟩ : ∃ k : Nat, e = -(k : Int) := ⟨(-e).toNat, by omega⟩
    rw [if_neg (by omega)]
    have : (m : ℚ) * 2 ^ (-(k : Int)) * 10 ^ p = n ↔ m * 10 ^ p = n * 2 ^ k := by
      rw [zpow_neg, zpow_natCast]
      have h2 : (2 : ℚ) ^ k ≠ 0 := by positivity
      rw [show (m : ℚ) * (2 ^ k)⁻¹ * 10 ^ p = (m * 10 ^ p) / 2 ^ k by field_simp, div_eq_iff h2]
      exact_mod_cast Iff.rfl
    rw [this]
    simp only [neg_neg, Int.toNat_natCast]
    have hpos : 0 < 2 ^ k := by positivity
    constructor
    · intro h; split at h
      · rename_i hh; cases h; exact ⟨by rw [Nat.div_mul_cancel (Nat.dvd_of_mod_eq_zero hh.1)], hh.2⟩
      · cases h
    · rintro ⟨h, h'⟩
      have : m * 10 ^ p / 2 ^ k = n := by rw [h]; exact Nat.mul_div_cancel _ hpos
      rw [this, if_pos ⟨by rw [h]; simp, h'⟩]

/-- `isNearest314159` measures the distance to 3.14159. -/
theorem isNearest314159_iff (fmt : FloatFmt) (m : Nat) (e : Int) (he : e ≤ 0) : isNearest314159 fmt m e = true ↔
    |(m : ℚ) * 2 ^ e - 314159 / 100000| * 2 ^ (fmt.mantBits - 1) ≤ 1 := by
  obtain ⟨k, rfl⟩ : ∃ k : Nat, e = -(k : Int) := ⟨(-e).toNat, by omega⟩
  simp only [isNearest314159, he, neg_neg, Int.toNat_natCast, decide_true, Bool.true_and, decide_eq_true_eq]
  have h2 : (0 : ℚ) < 2 ^ k := by positivity
  have : |(m : ℚ) * 2 ^ (-(k:Int)) - 314159 / 100000| =
      ((((m * 100000 : Int) - 314159 * 2 ^ k).natAbs : Nat) : ℚ) / (100000 * 2 ^ k) := by
    rw [Nat.cast_natAbs, zpow_neg, zpow_natCast]
    push_cast
    rw [show (m : ℚ) * (2 ^ k)⁻¹ - 314159 / 100000 = ((m : ℚ) * 100000 - 314159 * 2 ^ k) / (100000 * 2 ^ k) by field_simp, abs_div]
    congr 1
    exact abs_of_pos (by positivity)
  rw [this, div_mul_eq_mul_div, div_le_one (by positivity)]
  exact_mod_cast Iff.rfl

end Sys2Proof.Machine
end

