-- ==== Sys2Proof/Laws/PerInstr.lean ====
section
/-!
SUPPORT. The family TableRow: every instruction's code word lies in its own row of spec/opcode_table.json (the row's format
width, mask and match) and in no other row of that format (30_encoding.md rules R67 and R74).
-/

namespace Sys2Proof.Laws.TableRow

/-- A row of the table: its format's width in bits, its mask, and the bits to match. -/
structure Row where
  width : Nat
  mask  : Nat
  bits  : Nat
  deriving DecidableEq, Repr

/-- The table's rows, in its order. -/
def table : List Row :=
  [⟨5, 0x1F, 0x03⟩, ⟨5, 0x1F, 0x02⟩, ⟨9, 0x1FF, 0x038⟩, ⟨9, 0x1FF, 0x028⟩, ⟨9, 0x1FF, 0x00C⟩, ⟨9, 0x1FF, 0x001⟩,
   ⟨9, 0x1FF, 0x006⟩, ⟨9, 0x180, 0x080⟩, ⟨9, 0x100, 0x100⟩, ⟨4, 0xF, 0x0⟩, ⟨4, 0xF, 0x1⟩, ⟨4, 0xF, 0x2⟩, ⟨4, 0xF, 0x3⟩,
   ⟨4, 0xF, 0x4⟩, ⟨4, 0xF, 0x5⟩, ⟨4, 0xF, 0x6⟩, ⟨4, 0xF, 0x7⟩, ⟨4, 0x8, 0x8⟩]

/-- The position of an instruction's row in the table. -/
def position : Instr → Nat
  | .nibFset8 => 0
  | .nibFset4 => 1
  | .functionSet8bit => 2
  | .functionSet4bit => 3
  | .displayControl => 4
  | .clearDisplay => 5
  | .entryMode => 6
  | .setDdramAddr _ => 7
  | .writeData _ => 8
  | .init _ => 9
  | .clear => 10
  | .setCursor _ _ => 11
  | .printChars _ => 12
  | .printInt _ => 13
  | .printFloat _ _ => 14
  | .progressBar _ _ => 15
  | .clearRow _ => 16
  | .reserved _ => 17

/-- The width and the bits of a code word. -/
def widthAndBits : CodeWord → Nat × Nat
  | .n5 w => (5, w.toNat)
  | .b9 w => (9, w.toNat)
  | .req op _ => (4, op.toNat)
  | .raw nbits w => (nbits, w)

/-- The positions of the rows whose width and masked bits are the word's. -/
def rowsOf (c : CodeWord) : List Nat :=
  (List.range 18).filter (fun k =>
    match table[k]? with
    | some r => (widthAndBits c).1 == r.width && (widthAndBits c).2 &&& r.mask == r.bits
    | none => false)

/-- The instruction's word matches its row and no other. -/
def Statement (i : Instr) : Prop := rowsOf (encode i) = [position i]

/-- The operand record does not matter to the row of a request. -/
theorem rowsOf_req (op : BitVec 4) (operands : List Operand) : rowsOf (.req op operands) = rowsOf (.req op []) := rfl

theorem nibFset8 : Statement .nibFset8 := by unfold Statement; decide
theorem nibFset4 : Statement .nibFset4 := by unfold Statement; decide
theorem functionSet8bit : Statement .functionSet8bit := by unfold Statement; decide
theorem functionSet4bit : Statement .functionSet4bit := by unfold Statement; decide
theorem displayControl : Statement .displayControl := by unfold Statement; decide
theorem clearDisplay : Statement .clearDisplay := by unfold Statement; decide
theorem entryMode : Statement .entryMode := by unfold Statement; decide
theorem setDdramAddr (a : BitVec 7) : Statement (.setDdramAddr a) := by unfold Statement; revert a; decide +kernel
theorem writeData (d : Byte) : Statement (.writeData d) := by unfold Statement; revert d; decide +kernel
theorem init (pins : Option PinRecord) : Statement (.init pins) :=
    (rowsOf_req 0x0#4 _).trans (show rowsOf (.req 0x0#4 []) = [9] by decide)
theorem clear : Statement .clear := by unfold Statement; decide
theorem setCursor (row col : Int) : Statement (.setCursor row col) :=
    (rowsOf_req 0x2#4 _).trans (show rowsOf (.req 0x2#4 []) = [11] by decide)
theorem printChars (text : Option (List Byte)) : Statement (.printChars text) :=
  (rowsOf_req 0x3#4 _).trans (show rowsOf (.req 0x3#4 []) = [12] by decide)
theorem printInt (value : Int) : Statement (.printInt value) :=
    (rowsOf_req 0x4#4 _).trans (show rowsOf (.req 0x4#4 []) = [13] by decide)
theorem printFloat (value : FloatVal) (precision : Int) : Statement (.printFloat value precision) :=
  (rowsOf_req 0x5#4 _).trans (show rowsOf (.req 0x5#4 []) = [14] by decide)
theorem progressBar (row progress : Int) : Statement (.progressBar row progress) :=
  (rowsOf_req 0x6#4 _).trans (show rowsOf (.req 0x6#4 []) = [15] by decide)
theorem clearRow (row : Int) : Statement (.clearRow row) :=
    (rowsOf_req 0x7#4 _).trans (show rowsOf (.req 0x7#4 []) = [16] by decide)
theorem reserved (low : BitVec 3) : Statement (.reserved low) := by unfold Statement; revert low; decide

end Sys2Proof.Laws.TableRow
end

