-- ==== Sys2Proof/Laws/Receiver.lean ====
section
/-!
SUPPORT. What transmissions do to the receiver's observer model (42_bus_words.md rules R110 to R121): one word taken in step
with the block, the three wake-up nibbles of INIT from any receiver state, and runs of data words.
-/

namespace Sys2Proof.Machine

/-! ### The canonical form -/

theorem wf_wordEffect {k : Nat} {rs : Level} {d : Byte} {r q : Receiver} (h : Memory.wf r.ddram = true)
    (hq : wordEffect k rs d r = some q) : Memory.wf q.ddram = true := by
  unfold wordEffect at hq
  split_ifs at hq <;> obtain rfl := Option.some.inj hq <;>
    first | exact h | exact Memory.wf_write _ _ _ h | exact Memory.wf_cleared

theorem wf_execWord (k t : Nat) (rs : Level) (d : Byte) (r : Receiver) (h : Memory.wf r.ddram = true) :
    Memory.wf (execWord k t rs d r).ddram = true := by
  unfold execWord
  split
  · rename_i q hq; exact wf_wordEffect (q := q) h hq
  · unfold unlistedWord; split <;> exact Memory.wf_draw k

/-- Whatever transfer the receiver takes, DDRAM keeps its canonical form. -/
theorem wf_recv (k t : Nat) (x : Transfer) (r : Receiver) (h : Memory.wf r.ddram = true) :
    Memory.wf (recv k t x r).ddram = true := by
  unfold recv
  split
  · exact Memory.wf_draw k
  · split
    · exact wf_execWord _ _ _ _ _ h
    · split
      · exact h
      · exact wf_execWord _ _ _ _ _ h

/-! ### One word, the receiver in step -/

/-- In four-bit width, with a fresh pair, a word does the same whatever nibble is held. -/
theorem wordEffect_of_pair (k : Nat) (rs : Level) (b : Byte) (r : Receiver) (h : Nibble) (hi : r.ifw = .four)
    (hp : r.phase = .high) : wordEffect k rs b { r with held := h, phase := .high } =
      (wordEffect k rs b r).map (fun q => { q with held := h }) := by
  unfold wordEffect
  split_ifs <;> simp [nextAc, hp, functionSet, hi]

/-- The two nibbles of a byte, high one first, are the byte (30_encoding.md rule R62). -/
theorem nibbles_append (b : Byte) : (b.extractLsb' 4 4 ++ b.extractLsb' 0 4 : BitVec 8) = b := by revert b; decide

/-- A bus word delivered to a free receiver whose width and phase fit the mode has its effect, and makes it busy for its time. -/
theorem word_taken {s u : State} {m : BusWidthMode} {rs : Level} {b : Byte} {effect : Nat → Receiver}
    (hw : s.receiver.ifw = widthOf m) (hp : m = .fourBit → s.receiver.phase = .high) (hb : s.receiver.busyUntil ≤ s.now + 1)
    (he : ∀ k, wordEffect k rs b s.receiver = some (effect k)) (hd : Delivers s (transfersOfWord m rs b) u) :
    ∃ k t h, s.now + 1 ≤ t ∧ t + 40 ≤ u.now ∧ u.receiver = { effect k with held := h, busyUntil := t + execTime rs b } := by
  cases m with
  | eightBit =>
    obtain ⟨k, t, w, h1, h2, h3, h4, h5⟩ := hd
    refine ⟨k, t, (effect k).held, h1, by omega, ?_⟩
    rw [h4, h3]
    have hw : s.receiver.ifw = .eight := hw
    have ht : ¬t < s.receiver.busyUntil := by omega
    simp [recv, hw, ht, execWord, Transfer.rs, Transfer.byte, he]
  | fourBit =>
    obtain ⟨k, t, w, h1, h2, h3, k', t', w', h1', h2', h3', h4, h5⟩ := hd
    have hw : s.receiver.ifw = .four := hw
    have hp := hp rfl
    have e1 : w.receiver = { s.receiver with held := b.extractLsb' 4 4, phase := .low } := by
      rw [h3]; simp [recv, hw, hp, Transfer.nibble]; omega
    refine ⟨k', t', b.extractLsb' 4 4, by omega, by omega, ?_⟩
    rw [h4, h3', e1]
    have ht : ¬ t' < s.receiver.busyUntil := by omega
    have hpair := wordEffect_of_pair k' rs b s.receiver (b.extractLsb' 4 4) hw hp
    rw [he, hw] at hpair
    simp only [recv, hw, ht, if_false, execWord, Transfer.rs, Transfer.nibble, nibbles_append]
    rw [hpair]; rfl

/-- SEND to a receiver in step (rules R94 and R110). -/
theorem send_taken (bus : Bus) (hd : distinct (activeSet bus.mode bus.pins) = true) (rs : Level) (b : Byte) (s : State)
    {effect : Nat → Receiver} (he : ∀ k, wordEffect k rs b s.receiver = some (effect k))
    (hw : s.receiver.ifw = widthOf bus.mode) (hp : bus.mode = .fourBit → s.receiver.phase = .high)
    (hb : s.receiver.busyUntil ≤ s.now + 1) : ∃ k t h, s.now + 1 ≤ t ∧
      t + 40 ≤ (State.performAll bus (send bus rs b) s).now ∧ (State.performAll bus (send bus rs b) s).receiver =
      { effect k with held := h, busyUntil := t + execTime rs b } :=
  word_taken hw hp hb he (send_delivers bus hd rs b s).1

/-! What each word does, field by field (rules R116 to R120). -/

theorem wordEffect_data (k : Nat) (d : Byte) (r : Receiver) : wordEffect k true d r =
    some { r with ddram := Memory.write r.ddram r.ac d, ac := nextAc k r } := rfl
theorem wordEffect_clear (k : Nat) (r : Receiver) : wordEffect k false 0x01#8 r =
    some { r with ddram := Memory.cleared, ac := 0x00#7, inc := true } := rfl
/-- A set-address word with an address the block forms. -/
theorem wordEffect_address (k : Nat) {a : BitVec 7} (h : addressFormed a = true) (r : Receiver) :
    wordEffect k false (0x80#8 ||| a.setWidth 8) r = some { r with ac := a } := by
  have hx : ∀ a : BitVec 7, (0x80#8 ||| a.setWidth 8) &&& 0x80#8 = 0x80#8 ∧
      (0x80#8 ||| a.setWidth 8).extractLsb' 0 7 = a := by decide
  simp [wordEffect, hx a, h]

/-- SEND_NIBBLE delivers one transfer in either mode (41_bus_transport.md rule R95). -/
theorem sendNibble_delivers (bus : Bus) (hd : distinct (activeSet bus.mode bus.pins) = true) (n : Nibble) (s : State) :
    Delivers s [match bus.mode with | .eightBit => .t8 false (n ++ 0x0#4) | .fourBit => .t4 false n]
    (State.performAll bus (sendNibble bus n) s) := by
  obtain ⟨m, p⟩ := bus
  cases m with
  | eightBit => exact (send_delivers ⟨.eightBit, p⟩ hd false (n ++ 0x0#4) s).1
  | fourBit => exact (sendNibble4_delivers p hd n s).1

theorem Delivers.wait (bus : Bus) (n : Nat) {xs : List Transfer} {s u : State} (h : Delivers s xs u) :
    Delivers s xs (State.performAll bus [.wait n] u) := by
  obtain ⟨a, b, c⟩ := wait_delivers bus n u
  simpa using h.append (ys := []) ⟨a, by omega⟩

/-! ### The wake-up of INIT -/

/-- Three function-set nibbles 0x3 put any free receiver into eight-bit width, whatever its width and nibble phase
(43_initializer.md rule R134, 93_implementation_defined.md G2). -/
theorem three_wakes {s u : State} {x : Transfer} (hx : x = Transfer.t8 false 0x30#8 ∨ x = .t4 false 0x3#4)
    (hb : s.receiver.busyUntil ≤ s.now + 1)
   (hd : Delivers s [x, x, x] u) : u.receiver.ifw = .eight ∧ u.receiver.busyUntil ≤ u.now := by
  obtain ⟨k1, t1, w1, a1, b1, c1, k2, t2, w2, a2, b2, c2, k3, t3, w3, a3, b3, c3, d, e⟩ := hd
  rw [d]
  have step8 : ∀ (k t : Nat) (r : Receiver), r.busyUntil ≤ t → r.ifw = .eight → (recv k t x r).ifw = .eight ∧
      (recv k t x r).busyUntil = t + 40 := by
    intro k t r h1 h2
    have h1' : ¬ t < r.busyUntil := by omega
    rcases hx with rfl | rfl
    · simp [recv, h1', h2, execWord, Transfer.rs, Transfer.byte, wordEffect, functionSet, execTime]
    · simp only [recv, h1', h2, if_false, execWord, Transfer.rs, Transfer.byte]
      have : ∀ n : Nibble, ((0x3#4 ++ n : BitVec 8) &&& 0x80#8 = 0x80#8) = False ∧
          ((0x3#4 ++ n : BitVec 8) &&& 0xE0#8 = 0x20#8) ∧ (0x3#4 ++ n : BitVec 8).getLsbD 4 = true ∧
          ((0x3#4 ++ n : BitVec 8) = 0x01#8) = False := by decide
      obtain ⟨p1, p2, p3, p4⟩ := this (Config.undrivenLines k)
      simp only [wordEffect, p1, p2, functionSet, p3, execTime, p4]; simp
  have step4h : ∀ (k t : Nat) (r : Receiver), r.busyUntil ≤ t → r.ifw = .four → r.phase = .high → (recv k t x r).ifw =
      .four ∧ (recv k t x r).phase = .low ∧ (recv k t x r).held = 0x3#4 ∧ (recv k t x r).busyUntil ≤ t := by
    intro k t r h1 h2 h3
    have h1' : ¬ t < r.busyUntil := by omega
    rcases hx with rfl | rfl <;> simp [recv, h1', h2, h3, Transfer.nibble, h1]
  have step4l3 : ∀ (k t : Nat) (r : Receiver), r.busyUntil ≤ t → r.ifw = .four → r.phase = .low → r.held = 0x3#4 →
      (recv k t x r).ifw = .eight ∧ (recv k t x r).busyUntil = t + 40 := by
    intro k t r h1 h2 h3 h4
    have h1' : ¬ t < r.busyUntil := by omega
    rcases hx with rfl | rfl <;> simp [recv, h1', h2, h3, h4, Transfer.nibble, execWord, wordEffect, functionSet,
        execTime, Transfer.rs]
  have step4l : ∀ (k t : Nat) (r : Receiver), r.busyUntil ≤ t → r.ifw = .four → r.phase = .low →
      ((recv k t x r).ifw = .eight ∨ ((recv k t x r).ifw = .four ∧ (recv k t x r).phase = .high)) ∧
      (recv k t x r).busyUntil ≤ t + 40 := by
    intro k t r h1 h2 h3
    have h1' : ¬ t < r.busyUntil := by omega
    have hr : x.rs = false := by rcases hx with rfl | rfl <;> rfl
    have hn : x.nibble = 0x3#4 := by rcases hx with rfl | rfl <;> rfl
    have hw : ∀ n : Nibble, ¬ (n ++ 0x3#4 : BitVec 8) = 0x0C#8 ∧ ¬ (n ++ 0x3#4 : BitVec 8) = 0x06#8 ∧
        ¬ (n ++ 0x3#4 : BitVec 8) = 0x01#8 ∧ (n ++ 0x3#4 : BitVec 8).extractLsb' 0 4 = 0x3#4 := by decide
    obtain ⟨w1, w2, w3, w4⟩ := hw r.held
    simp only [recv, h1', h2, h3, if_false, hn, hr, execWord, wordEffect, w1, w2, w3, execTime, Bool.false_eq_true]
    split
    · rename_i q hq
      refine ⟨?_, by simp⟩
      split_ifs at hq <;> obtain rfl := Option.some.inj hq
      · exact .inr ⟨rfl, rfl⟩
      · simp only [functionSet]
        split
        · exact .inl rfl
        · exact .inr ⟨rfl, by simp⟩
    · simp [unlistedWord, w4, execTime, w3]
  have hcase : s.receiver.ifw = .eight ∨ (s.receiver.ifw = .four ∧ s.receiver.phase = .high) ∨
      (s.receiver.ifw = .four ∧ s.receiver.phase = .low) := by
    cases s.receiver.ifw <;> cases s.receiver.phase <;> simp
  rcases hcase with h | ⟨h, h'⟩ | ⟨h, h'⟩
  · obtain ⟨p1, q1⟩ := step8 k1 t1 _ (by omega) h
    rw [← c1] at p1 q1
    obtain ⟨p2, q2⟩ := step8 k2 t2 _ (by omega) p1
    rw [← c2] at p2 q2
    obtain ⟨p3, q3⟩ := step8 k3 t3 _ (by omega) p2
    rw [← c3] at p3 q3
    exact ⟨p3, by omega⟩
  · obtain ⟨p1, q1, r1, s1⟩ := step4h k1 t1 _ (by omega) h h'
    rw [← c1] at p1 q1 r1 s1
    obtain ⟨p2, q2⟩ := step4l3 k2 t2 _ (by omega) p1 q1 r1
    rw [← c2] at p2 q2
    obtain ⟨p3, q3⟩ := step8 k3 t3 _ (by omega) p2
    rw [← c3] at p3 q3
    exact ⟨p3, by omega⟩
  · obtain ⟨p1, q1⟩ := step4l k1 t1 _ (by omega) h h'
    rw [← c1] at p1 q1
    rcases p1 with p1 | ⟨p1, r1⟩
    · obtain ⟨p2, q2⟩ := step8 k2 t2 _ (by omega) p1
      rw [← c2] at p2 q2
      obtain ⟨p3, q3⟩ := step8 k3 t3 _ (by omega) p2
      rw [← c3] at p3 q3
      exact ⟨p3, by omega⟩
    · obtain ⟨p2, q2, r2, s2⟩ := step4h k2 t2 _ (by omega) p1 r1
      rw [← c2] at p2 q2 r2 s2
      obtain ⟨p3, q3⟩ := step4l3 k3 t3 _ (by omega) p2 q2 r2
      rw [← c3] at p3 q3
      exact ⟨p3, by omega⟩

/-! ### The words of the commands -/

/-- The display settings a command leaves alone. -/
def SameSettings (r q : Receiver) : Prop := q.lines = r.lines ∧ q.font = r.font ∧ q.disp = r.disp ∧ q.cursor =
    r.cursor ∧ q.blink = r.blink

/-- A data word to a receiver in step (rule R120). -/
theorem data_taken (bus : Bus) (hd : distinct (activeSet bus.mode bus.pins) = true) (c : Byte) (s : State)
    (h : InStep bus.mode s) :
  let u := State.performAll bus (writeDataEvents c bus) s
  InStep bus.mode u ∧ SameSettings s.receiver u.receiver ∧ u.receiver.ddram = Memory.write s.receiver.ddram s.receiver.ac c ∧
   (s.receiver.ac.toNat ≤ 0x26 ∨ (0x40 ≤ s.receiver.ac.toNat ∧ s.receiver.ac.toNat ≤ 0x66) → u.receiver.ac = s.receiver.ac + 1#7) := by
  obtain ⟨h1, h2, h3, h4, h5⟩ := h
  obtain ⟨k, t, q, a, b, e⟩ := send_taken bus hd true c s (fun k => wordEffect_data k c s.receiver) h1 h2 (by omega)
  intro u
  have e : u.receiver = _ := e
  have b : _ ≤ u.now := b
  simp only [InStep, SameSettings]
  have hx : execTime true c = 40 := by simp [execTime]
  rw [e, hx]
  exact ⟨⟨h1, h2, by simp only; omega, h4, h5⟩, ⟨rfl, rfl, rfl, rfl, rfl⟩, rfl, fun hr => if_pos ⟨h4, hr⟩⟩

/-- A set-address word to a receiver in step (rule R119). -/
theorem address_taken (bus : Bus) (hd : distinct (activeSet bus.mode bus.pins) = true) {x : BitVec 7}
    (hx : addressFormed x = true) (s : State) (h : InStep bus.mode s) :
  let u := State.performAll bus (setDdramAddrEvents x bus) s
  InStep bus.mode u ∧ SameSettings s.receiver u.receiver ∧ u.receiver.ddram = s.receiver.ddram ∧ u.receiver.ac = x := by
  obtain ⟨h1, h2, h3, h4, h5⟩ := h
  obtain ⟨k, t, q, a, b, e⟩ := send_taken bus hd false (0x80#8 ||| x.setWidth 8) s
    (fun k => wordEffect_address k hx s.receiver) h1 h2 (by omega)
  intro u
  have e : u.receiver = _ := e
  have b : _ ≤ u.now := b
  simp only [InStep, SameSettings]
  have ht : ∀ x : BitVec 7, execTime false (0x80#8 ||| x.setWidth 8) = 40 := by decide
  rw [e, ht x]
  exact ⟨⟨h1, h2, by simp only; omega, h4, h5⟩, ⟨rfl, rfl, rfl, rfl, rfl⟩, rfl, rfl⟩

/-- CLEAR_DISPLAY with its wait to a receiver in step (rule R117). -/
theorem clear_taken (bus : Bus) (hd : distinct (activeSet bus.mode bus.pins) = true) (s : State) (h : InStep bus.mode s) :
  let u := State.performAll bus (clearDisplayEvents bus) s
  InStep bus.mode u ∧ SameSettings s.receiver u.receiver ∧ u.receiver.ddram = Memory.cleared ∧ u.receiver.ac = 0#7 := by
  obtain ⟨h1, h2, h3, h4, h5⟩ := h
  obtain ⟨k, t, q, a, b, e⟩ := send_taken bus hd false 0x01#8 s (fun k => wordEffect_clear k s.receiver) h1 h2 (by omega)
  simp only [clearDisplayEvents, State.performAll_append]
  obtain ⟨w1, w2, -⟩ := wait_delivers bus tClear (State.performAll bus (sendCmd bus 1#8) s)
  have e : (State.performAll bus (sendCmd bus 1#8) s).receiver = _ := e
  have b : _ ≤ (State.performAll bus (sendCmd bus 1#8) s).now := b
  simp only [InStep, SameSettings, w1]
  rw [e, show execTime false 0x01#8 = 1600 from rfl]
  exact ⟨⟨h1, h2, le_trans (by simp only [tClear]; omega) w2, rfl, h5⟩, ⟨rfl, rfl, rfl, rfl, rfl⟩, rfl, rfl⟩

theorem SameSettings.trans {a b c : Receiver} (h : SameSettings a b) (g : SameSettings b c) : SameSettings a c := by
  obtain ⟨a1, a2, a3, a4, a5⟩ := h
  obtain ⟨b1, b2, b3, b4, b5⟩ := g
  exact ⟨b1.trans a1, b2.trans a2, b3.trans a3, b4.trans a4, b5.trans a5⟩

/-- A run of data words to a receiver in step. -/
theorem print_taken (bus : Bus) (hd : distinct (activeSet bus.mode bus.pins) = true) (text : List Byte) (s : State)
    (h : InStep bus.mode s) :
  let u := State.performAll bus (printEvents text bus) s
  InStep bus.mode u ∧ SameSettings s.receiver u.receiver := by
  induction text generalizing s with
  | nil => exact ⟨h, rfl, rfl, rfl, rfl, rfl⟩
  | cons c r ih =>
    simp only [printEvents, List.flatMap_cons, State.performAll_append]
    obtain ⟨a, b, -⟩ := data_taken bus hd c s h
    obtain ⟨c, d⟩ := ih _ a
    exact ⟨c, b.trans d⟩

/-- A text that stays within a row stands there afterwards, from the address counter on; every other byte is as before. -/
theorem print_stands (bus : Bus) (hd : distinct (activeSet bus.mode bus.pins) = true) (text : List Byte) (A : Nat)
    (s : State) (h : InStep bus.mode s)
  (hA : s.receiver.ac.toNat = A) (hr : A + text.length ≤ 0x27 ∨ (0x40 ≤ A ∧ A + text.length ≤ 0x67)) :
  let u := State.performAll bus (printEvents text bus) s
  u.receiver.ac.toNat = A + text.length ∧ ∀ a : BitVec 7, Memory.read u.receiver.ddram a = if h : A ≤ a.toNat ∧
      a.toNat < A + text.length then some (text[a.toNat - A]) else Memory.read s.receiver.ddram a := by
  induction text generalizing s A with
  | nil => refine ⟨hA, fun a => ?_⟩; rw [dif_neg (by simp only [List.length_nil]; omega)]; rfl
  | cons c r ih =>
    simp only [List.length_cons] at hr
    simp only [printEvents, List.flatMap_cons, State.performAll_append]
    obtain ⟨a, -, d, e⟩ := data_taken bus hd c s h
    have e := e (by omega)
    have e' : (State.performAll bus (writeDataEvents c bus) s).receiver.ac.toNat = A + 1 := by
      rw [e, BitVec.toNat_add, hA]; simp; omega
    obtain ⟨p, q⟩ := ih (A+1) _ a e' (by omega)
    refine ⟨by rw [List.length_cons, ← Nat.add_assoc, Nat.add_right_comm]; exact p, fun x => ?_⟩
    refine (q x).trans ?_
    simp only [List.length_cons]
    rw [d, Memory.read_write]
    by_cases h1 : x = s.receiver.ac
    · subst h1
      rw [dif_neg (by omega), if_pos rfl, dif_pos (by omega)]
      simp [hA]
    · have : x.toNat ≠ A := by rw [← hA]; exact fun hh => h1 (BitVec.eq_of_toNat_eq hh)
      rw [if_neg h1]
      by_cases h2 : A + 1 ≤ x.toNat ∧ x.toNat < A + 1 + r.length
      · rw [dif_pos h2, dif_pos (by omega)]
        congr 1
        have : x.toNat - A = (x.toNat - (A+1)) + 1 := by omega
        simp [this]
      · rw [dif_neg h2, dif_neg (by omega)]

end Sys2Proof.Machine
end

