-- ==== Sys2Proof/Laws/Timing.lean ====
section
/-!
SUPPORT. Every instruction's event list keeps the enable-pulse timing (70_reset_and_hazards.md rules R210, R211 and R214), and
the shape of INIT's list: the configure calls come first (43_initializer.md rule R130).
-/

namespace Sys2Proof.Machine

/-! ### The shape of the event lists -/

/-- INIT's events are its configure calls and then events that configure nothing. -/
theorem initEvents_shape (bus : Bus) (o : Option PinRecord) (cfg : Config) : ∃ l, (∀ p, Action.configure p ∉ l) ∧
    eventsOf cfg (.init o) bus = (activeSet bus.mode bus.pins).map .configure ++ l := by
  refine ⟨_, ?_, by simp only [eventsOf, initEvents, configureAllEvents, List.append_assoc]; rfl⟩
  intro p
  have hs := fun rs b => no_configure_send bus rs b p
  have hn := fun n => no_configure_sendNibble bus n p
  have h3 : Action.configure p ∉ initStep3Events bus := by unfold initStep3Events; split; exact hn _; simp
  have h4 : Action.configure p ∉ functionSetEvents bus := by unfold functionSetEvents; split <;> exact hs _ _
  simp only [List.mem_append, not_or, initStep2Events, initStep4Events, clearDisplayEvents]
  refine ⟨by simp, ⟨⟨⟨⟨⟨hn _, by simp⟩, hn _⟩, by simp⟩, hn _⟩, by simp⟩, h3, ⟨⟨⟨⟨h4, by simp⟩, h4⟩, by simp⟩, h4⟩,
      hs _ _, ⟨hs _ _, by simp⟩, hs _ _, by simp⟩

/-- A configure call still to come means that the head event is one. -/
theorem configure_of_suffix {cfg : Config} {i : Instr} {bus : Bus} {a : Action} {more : List Action} {p : PinId}
    (h : (a :: more) <:+ eventsOf cfg i bus) (hc : Action.configure p ∈ more) : ∃ q, a = .configure q := by
  by_cases hr : Instr.role i = .initializer
  · cases i <;> first | cases hr
    rename_i o
    obtain ⟨l, hl, e⟩ := initEvents_shape bus o cfg
    rw [e] at h
    have : ∀ (ps : List PinId), (a :: more) <:+ ps.map Action.configure ++ l → ∃ q, a = .configure q := by
      intro ps
      induction ps with
      | nil => intro h; exact absurd (h.subset (List.mem_cons_of_mem _ hc)) (hl p)
      | cons x xs ih =>
        intro h
        simp only [List.map_cons, List.cons_append] at h
        rcases List.suffix_cons_iff.1 h with h | h
        · injection h with h1 h2; exact ⟨x, h1⟩
        · exact ih h
    exact this _ h
  · exact absurd (h.subset (List.mem_cons_of_mem _ hc)) (no_configure_of_not_init cfg bus hr p)

/-! ### The timing check -/

theorem edgeScan_append (e : PinId) (x : EdgeScan) (a b : List Event) : edgeScan e x (a ++ b) =
    (edgeScan e x a).bind (fun y => edgeScan e y b) := by
  induction a generalizing x with
  | nil => rfl
  | cons ev r ih =>
    simp only [List.cons_append, edgeScan]
    cases edgeStep e x ev <;> simp [ih]

/-- These events keep the timing from any point where the next rise of E would be timely, and end at such a point. -/
def KeepsTiming (e : PinId) (as : List Action) : Prop := ∀ x, x.ready = true → ∃ y, edgeScan e x (traceOf as) =
    some y ∧ y.ready = true

theorem KeepsTiming.append {e : PinId} {a b : List Action} (h : KeepsTiming e a) (g : KeepsTiming e b) :
    KeepsTiming e (a ++ b) := by
  intro x hx
  obtain ⟨y, h1, h2⟩ := h x hx
  obtain ⟨z, h3, h4⟩ := g y h2
  exact ⟨z, by simp [traceOf_append, edgeScan_append, h1, h3], h4⟩

theorem keepsTiming_nil {e : PinId} : KeepsTiming e [] := fun x hx => ⟨x, rfl, hx⟩

theorem keepsTiming_wait {e : PinId} {n : Nat} : KeepsTiming e [.wait n] := by
  intro x hx
  cases x with
  | fresh => exact ⟨.fresh, rfl, rfl⟩
  | high w => simp [EdgeScan.ready] at hx
  | low w => exact ⟨.low (w + n), rfl, by simp [EdgeScan.ready] at hx ⊢; omega⟩

theorem keepsTiming_set {e p : PinId} {v : Level} (h : p ≠ e) : KeepsTiming e [.set p v] := by
  intro x hx
  cases x with
  | fresh => exact ⟨.fresh, by simp [traceOf, Action.event, edgeScan, edgeStep, h], rfl⟩
  | high w => simp [EdgeScan.ready] at hx
  | low w => exact ⟨.low w, by simp [EdgeScan.ready] at hx; simp [traceOf, Action.event, edgeScan, edgeStep, h, hx], hx⟩

theorem keepsTiming_configure {e p : PinId} : KeepsTiming e [.configure p] := by
  intro x hx; exact ⟨x, by cases x <;> rfl, hx⟩

theorem keepsTiming_pulse (p : PinRecord) : KeepsTiming p.e (pulse p) := by
  intro x hx
  cases x with
  | fresh => exact ⟨.low 40, by simp [traceOf, Action.event, edgeScan, edgeStep, pulse, tEHigh, tEPost], rfl⟩
  | high w => simp [EdgeScan.ready] at hx
  | low w => exact ⟨.low 40, by simp [EdgeScan.ready] at hx; simp [traceOf, Action.event, edgeScan, edgeStep, pulse,
      tEHigh, tEPost, hx], rfl⟩

theorem keepsTiming_of_no_enable {e : PinId} {as : List Action} (h : ∀ p v, Action.set p v ∈ as → p ≠ e) :
    KeepsTiming e as := by
  induction as with
  | nil => exact keepsTiming_nil
  | cons a r ih =>
    have ih := ih (fun p v hh => h p v (by simp [hh]))
    rw [← List.singleton_append]
    refine KeepsTiming.append ?_ ih
    cases a with
    | configure p => exact keepsTiming_configure
    | wait n => exact keepsTiming_wait
    | set p v => exact keepsTiming_set (h p v (by simp))

/-- SEND keeps the timing, in either mode. -/
theorem keepsTiming_send (bus : Bus) (hd : distinct (activeSet bus.mode bus.pins) = true) (rs : Level) (b : Byte) :
    KeepsTiming bus.pins.e (send bus rs b) := by
  obtain ⟨m, p⟩ := bus
  have hne := pairwise_of_distinct hd
  cases m
  · simp only [activeSet, set8, List.pairwise_cons, List.mem_cons, forall_eq_or_imp, List.not_mem_nil, false_implies,
      implies_true, List.Pairwise.nil, and_true] at hne
    simp only [send, send8]
    refine ((keepsTiming_set (by tauto)).append (keepsTiming_of_no_enable ?_)).append
        (keepsTiming_pulse p)
    intro q v hq; simp [putByte] at hq; rcases hq with h | h | h | h | h | h | h | h <;> rw [h.1] <;> exact Ne.symm (by tauto)
  · simp only [activeSet, set4, List.pairwise_cons, List.mem_cons, forall_eq_or_imp, List.not_mem_nil, false_implies,
      implies_true, List.Pairwise.nil, and_true] at hne
    have pn : ∀ n, KeepsTiming p.e (putNibble p n) := by
      intro n; apply keepsTiming_of_no_enable
      intro q v hq; simp [putNibble] at hq; rcases hq with h | h | h | h <;> rw [h.1] <;> exact Ne.symm (by tauto)
    simp only [send, send4]
    exact ((((keepsTiming_set (by tauto)).append (pn _)).append (keepsTiming_pulse p)).append (pn _)).append (keepsTiming_pulse p)

theorem keepsTiming_sendNibble (bus : Bus) (hd : distinct (activeSet bus.mode bus.pins) = true) (n : Nibble) :
    KeepsTiming bus.pins.e (sendNibble bus n) := by
  obtain ⟨m, p⟩ := bus
  cases m
  · exact keepsTiming_send ⟨.eightBit, p⟩ hd false (n ++ 0#4)
  · have hne := pairwise_of_distinct hd
    simp only [activeSet, set4, List.pairwise_cons, List.mem_cons, forall_eq_or_imp, List.not_mem_nil, false_implies,
        implies_true, List.Pairwise.nil, and_true] at hne
    have pn : ∀ n, KeepsTiming p.e (putNibble p n) := by
      intro n; apply keepsTiming_of_no_enable
      intro q v hq; simp [putNibble] at hq; rcases hq with h | h | h | h <;> rw [h.1] <;> exact Ne.symm (by tauto)
    exact ((keepsTiming_set (by tauto)).append (pn _)).append (keepsTiming_pulse p)

theorem keepsTiming_print (bus : Bus) (hd : distinct (activeSet bus.mode bus.pins) = true) (t : List Byte) :
    KeepsTiming bus.pins.e (printEvents t bus) := by
  induction t with
  | nil => exact keepsTiming_nil
  | cons c r ih => exact (keepsTiming_send bus hd true c).append ih

/-- Every instruction does. -/
theorem keepsTiming_events (cfg : Config) (i : Instr) (bus : Bus)
    (hd : distinct (activeSet bus.mode bus.pins) = true) : KeepsTiming bus.pins.e (eventsOf cfg i bus) := by
  have S := keepsTiming_send bus hd
  have N := keepsTiming_sendNibble bus hd
  have P := keepsTiming_print bus hd
  have W := fun n => keepsTiming_wait (e := bus.pins.e) (n := n)
  have F : KeepsTiming bus.pins.e (functionSetEvents bus) := by unfold functionSetEvents; split <;> exact S _ _
  have T : KeepsTiming bus.pins.e (initStep3Events bus) := by
    unfold initStep3Events
    split
    · exact N _
    · exact keepsTiming_nil
  have C : KeepsTiming bus.pins.e (configureAllEvents bus) := keepsTiming_of_no_enable (by simp [configureAllEvents])
  cases i with
  | init pins =>
    have I2 : KeepsTiming bus.pins.e (initStep2Events bus) := (((((N _).append (W _)).append (N _)).append (W _)).append (N _)).append (W _)
    have I4 : KeepsTiming bus.pins.e (initStep4Events bus) := (((F.append (W _)).append F).append (W _)).append F
    exact (((((((C.append (W _)).append I2).append T).append I4).append (S _ _)).append ((S _ _).append (W _))).append (S _ _)).append (W _)
  | nibFset8 => exact N _
  | nibFset4 => exact N _
  | clear => exact (S _ _).append (W _)
  | clearDisplay => exact (S _ _).append (W _)
  | printChars t => exact P _
  | printInt v => exact P _
  | printFloat v prec => exact P _
  | progressBar row g => exact (S _ _).append (P _)
  | clearRow row => exact ((S _ _).append (P _)).append (S _ _)
  | reserved low => exact keepsTiming_nil
  | _ => exact S _ _

theorem timely_append (e : PinId) (tr : List Event) (as : List Action) (h : timely e tr = true)
    (g : KeepsTiming e as) : timely e (tr ++ traceOf as) = true := by
  unfold timely at h ⊢
  rw [edgeScan_append]
  cases hx : edgeScan e .fresh tr with
  | none => rw [hx] at h; cases h
  | some x =>
    rw [hx] at h
    obtain ⟨y, a, b⟩ := g x h
    simp [a, b]

theorem timely_of_noSet (e : PinId) (tr : List Event) (h : noSet tr = true) : timely e tr = true := by
  have : edgeScan e .fresh tr = some .fresh := by
    induction tr with
    | nil => rfl
    | cons ev r ih => cases ev <;> first | exact ih h | cases h
  simp [timely, this, EdgeScan.ready]

theorem noSet_append (a b : List Event) : noSet (a ++ b) = (noSet a && noSet b) := by
  induction a with
  | nil => rfl
  | cons ev r ih => cases ev <;> simp [noSet, ih]

/-! ### The driver state -/

/-- A state that meets the driver invariant has a bus only if it is initialized. -/
theorem initialized_of_bus {s : State} (h : DriverInv s) {bus : Bus} (hb : s.bus = some bus) : s.initialized = true := by
  by_contra hc
  have := h.2.1 (by simpa using hc)
  rw [State.bus_eq_some, this.1] at hb; simp at hb

end Sys2Proof.Machine
end

