-- ==== Sys2Proof/Tests/Slice0.lean ====
section
/-!
SUPPORT. Tests: ill-formed terms refused, words decoded bit by bit, vectors of 95_test_vectors.md, and a witness for every
statement that has hypotheses.
-/

open Sys2Proof Sys2Proof.Machine

namespace Sys2Proof.Tests

/-! ### Helpers -/

/-- P8 of 95_test_vectors.md. -/
def p8 : PinRecord := { rs := 1, e := 2, d0 := 3, d1 := 4, d2 := 5, d3 := 6, d4 := 7, d5 := 8, d6 := 9, d7 := 10 }
/-- P4 of 95_test_vectors.md. -/
def p4 : PinRecord := { rs := 1, e := 2, d0 := 0, d1 := 0, d2 := 0, d3 := 0, d4 := 7, d5 := 8, d6 := 9, d7 := 10 }
def bus8 : Bus := ⟨.eightBit, p8⟩
def bus4 : Bus := ⟨.fourBit, p4⟩
/-- The test platform under the other reading of the range rule (rule R82). -/
def anyValid : Config := { Config.initial with rangeRule := .sourceAnyValid }
def argFirst : Config := { Config.initial with errPrecedence := .argFirst }

/-- A receiver in step with a block of this mode. -/
def inStepReceiver (m : BusWidthMode) : Receiver :=
  { ifw := widthOf m, phase := .high, held := 0#4, ac := 0#7, ddram := Memory.cleared, lines := .two, font := .dots5x8,
    disp := true, cursor := false, blink := false, inc := true, shift := false, busyUntil := 0 }

/-- The driver state after INIT on a bus, E low. -/
def ready (bus : Bus) : State :=
  { State.reset with
    initialized := true
    mode := some bus.mode
    pins := some bus.pins
    latch := [(2, false)]
    configured := [1, 2, 3, 4, 5, 6, 7, 8, 9, 10]
    receiver := inStepReceiver bus.mode }

/-- The statuses a step or a run ends with. -/
def statusesOf : Host.Outcome State Fault Refusal → List Status
  | .next t => t.statuses
  | .fault _ => []
  | .refused _ => []

/-- The events a request leaves in the sequencer once it is accepted. -/
def eventsLeft : Host.Outcome State Fault Refusal → List Action
  | .next t =>
    match t.seq with
    | .busy _ _ rest => rest
    | .idle => []
  | .fault _ => []
  | .refused _ => []

/-- The trace a run ends with. -/
def traceLeft : Host.Outcome State Fault Refusal → List Event
  | .next t => t.trace
  | .fault _ => []
  | .refused _ => []

/-- The transfers an instruction's events make, with their gaps. -/
def transfersOf (i : Instr) (bus : Bus) : List (Transfer × Nat) :=
  latchedTransfers bus [] (traceOf (eventsOf Config.initial i bus))

/-- The bytes of an ASCII text. -/
def ascii (t : String) : List Byte := t.toList.map (fun c => BitVec.ofNat 8 c.toNat)

/-- The binary64 value nearest 3.14159: 3537115888337719 / 2^50. -/
def piValue : FloatVal := .finite false 3537115888337719 (-50)

/-! ### WellFormed: each check refuses an ill-formed term (rules R71, R72, R73, R119) -/

theorem test_wf_text_with_nul : (Instr.printChars (some [0x41#8, 0x00#8])).wellFormed Config.initial = false := by decide
theorem test_wf_int_above : (Instr.printInt 2147483648).wellFormed Config.initial = false := by decide
theorem test_wf_int_below : (Instr.printInt (-2147483649)).wellFormed Config.initial = false := by decide
theorem test_wf_int_ends : (Instr.printInt 2147483647).wellFormed Config.initial = true ∧
    (Instr.printInt (-2147483648)).wellFormed Config.initial = true := by decide
theorem test_wf_float_not_odd : (Instr.printFloat (.finite false 2 0) 0).wellFormed Config.initial = false := by decide
theorem test_wf_float_too_precise :
    (Instr.printFloat (.finite false 9007199254740993 0) 0).wellFormed Config.initial = false := by decide +kernel
theorem test_wf_float_too_large : (Instr.printFloat (.finite true 1 1024) 0).wellFormed Config.initial = false := by decide
theorem test_wf_float_too_small : (Instr.printFloat (.finite true 1 (-1075)) 0).wellFormed Config.initial = false := by decide
theorem test_wf_address : (Instr.setDdramAddr 0x10#7).wellFormed Config.initial = false ∧
    (Instr.setDdramAddr 0x50#7).wellFormed Config.initial = false ∧ (Instr.setDdramAddr 0x3F#7).wellFormed Config.initial = false ∧
    (Instr.setDdramAddr 0x4F#7).wellFormed Config.initial = true := by decide
theorem test_wf_reserved : (Instr.reserved 0#3).wellFormed Config.initial = false := by decide

/-! ### Decoding: words written out from 30_encoding.md rules R63, R64 and R70 -/

theorem test_decode_nibFset8 : decode (.n5 0b00011#5) = .ok .nibFset8 := by decide
theorem test_decode_nibFset4 : decode (.n5 0b00010#5) = .ok .nibFset4 := by decide
theorem test_decode_functionSet8bit : decodeTableWord 9 0b000111000 = some .functionSet8bit := by decide
theorem test_decode_functionSet4bit : decodeTableWord 9 0b000101000 = some .functionSet4bit := by decide
theorem test_decode_displayControl : decodeTableWord 9 0b000001100 = some .displayControl := by decide
theorem test_decode_clearDisplay : decodeTableWord 16 0b000000001 = some .clearDisplay := by decide
theorem test_decode_entryMode : decodeTableWord 16 0b000000110 = some .entryMode := by decide
theorem test_decode_setDdramAddr : decodeTableWord 16 0b011000101 = some (.setDdramAddr 0x45#7) := by decide
theorem test_decode_writeData : decodeTableWord 16 0b101001000 = some (.writeData 0x48#8) := by decide
theorem test_decode_init : decode (.req 0b0000#4 [.pins (some p8)]) = .ok (.init (some p8)) := by decide
theorem test_decode_clear : decode (.req 0b0001#4 []) = .ok .clear := by decide
theorem test_decode_setCursor : decode (.req 0b0010#4 [.int 1, .int 5]) = .ok (.setCursor 1 5) := by decide
theorem test_decode_printChars : decode (.req 0b0011#4 [.text (some [0x48#8])]) = .ok (.printChars (some [0x48#8])) := by decide
theorem test_decode_printInt : decode (.req 0b0100#4 [.int (-42)]) = .ok (.printInt (-42)) := by decide
theorem test_decode_printFloat : decode (.req 0b0101#4 [.float piValue, .int 2]) = .ok (.printFloat piValue 2) := by decide
theorem test_decode_progressBar : decode (.req 0b0110#4 [.int 1, .int 50]) = .ok (.progressBar 1 50) := by decide
theorem test_decode_clearRow : decode (.req 0b0111#4 [.int 1]) = .ok (.clearRow 1) := by decide
theorem test_decode_reserved : decode (.req 0b1001#4 []) = .ok (.reserved 1#3) := by decide
theorem test_decode_table_requests : (List.range 16).map (decodeTableWord 8) =
    [some (.init none), some .clear, some (.setCursor 0 0), some (.printChars none), some (.printInt 0),
     some (.printFloat (.finite false 0 0) 0), some (.progressBar 0 0), some (.clearRow 0), some (.reserved 0#3),
     some (.reserved 1#3), some (.reserved 2#3), some (.reserved 3#3), some (.reserved 4#3), some (.reserved 5#3),
     some (.reserved 6#3), some (.reserved 7#3)] := by decide
theorem test_decode_rejects : decode (.b9 0b000110000#9) = .error (.neverEmittedWord 0x030#9) ∧
    decode (.n5 0b10011#5) = .error (.noSuchNibble 0x13#5) ∧ decode (.req 0b0010#4 [.int 1]) = .error (.wrongOperandRecord 2#4) ∧
    decodeTableWord 9 512 = none := by decide
theorem test_step_first_after_reset : statusesOf (step (State.reset.withFetchWord 8 0x1)) = [.invalidState] ∧
    statusesOf (step (State.reset.withFetchWord 8 0x0)) = [.invalidArgument] := by decide
/-- Each bus word, loaded after reset, is what the next step runs: RS is driven to the word's first bit. -/
theorem test_bus_word_first_after_reset :
    [(9, 0x038), (9, 0x028), (9, 0x00C), (9, 0x001), (9, 0x006), (9, 0x080), (9, 0x0CF), (5, 3), (5, 2)].map
      (fun x => traceLeft (step (State.reset.withFetchWord x.1 x.2))) = List.replicate 9 [.set 1 false] ∧
    traceLeft (step (State.reset.withFetchWord 9 0x141)) = [.set 1 true] := by decide +kernel
/-- The address 0x10 is none of the 32: its word is never due. -/
theorem test_word_never_formed : step (State.reset.withFetchWord 9 0x090) = .refused .wordNotDue := rfl
/-- What is fetched along FourBit INIT's events from step 3 on: the nibble 0x2, then the three function sets. -/
theorem test_fetch_in_init : [0, 9, 26, 27, 44, 45].map
      (fun n => fetchWord Config.initial (.init (some p4)) bus4 ((initStep3Events bus4 ++ initStep4Events bus4).drop n)) =
    [some (.n5 2#5), some (.b9 0x028#9), none, some (.b9 0x028#9), none, some (.b9 0x028#9)] := by decide +kernel

/-! ### V-VAL -/

theorem test_validate_all_valid :
    [p8, p4, ⟨5, 5, 5, 5, 5, 5, 5, 5, 5, 5⟩, { p8 with d0 := 40 }, { p8 with rs := 40 }, { p8 with d5 := 7 }, { p8 with d0 := 1 },
      ⟨40, 41, 42, 43, 44, 45, 46, 47, 48, 49⟩, { p8 with d0 := 7, d1 := 8, d2 := 9, d3 := 10 }, { p8 with e := 1 },
      { p8 with d7 := 0 }].map (validate Config.initial) =
    [some .eightBit, some .fourBit, none, some .fourBit, none, none, some .fourBit, none, some .fourBit, none, none] := by
  decide +kernel
theorem test_validate_any_valid :
    [p8, p4, ⟨5, 5, 5, 5, 5, 5, 5, 5, 5, 5⟩, { p8 with d0 := 40 }, { p8 with rs := 40 }, { p8 with d5 := 7 }, { p8 with d0 := 1 },
      ⟨40, 41, 42, 43, 44, 45, 46, 47, 48, 49⟩, { p8 with d0 := 7, d1 := 8, d2 := 9, d3 := 10 }, { p8 with e := 1 },
      { p8 with d7 := 0 }].map (validate anyValid) =
    [some .eightBit, some .fourBit, none, some .eightBit, some .eightBit, none, some .fourBit, none, some .fourBit, none,
      some .eightBit] := by decide +kernel

/-- Other `PIN_VALID`s: every identifier, and all but one. -/
theorem test_pin_ranges : validate { Config.initial with pinRange := .allBut [] } ⟨40, 41, 42, 43, 44, 45, 46, 47, 48, 49⟩ =
      some .eightBit ∧ validate { Config.initial with pinRange := .allBut [4] } p8 = some .fourBit := by decide

/-! ### V-TR and V-BW -/

theorem test_send8 : send bus8 true 0x41#8 =
    [.set 1 true, .set 3 true, .set 4 false, .set 5 false, .set 6 false, .set 7 false, .set 8 false, .set 9 true, .set 10 false,
     .set 2 true, .wait 1, .set 2 false, .wait 40] := by decide
theorem test_send4 : send bus4 false 0x28#8 =
    [.set 1 false, .set 7 false, .set 8 true, .set 9 false, .set 10 false, .set 2 true, .wait 1, .set 2 false, .wait 40,
     .set 7 false, .set 8 false, .set 9 false, .set 10 true, .set 2 true, .wait 1, .set 2 false, .wait 40] := by decide
theorem test_sendNibble8 : sendNibble bus8 0x3#4 =
    [.set 1 false, .set 3 false, .set 4 false, .set 5 false, .set 6 false, .set 7 true, .set 8 true, .set 9 false, .set 10 false,
     .set 2 true, .wait 1, .set 2 false, .wait 40] := by decide
theorem test_sendNibble4 : sendNibble bus4 0x3#4 =
    [.set 1 false, .set 7 true, .set 8 true, .set 9 false, .set 10 false, .set 2 true, .wait 1, .set 2 false, .wait 40] := by decide
theorem test_transfers_eight : [Instr.nibFset8, .functionSet8bit, .displayControl, .clearDisplay, .entryMode,
      .setDdramAddr 0x45#7, .writeData 0x48#8].map (fun i => transfersOf i bus8) =
    [[(.t8 false 0x30#8, 40)], [(.t8 false 0x38#8, 40)], [(.t8 false 0x0C#8, 40)], [(.t8 false 0x01#8, 1640)],
     [(.t8 false 0x06#8, 40)], [(.t8 false 0xC5#8, 40)], [(.t8 true 0x48#8, 40)]] := by decide +kernel
theorem test_transfers_four : [Instr.nibFset8, .nibFset4, .functionSet4bit, .displayControl, .clearDisplay, .entryMode,
      .setDdramAddr 0x45#7, .writeData 0x48#8].map (fun i => transfersOf i bus4) =
    [[(.t4 false 0x3#4, 40)], [(.t4 false 0x2#4, 40)], [(.t4 false 0x2#4, 40), (.t4 false 0x8#4, 40)],
     [(.t4 false 0x0#4, 40), (.t4 false 0xC#4, 40)], [(.t4 false 0x0#4, 40), (.t4 false 0x1#4, 1640)],
     [(.t4 false 0x0#4, 40), (.t4 false 0x6#4, 40)], [(.t4 false 0xC#4, 40), (.t4 false 0x5#4, 40)],
     [(.t4 true 0x4#4, 40), (.t4 true 0x8#4, 40)]] := by decide +kernel

/-! ### V-INIT -/

theorem test_init_eight : (traceOf (initEvents bus8)).length = 135 ∧
    (traceOf (initEvents bus8)).take 11 = (List.range' 1 10).map (fun p => Event.configure p .ok) ++ [.wait 20000] ∧
    waitTotal (traceOf (initEvents bus8)) = 62269 ∧ timely 2 (traceOf (initEvents bus8)) = true := by decide +kernel
theorem test_init_four : (traceOf (initEvents bus4)).length = 152 ∧
    (traceOf (initEvents bus4)).take 7 = [1, 2, 7, 8, 9, 10].map (fun p => Event.configure p .ok) ++ [.wait 20000] ∧
    waitTotal (traceOf (initEvents bus4)) = 62556 ∧ timely 2 (traceOf (initEvents bus4)) = true := by decide +kernel
/-- V-INIT-2, 3, 7 and 8. -/
theorem test_init_errors : statusesOf (exec (.init none) State.reset) = [.invalidArgument] ∧
    statusesOf (exec (.init (some ⟨5, 5, 5, 5, 5, 5, 5, 5, 5, 5⟩)) State.reset) = [.invalidArgument] ∧
    statusesOf (exec (.init (some p8)) (ready bus8)) = [.invalidState] ∧
    statusesOf (exec (.init none) { ready bus8 with cfg := argFirst }) = [.invalidArgument] := by decide
/-- V-INIT-9, the first try: pin 7's configure fails. -/
theorem test_init_configure_fails :
    traceLeft (run 4 { State.reset with requests := [.req 0#4 [.pins (some p4)]], cfgAnswers := [.ok, .ok, .fail] }) =
      [.configure 1 .ok, .configure 2 .ok, .configure 7 .fail] ∧
    statusesOf (run 4 { State.reset with requests := [.req 0#4 [.pins (some p4)]], cfgAnswers := [.ok, .ok, .fail] }) =
      [.hardwareConfigurationFailure] := by decide
/-- V-INIT-11, the wake-up from four-bit width with a nibble held: three nibbles, the last two of them a pair. -/
theorem test_wake_from_low_phase :
    (recv 2 300 (.t4 false 3#4) (recv 1 200 (.t4 false 3#4) (recv 0 100 (.t4 false 3#4)
      { inStepReceiver .fourBit with phase := .low, held := 0#4 }))).ifw = .eight := by decide

/-! ### V-CMD -/

theorem test_clear : transfersOf .clear bus8 = [(.t8 false 0x01#8, 1640)] ∧
    waitTotal (traceOf (eventsOf Config.initial .clear bus4)) = 1682 := by decide +kernel
theorem test_setCursor : [(0, 0), (0, 15), (1, 0), (1, 5), (1, 15)].map (fun rc => (transfersOf (.setCursor rc.1 rc.2) bus8)) =
    [[(.t8 false 0x80#8, 40)], [(.t8 false 0x8F#8, 40)], [(.t8 false 0xC0#8, 40)], [(.t8 false 0xC5#8, 40)],
     [(.t8 false 0xCF#8, 40)]] := by decide +kernel
theorem test_setCursor_errors : [(2, 0), (0, 16), (-1, 0), (0, -1), (1, 16), (3, 20)].map
      (fun rc => statusesOf (exec (.setCursor rc.1 rc.2) (ready bus8))) = List.replicate 6 [.invalidArgument] := by decide
theorem test_printChars : transfersOf (.printChars (some (ascii "Hi"))) bus4 =
      [(.t4 true 0x4#4, 40), (.t4 true 0x8#4, 40), (.t4 true 0x6#4, 40), (.t4 true 0x9#4, 40)] ∧
    statusesOf (exec (.printChars none) (ready bus8)) = [.invalidArgument] := by decide +kernel
theorem test_printInt : [0, 7, -42, 1000, -1, 2147483647, -2147483648].map formatDec =
    ["0", "7", "-42", "1000", "-1", "2147483647", "-2147483648"].map ascii := by decide +kernel
theorem test_printInt_refused : exec (.printInt 2147483648) (ready bus8) = .refused .intOutOfRange := by
  simp [exec, execPrintInt, intInRange, ready, State.reset, Config.initial]
theorem test_printFloat : [(piValue, 2), (.finite false 5 (-1), 1), (.finite false 1 (-1), 3), (.finite false 3 0, 0),
      (.finite true 1 (-2), 2)].map (fun vp => formatFixed Config.initial.floatFmt vp.1 vp.2) =
    ["3.14", "2.5", "0.500", "3", "-0.25"].map ascii := by decide +kernel
theorem test_printFloat_errors : statusesOf (exec (.printFloat piValue (-1)) (ready bus8)) = [.invalidArgument] ∧
    statusesOf (exec (.printFloat piValue 7) (ready bus8)) = [.invalidArgument] := by decide +kernel
theorem test_progressBar : transfersOf (.progressBar 1 50) bus8 = (.t8 false 0xC0#8, 40) ::
      (List.replicate 8 (.t8 true 0xFF#8, 40) ++ List.replicate 8 (.t8 true 0x20#8, 40)) ∧
    waitTotal (traceOf (eventsOf Config.initial (.progressBar 0 7) bus4)) = 1394 := by decide +kernel
theorem test_progressBar_errors : [(0, 101), (0, -1), (2, 50), (-1, 50)].map
      (fun rg => statusesOf (exec (.progressBar rg.1 rg.2) (ready bus8))) = List.replicate 4 [.invalidArgument] := by decide
theorem test_clearRow : transfersOf (.clearRow 1) bus8 = (.t8 false 0xC0#8, 40) ::
      (List.replicate 16 (.t8 true 0x20#8, 40) ++ [(.t8 false 0xC0#8, 40)]) ∧
    waitTotal (traceOf (eventsOf Config.initial (.clearRow 0) bus4)) = 1476 := by decide +kernel
theorem test_clearRow_errors : [2, -1].map (fun row => statusesOf (exec (.clearRow row) (ready bus8))) =
    [[.invalidArgument], [.invalidArgument]] := by decide

/-! ### V-ERR -/

theorem test_before_init : [Instr.clear, .setCursor 0 0, .printChars (some (ascii "Hi")), .printInt 5,
      .printFloat (.finite false 1 0) 1, .progressBar 0 50, .clearRow 0, .setCursor 2 0, .printChars none].map
        (fun i => statusesOf (exec i State.reset)) = List.replicate 9 [.invalidState] := by decide +kernel
theorem test_before_init_arg_first : [Instr.setCursor 2 0, .printChars none].map
      (fun i => statusesOf (exec i { State.reset with cfg := argFirst })) = List.replicate 2 [.invalidArgument] := by decide
theorem test_reserved : exec (.reserved 1#3) State.reset = .refused (.reservedRequestCode 1#3) := rfl

/-- PROG-3's first three requests and a fourth that runs: SET_CURSOR before INIT, a bad record, none, then CLEAR_ROW before INIT. -/
theorem test_program_of_errors : statusesOf (run 4 { State.reset with requests :=
      [.req 2#4 [.int 0, .int 0], .req 0#4 [.pins (some ⟨5, 5, 5, 5, 5, 5, 5, 5, 5, 5⟩)], .req 0#4 [.pins none], .req 7#4 [.int 0]] }) =
    [.invalidState, .invalidArgument, .invalidArgument, .invalidState] := by decide
/-- SET_CURSOR 1,5 run to its end in FourBit mode returns Ok, with the trace of its one word. -/
theorem test_run_setCursor : statusesOf (run 19 { ready bus4 with requests := [.req 2#4 [.int 1, .int 5]] }) = [.ok] ∧
    traceLeft (run 19 { ready bus4 with requests := [.req 2#4 [.int 1, .int 5]] }) = traceOf (send bus4 false 0xC5#8) := by
  decide +kernel

/-! ### The textual syntax of rule R69 -/

theorem test_text : [Instr.setDdramAddr 0x45#7, .writeData 0x48#8, .setCursor 1 5, .printInt (-42), .printFloat (.finite true 1 (-2)) 2,
      .printChars (some [0xFF#8, 0x20#8])].map Instr.text =
    ["C:C5", "D:48", "SET_CURSOR 1,5", "PRINT_INT -42", "PRINT_FLOAT -0.25,2", "PRINT_CHARS bytes[FF,20]"] := by decide +kernel

/-! ### Witnesses: states and operands that meet each statement's hypotheses -/

/-- A state whose sequencer is busy with an instruction on a bus. -/
def busy (i : Instr) (bus : Bus) (rest : List Action) : State := (ready bus).busyWith i bus rest

theorem witness_StepRunsTheDecodedRequest : (∃ s t u : State, s.seq = .idle ∧ s.requests = [.req 1#4 []] ∧
    decode (.req 1#4 []) = .ok .clear ∧ t.seq = .idle ∧ t.requests = [.n5 0x1F#5] ∧
    decode (.n5 0x1F#5) = .error (.noSuchNibble 0x1F#5) ∧ u.seq = .idle ∧ u.requests = []) ∧
    (busy .clear bus8 (clearDisplayEvents bus8)).seq = .busy .clear bus8 (clearDisplayEvents bus8) ∧
    fetchWord Config.initial .clear bus8 (clearDisplayEvents bus8) = some (.b9 0x001#9) ∧
    decode (.b9 0x001#9) = .ok .clearDisplay ∧ emits .clear bus8.mode .clearDisplay = true ∧
    eventsOf Config.initial .clearDisplay bus8 <+: clearDisplayEvents bus8 :=
  ⟨⟨{ State.reset with requests := [.req 1#4 []] }, { State.reset with requests := [.n5 0x1F#5] }, State.reset,
    rfl, rfl, rfl, rfl, rfl, by decide, rfl, rfl⟩, rfl, by decide, rfl, rfl, List.prefix_refl _⟩

/-- The second nibble of INIT step 2 on four lines, followed by its wait; the last word CLEAR_ROW 1 emits. -/
theorem witness_FetchReadsTheWordThatIsDue : emits (.clearRow 1) bus4.mode (.setDdramAddr 0x40#7) = true ∧
    eventsOf Config.initial (.setDdramAddr 0x40#7) bus4 <+: setCursorEvents 1 0 bus4 ∧
    emits (.init (some p4)) bus4.mode .nibFset8 = true ∧
    eventsOf Config.initial .nibFset8 bus4 <+: sendNibble bus4 0x3#4 ++ [.wait 10000] ∧
    (∀ v, (sendNibble bus4 0x3#4 ++ [Action.wait 10000])[9]? ≠ some (.set bus4.pins.d4 v)) ∧
    fetchWord Config.initial (.init (some p4)) bus4 (sendNibble bus4 0x3#4 ++ [.wait 10000]) = some (.n5 0x03#5) := by
  decide +kernel

theorem witness_BusyStepPerformsTheHeadEvent :
    (busy .clear bus8 [.set 3 true]).seq = .busy .clear bus8 (.set 3 true :: []) ∧ ¬(3 = bus8.pins.e ∧ true = false) ∧
    (busy .clear bus8 [.wait 1600]).seq = .busy .clear bus8 (.wait 1600 :: []) ∧
    (∃ s : State, s.seq = .busy (.init (some p8)) bus8 (.configure 1 :: []) ∧ s.nextAnswer = .ok) ∧
    ∃ s : State, s.seq = .busy (.init (some p8)) bus8 (.configure 10 :: []) ∧ s.nextAnswer = .fail :=
  ⟨rfl, by decide, rfl, ⟨{ busy (.init (some p8)) bus8 [.configure 1] with cfgAnswers := [.ok] }, rfl, rfl⟩,
    ⟨{ busy (.init (some p8)) bus8 [.configure 10] with cfgAnswers := [.fail] }, rfl, rfl⟩⟩

/-- The latches while the byte 0xFF, or the nibble 0xF, stands on the lines with RS = 1 and E = 1. -/
def linesHigh : List (PinId × Level) := (List.range' 1 10).map (fun p => (p, true))

theorem witness_FallingEnableLatchesTheLines :
    let s8 : State := { busy (.writeData 0xFF#8) bus8 [.set 2 false, .wait 40] with latch := linesHigh }
    let s4 : State := { busy (.writeData 0xFF#8) bus4 [.set 2 false, .wait 40] with latch := linesHigh }
    p8.rs ≠ p8.e ∧ s8.latchOf 1 = some true ∧ s8.seq = .busy (.writeData 0xFF#8) ⟨.eightBit, p8⟩ (.set p8.e false :: [.wait 40]) ∧
    p8.e ∉ [p8.d0, p8.d1, p8.d2, p8.d3, p8.d4, p8.d5, p8.d6, p8.d7] ∧
    [3, 4, 5, 6, 7, 8, 9, 10].map s8.latchOf = (List.range 8).map (fun j => some ((0xFF#8).getLsbD j)) ∧
    p4.rs ≠ p4.e ∧ s4.latchOf 1 = some true ∧ s4.seq = .busy (.writeData 0xFF#8) ⟨.fourBit, p4⟩ (.set p4.e false :: [.wait 40]) ∧
    p4.e ∉ [p4.d4, p4.d5, p4.d6, p4.d7] ∧
    [7, 8, 9, 10].map s4.latchOf = (List.range 4).map (fun j => some ((0xF#4).getLsbD j)) := by decide

theorem witness_EncodeAfterDecode : decode (.b9 0x0FF#9) = .ok (.setDdramAddr 0x7F#7) ∧
    ∀ low, Instr.setDdramAddr 0x7F#7 ≠ .reserved low := ⟨by decide, by simp⟩

theorem witness_BusWordsDecodeAsTheTableSays : (0x100#9).getLsbD 8 = true ∧
    ((0x080#9).getLsbD 8 = false ∧ (0x080#9).getLsbD 7 = true) ∧ ((0x07F#9).getLsbD 8 = false ∧ (0x07F#9).getLsbD 7 = false) ∧
    (0x038#9).getLsbD 7 = false := by decide

theorem witness_LowFieldsDoNotMatterToTierTwo : set4 p4 = set4 { p8 with d0 := 7, d1 := 8, d2 := 9, d3 := 10 } ∧
    validate Config.initial p4 ≠ some .eightBit ∧
    validate Config.initial { p8 with d0 := 7, d1 := 8, d2 := 9, d3 := 10 } ≠ some .eightBit := by decide

theorem witness_EventsStayOnTheActiveSet : Action.set 10 true ∈ eventsOf Config.initial (.writeData 0x80#8) bus8 ∧
    Action.configure 10 ∈ eventsOf Config.initial (.init (some p4)) bus4 := by decide

theorem witness_RequestsEmitOnlyTheirWords : isRequest (.clearRow 1) = true ∧ argOk Config.initial (.clearRow 1) = true ∧
    isRequest (.setCursor 1 15) = true ∧ argOk Config.initial (.setCursor 1 15) = true ∧ isRequest (.init (some p4)) = true ∧
    argOk Config.initial (.init (some p4)) = true := by decide

/-- A request busy where it emits a word next, for each word; the address words at the ends of both rows. -/
theorem witness_BusWordsAreTransmitted :
    let at_ (i : Instr) (bus : Bus) (emission : List Action) : Prop :=
      (busy i bus (emission ++ [.wait 1])).seq = .busy i bus (emission ++ [.wait 1])
    (at_ (.init (some p8)) bus8 (sendNibble bus8 0x3#4) ∧ at_ (.init (some p4)) bus4 (sendNibble bus4 0x2#4) ∧
      at_ (.init (some p8)) bus8 (send bus8 false 0x38#8) ∧ at_ (.init (some p4)) bus4 (send bus4 false 0x28#8) ∧
      at_ (.init (some p4)) bus4 (send bus4 false 0x0C#8) ∧ at_ .clear bus8 (send bus8 false 0x01#8 ++ [.wait 1600]) ∧
      at_ (.init (some p8)) bus8 (send bus8 false 0x06#8)) ∧
    (∀ a ∈ [0x00#7, 0x0F#7, 0x40#7, 0x4F#7], (a.toNat < 16 ∨ (0x40 ≤ a.toNat ∧ a.toNat < 0x50)) ∧
      at_ (.setCursor 0 0) bus8 (send bus8 false (BitVec.ofNat 8 (0x80 + a.toNat)))) ∧
    at_ (.printInt 5) bus4 (send bus4 true 0x35#8) :=
  ⟨⟨rfl, rfl, rfl, rfl, rfl, rfl, rfl⟩, fun a h => ⟨by revert a; decide, rfl⟩, rfl⟩

/-- Words that are not due: in `Idle`, a nibble in CLEAR, an address next to each end of the two ranges; and one that is. -/
theorem witness_BusWordsRunOnlyWhereARequestEmitsThem : State.reset.seq = .idle ∧ Instr.role .nibFset4 = .busWord ∧
    (busy .clear bus4 []).seq = .busy .clear bus4 [] ∧ emits .clear bus4.mode .nibFset4 = false ∧
    (∃ t, exec .clearDisplay (busy .clear bus8 (clearDisplayEvents bus8)) = .next t) ∧
    (∀ a ∈ [0x10#7, 0x3F#7, 0x50#7, 0x7F#7], 16 ≤ a.toNat ∧ (a.toNat < 0x40 ∨ 0x50 ≤ a.toNat)) :=
  ⟨rfl, rfl, rfl, rfl, ⟨_, rfl⟩, by decide⟩

theorem witness_BusWordsDeliverTheirTransfers : distinct (activeSet bus8.mode bus8.pins) = true ∧
    distinct (activeSet bus4.mode bus4.pins) = true ∧ emits (.init (some p4)) bus4.mode .nibFset4 = true ∧
    emits (.setCursor 1 15) bus4.mode (.setDdramAddr 0x4F#7) = true ∧ emits (.printInt 5) bus8.mode (.writeData 0x35#8) = true ∧
    (busy (.printInt 5) bus8 (eventsOf Config.initial (.writeData 0x35#8) bus8 ++ [])).seq =
      .busy (.printInt 5) bus8 (eventsOf Config.initial (.writeData 0x35#8) bus8 ++ []) := by decide +kernel

theorem witness_AbsentDriverStateFaults : ∃ s : State, s.seq = .idle ∧ s.pins = none ∧ (Instr.setCursor 1 15).wellFormed s.cfg = true ∧
      Instr.role (.setCursor 1 15) = .command ∧ s.initialized = true ∧ argOk s.cfg (.setCursor 1 15) = true :=
  ⟨{ State.reset with initialized := true }, rfl, rfl, rfl, rfl, rfl, rfl⟩

theorem witness_ReceiverEffectsInEightBitWidth :
    (inStepReceiver .eightBit).ifw = .eight ∧ (inStepReceiver .eightBit).busyUntil ≤ 0 ∧ (inStepReceiver .eightBit).inc = true ∧
    ({ inStepReceiver .eightBit with ac := 0x26#7 } : Receiver).ac.toNat ≤ 0x26 ∧
    0x40 ≤ ({ inStepReceiver .eightBit with ac := 0x66#7 } : Receiver).ac.toNat ∧
    ({ inStepReceiver .eightBit with ac := 0x66#7 } : Receiver).ac.toNat ≤ 0x66 ∧
    (∀ b ∈ [0x00#8, 0x1F#8, 0x40#8, 0x7F#8], (b.toNat < 0x20 ∨ (0x40 ≤ b.toNat ∧ b.toNat < 0x80)) ∧
      b ∉ [0x01#8, 0x06#8, 0x0C#8]) ∧
    (∀ b ∈ [0x20#8, 0x3F#8], 0x20 ≤ BitVec.toNat b ∧ BitVec.toNat b < 0x40) := by decide

theorem witness_NibblePairActsAsItsWord : (inStepReceiver .fourBit).ifw = .four ∧ (inStepReceiver .fourBit).phase = .high ∧
    (inStepReceiver .fourBit).busyUntil ≤ 0 ∧ (0x06#8 : Byte) ∈ [0x38#8, 0x28#8, 0x0C#8, 0x01#8, 0x06#8] ∧
    (∃ a : BitVec 7, (0xCF#8 : Byte) = 0b1#1 ++ a ∧ (a.toNat < 16 ∨ (0x40 ≤ a.toNat ∧ a.toNat < 0x50))) :=
  ⟨rfl, rfl, by decide, by decide, 0x4F#7, by decide, by decide⟩

theorem witness_TransferWhileBusyIsADraw :
    39 < ({ inStepReceiver .eightBit with busyUntil := 40 } : Receiver).busyUntil := by decide

theorem witness_InitIsAcceptedWithItsSequence : State.reset.seq = .idle ∧ State.reset.initialized = false ∧
    validate State.reset.cfg p8 = some .eightBit ∧ validate State.reset.cfg p4 = some .fourBit := by decide

theorem witness_InitEntryErrors : (ready bus8).seq = .idle ∧ (ready bus8).initialized = true ∧
    ¬(some p8 = none ∨ ∃ p, some p8 = some p ∧ validate (ready bus8).cfg p = none) ∧
    (some { p8 with e := 1 } = none ∨ ∃ p, some { p8 with e := 1 } = some p ∧ validate State.reset.cfg p = none) ∧
    (ready bus8).cfg.errPrecedence = .stateFirst ∧ ({ ready bus8 with cfg := argFirst } : State).cfg.errPrecedence = .argFirst :=
  ⟨rfl, rfl, by rintro (h | ⟨p, h, hv⟩) <;> cases h; revert hv; decide, .inr ⟨_, rfl, by decide⟩, rfl, rfl⟩

theorem witness_InitTraceSummary : distinct (set8 p8) = true ∧ distinct (set4 p4) = true := by decide

theorem witness_FailedConfigureEndsInit (j : Nat) (hj : j < 10) : ∃ (s t : State), exec (.init (some p8)) s = .next t ∧
    s.initialized = false ∧ validate s.cfg p8 = some .eightBit ∧ AnswersOk j s ∧ s.answerAt j = .fail ∧
    j < (activeSet .eightBit p8).length :=
  ⟨{ State.reset with cfgAnswers := List.replicate j .ok ++ [.fail] }, _, rfl, rfl,
    (show validate Config.initial p8 = _ by decide), answersOk_of_listed (by simp), by simp [State.answerAt], hj⟩

theorem witness_InitBringsTheReceiverToAKnownState : ∃ s : State, s.seq = .idle ∧ s.initialized = false ∧
    validate s.cfg p8 = some .eightBit ∧ AnswersOk (activeSet .eightBit p8).length s ∧ s.receiver.busyUntil ≤ s.now + 20000 :=
  ⟨{ State.reset with
      cfgAnswers := List.replicate 10 .ok
      receiver := { inStepReceiver .fourBit with phase := .low, busyUntil := 20000 } }, rfl, rfl,
    (show validate Config.initial p8 = _ by decide), answersOk_of_listed rfl, le_refl _⟩

theorem witness_CommandEntryErrors : Instr.role (.setCursor 2 15) = .command ∧ (Instr.setCursor 2 15).wellFormed Config.initial = true ∧
    (ready bus8).initialized = true ∧ argOk Config.initial (.setCursor 2 15) = false ∧ State.reset.initialized = false ∧
    argOk Config.initial (.setCursor 1 15) = true ∧ argOk argFirst (.setCursor 0 16) = false ∧ argFirst.errPrecedence = .argFirst := by
  decide

theorem witness_CommandsAreAccepted : (ready bus8).seq = .idle ∧ (ready bus8).initialized = true ∧ (ready bus8).mode = some .eightBit ∧
    (ready bus8).pins = some p8 ∧ (0x00#8 : Byte) ∉ [0x01#8, 0xFF#8] ∧
    (-2 ^ ((ready bus8).cfg.intBits - 1) : Int) ≤ -2147483648 ∧ (2147483647 : Int) ≤ 2 ^ ((ready bus8).cfg.intBits - 1) - 1 ∧
    floatRepresentable (ready bus8).cfg.floatFmt piValue = true ∧ 6 ≤ (ready bus8).cfg.precMax := by
  refine ⟨rfl, rfl, rfl, rfl, by decide, by simp [ready, State.reset, Config.initial], by simp [ready, State.reset, Config.initial],
    by decide +kernel, by decide⟩

theorem witness_ReservedCodesAreRefused : 8 ≤ (8#4).toNat ∧ 8 ≤ (15#4).toNat ∧
    ∃ s : State, s.seq = .idle ∧ s.requests = .req 15#4 [.int 1] :: [] :=
  ⟨by decide, by decide, { State.reset with requests := [.req 15#4 [.int 1]] }, rfl, rfl⟩

theorem witness_UnwritableOperandsAreRefused : (0x00#8 : Byte) ∈ [0x41#8, 0x00#8] ∧
    (2 ^ (State.reset.cfg.intBits - 1) - 1 : Int) < 2147483648 ∧ (-2147483649 : Int) < -2 ^ (State.reset.cfg.intBits - 1) ∧
    floatRepresentable State.reset.cfg.floatFmt (.finite false 9007199254740993 0) = false := by
  refine ⟨by decide, by simp [State.reset, Config.initial], by simp [State.reset, Config.initial], by decide +kernel⟩

theorem witness_BusyBlockAcceptsNothing : (busy .clear bus8 [.wait 1600]).seq = .busy .clear bus8 [.wait 1600] ∧
    isRequest (.printInt 2147483647) = true ∧ (Instr.printInt 2147483647).wellFormed (busy .clear bus8 [.wait 1600]).cfg = true ∧
    ∃ t, step (busy .clear bus8 [.wait 1600]) = .next t := ⟨rfl, rfl, by decide, _, rfl⟩

theorem witness_AcceptedInstructionsRunToTheirEnd : (∃ t, (ready bus4).seq = .idle ∧ exec .clear (ready bus4) = .next t ∧
      t.seq = .busy .clear bus4 (clearDisplayEvents bus4) ∧ AnswersOk (configureCalls (clearDisplayEvents bus4)) (ready bus4)) ∧
    ∃ s t : State, s.seq = .idle ∧ exec (.init (some p4)) s = .next t ∧ t.seq = .busy (.init (some p4)) bus4 (initEvents bus4) ∧
      AnswersOk (configureCalls (initEvents bus4)) s :=
  ⟨⟨_, rfl, rfl, rfl, fun _ hj => absurd hj (Nat.not_lt_zero _)⟩, { State.reset with cfgAnswers := List.replicate 6 .ok }, _, rfl, rfl, rfl, by
    have : configureCalls (initEvents bus4) = 6 := by decide +kernel
    rw [this]; exact answersOk_of_listed rfl⟩

theorem witness_FixedPointFormatterLaws : floatRepresentable Config.initial.floatFmt piValue = true ∧
    isNearest314159 Config.initial.floatFmt 3537115888337719 (-50) = true ∧
    (∃ narrow : FloatFmt, narrow.mantBits = 2 ∧ floatRepresentable narrow (.finite false 3 0) = true ∧
      isNearest314159 narrow 3 0 = true) ∧
    floatRepresentable Config.initial.floatFmt (.finite true 1 (-2)) = true ∧ ((1 : Nat) : ℚ) * 2 ^ (-2 : Int) * 10 ^ 2 = (25 : Nat) ∧
    floatRepresentable Config.initial.floatFmt (.finite false 25 0) = true ∧ ((25 : Nat) : ℚ) * 2 ^ (0 : Int) = (25 : Nat) := by
  refine ⟨by decide +kernel, by decide +kernel, ⟨⟨2, -10, 10⟩, by decide⟩, by decide, by norm_num, by decide, by norm_num⟩

theorem ready_DriverInv : DriverInv (ready bus8) ∧ DriverInv (ready bus4) :=
  ⟨⟨fun _ => ⟨bus8, rfl, by decide, by decide⟩, by simp [ready], trivial⟩,
   ⟨fun _ => ⟨bus4, rfl, by decide, by decide⟩, by simp [ready], trivial⟩⟩

theorem witness_CommandsKeepTheReceiverInStep : DriverInv (ready bus4) ∧ Instr.role (.clearRow 1) = .command ∧
    (∃ t, exec (.clearRow 1) (ready bus4) = .next t ∧ t.seq = .busy (.clearRow 1) bus4 (clearRowEvents 1 bus4)) ∧
    InStep bus4.mode (ready bus4) :=
  ⟨ready_DriverInv.2, rfl, ⟨_, rfl, rfl⟩, rfl, fun _ => rfl, by decide, rfl, rfl⟩

/-- The text "Hi" at the end of row 1, and 39 bytes from its column 0. -/
theorem witness_PrintedTextStandsInDdram : ∃ s : State, DriverInv s ∧ s.seq = .idle ∧ s.initialized = true ∧ s.bus = some bus8 ∧
    InStep bus8.mode s ∧ (0x00#8 : Byte) ∉ [0x48#8, 0x69#8] ∧ 14 + [0x48#8, 0x69#8].length ≤ 0x27 ∧ 0 + (List.replicate 39 0x20#8).length ≤ 0x27 ∧
    s.receiver.ac = BitVec.ofNat 7 (0x40 * 1 + 14) :=
  ⟨{ ready bus8 with receiver := { inStepReceiver .eightBit with ac := 0x4E#7 } }, ready_DriverInv.1, rfl, rfl, rfl,
    ⟨rfl, fun h => (by cases h), by decide, rfl, rfl⟩, by decide, by decide, by decide, by decide⟩

theorem witness_CursorRequestsMoveTheAddressCounter : DriverInv (ready bus8) ∧ (ready bus8).seq = .idle ∧
    (ready bus8).initialized = true ∧ (ready bus8).bus = some bus8 ∧ InStep bus8.mode (ready bus8) :=
  ⟨ready_DriverInv.1, rfl, rfl, rfl, rfl, fun h => (by cases h), by decide, rfl, rfl⟩

/-- A state that meets every invariant, and a step from it, both idle and busy. -/
theorem witness_StepInvariants : DriverInv (ready bus8) ∧ CanonicalForm (ready bus8) ∧ TimingInv (ready bus8) ∧
    EnableLow (ready bus8) ∧ (ready bus8).initialized = true ∧
    ∃ t, step { ready bus8 with requests := [.req 2#4 [.int 1, .int 5]] } = .next t ∧ t.seq ≠ .idle :=
  ⟨ready_DriverInv.1, ⟨rfl, rfl, by decide +kernel⟩,
    ⟨by simp [ready], fun p hp => by cases hp; rfl⟩, fun p hp => by cases hp; rfl, rfl,
    ⟨_, rfl, fun h => by cases h⟩⟩

theorem witness_TransmissionCountsAndTimes : distinct (set8 p8) = true ∧ distinct (set4 p4) = true := by decide

theorem witness_OnlyTheEndOfInitWritesTheDriverState : ∃ s t : State, step s = .next t ∧ t.initialized ≠ s.initialized :=
  ⟨State.reset.busyWith (.init (some p8)) bus8 [], _, rfl, by decide⟩

theorem witness_RequestTimes : (100 : Nat) ≤ 100 ∧ filledOf (100 : Nat) = 16 := by decide

end Sys2Proof.Tests
end

section
/-!
PROOFS, family 00_scope.md: what one step adds to the observation (00_scope.md rule R9, 10_state.md rule R27).
-/

namespace Sys2Proof.Machine

/-- From `s` to `t` at most one status is added, and one that is added leaves the block `Idle`. -/
def StatusesGrow (s t : State) : Prop :=
  t.statuses = s.statuses ∨ (t.seq = .idle ∧ ∃ k, t.statuses = s.statuses ++ [k])

/-- From `s` to `t` the observation grows as `Obligations.StepsOnlyAppendToTheObservation` allows in one step. -/
def ObservationGrows (s t : State) : Prop :=
  (t.trace = s.trace ∨ ∃ e, t.trace = s.trace ++ [e]) ∧ StatusesGrow s t ∧
    s.now + waitTotal (t.trace.drop s.trace.length) ≤ t.now ∧ t.cfg = s.cfg

/-- A change that performs no event needs no time. -/
theorem observationGrows_of_same_trace {s t : State} (htrace : t.trace = s.trace) (hstatuses : StatusesGrow s t)
    (hnow : s.now ≤ t.now) (hcfg : t.cfg = s.cfg) : ObservationGrows s t :=
  ⟨.inl htrace, hstatuses, by simpa [htrace, waitTotal] using hnow, hcfg⟩

/-- A change that performs one event needs the time that the event waits. -/
theorem observationGrows_of_event {s t : State} (e : Event) (htrace : t.trace = s.trace ++ [e])
    (hstatuses : StatusesGrow s t) (hnow : s.now + waitTotal [e] ≤ t.now) (hcfg : t.cfg = s.cfg) : ObservationGrows s t :=
  ⟨.inr ⟨e, htrace⟩, hstatuses, by simpa [htrace] using hnow, hcfg⟩

/-- The end of a request or of a bus word performs no event. -/
theorem observationGrows_finish (i : Instr) (bus : Bus) (s : State) : ObservationGrows s (s.finish i bus) := by
  obtain ⟨-, h⟩ | ⟨-, h⟩ | ⟨-, h⟩ := finish_cases i bus s <;> rw [h]
  · exact observationGrows_of_same_trace rfl (.inr ⟨rfl, .ok, rfl⟩) le_rfl rfl
  · exact observationGrows_of_same_trace rfl (.inr ⟨rfl, .ok, rfl⟩) le_rfl rfl
  · exact observationGrows_of_same_trace rfl (.inl rfl) le_rfl rfl

/-- One event performed, the request still running: no status yet. -/
theorem observationGrows_perform (i : Instr) (bus : Bus) (a : Action) (more : List Action) (s : State) :
    ObservationGrows s ((s.perform bus a).busyWith i bus more) :=
  observationGrows_of_event (a.event .ok) (perform_trace bus a s) (.inl (perform_statuses bus a s))
    (now_performAll bus [a] s) (perform_cfg bus a s)

/-- A configure call answered Fail: its event and the error status come in one step (rule R132). -/
theorem observationGrows_configureFail (p : PinId) (k : Status) (s : State) :
    ObservationGrows s ((s.configureFail p).raise k) :=
  observationGrows_of_event (.configure p .fail) rfl (.inr ⟨rfl, k, rfl⟩) (by simp [waitTotal]) rfl

/-- The step of a busy sequencer. -/
theorem observationGrows_advance (i : Instr) (bus : Bus) (rest : List Action) (s : State) :
    ObservationGrows s (s.advance i bus rest) := by
  obtain ⟨-, h⟩ | ⟨a, more, -, -, h⟩ | ⟨p, more, -, -, h⟩ := advance_cases i bus rest s <;> rw [h]
  · exact observationGrows_finish i bus s
  · exact observationGrows_perform i bus a more s
  · exact observationGrows_configureFail p _ s

/-- A request issued to an idle block: accepted, or ended at entry with a status, and no event yet. -/
theorem observationGrows_issue {s t : State} {i : Instr} {cs : List CodeWord} (hs : s.seq = .idle)
    (h : exec i (s.takeRequest cs) = .next t) : ObservationGrows s t := by
  obtain ⟨k, -, -, rfl⟩ | ⟨bus, rfl, -⟩ := exec_cases (s := s.takeRequest cs) hs h
  · exact observationGrows_of_same_trace rfl (.inr ⟨rfl, k, rfl⟩) le_rfl rfl
  · exact observationGrows_of_same_trace rfl (.inl rfl) le_rfl rfl

/-- The wait for the host's next request adds time and nothing else. -/
theorem observationGrows_idleWait (s : State) : ObservationGrows s s.idleWait :=
  observationGrows_of_same_trace rfl (.inl rfl) (Nat.le_add_right _ _) rfl

/-- Whatever a step does, the observation grows by what one step may add. -/
theorem step_observationGrows {s t : State} (h : step s = .next t) : ObservationGrows s t := by
  cases hs : s.seq with
  | busy i bus rest =>
    rw [step_busy hs] at h
    cases h
    exact observationGrows_advance i bus rest s
  | idle =>
    obtain ⟨-, rfl⟩ | ⟨c, rest, i, -, -, hexec⟩ := step_idle_cases hs h
    · exact observationGrows_idleWait s
    · exact observationGrows_issue hs hexec

/-- Settles O50, by cases on the sequencer: a busy step is `State.advance`, an idle one waits or issues a request. -/
theorem stepsOnlyAppendToTheObservation : Obligations.StepsOnlyAppendToTheObservation :=
  fun _ _ h => step_observationGrows h

end Sys2Proof.Machine
end

section
/-!
PROOFS, family 10_state.md: the driver state and its invariant (rules R20 to R29), the sequencer's steps (rule R27), and the
canonical form of the state's lists.
-/

namespace Sys2Proof.Machine

/-! ### The driver state across a step -/

/-- From `s` to `t` the driver state keeps its value and no pin loses its configuration. -/
structure DriverStateKept (s t : State) : Prop where
  cfg : t.cfg = s.cfg
  initialized : t.initialized = s.initialized
  mode : t.mode = s.mode
  pins : t.pins = s.pins
  configured : ∀ p ∈ s.configured, p ∈ t.configured

/-- An operation that writes neither the driver state nor the configured set, such as the end of a command. -/
theorem driverStateKept_of_eq {s t : State} (hcfg : t.cfg = s.cfg) (hinit : t.initialized = s.initialized)
    (hmode : t.mode = s.mode) (hpins : t.pins = s.pins) (hconf : t.configured = s.configured) : DriverStateKept s t :=
  ⟨hcfg, hinit, hmode, hpins, fun _ hp => hconf ▸ hp⟩

/-- One event performed adds at most a pin to the configured set (rule R28). -/
theorem driverStateKept_perform (i : Instr) (bus : Bus) (a : Action) (more : List Action) (s : State) :
    DriverStateKept s ((s.perform bus a).busyWith i bus more) :=
  ⟨perform_cfg bus a s, perform_initialized bus a s, perform_mode bus a s, perform_pins bus a s,
    fun p hp => (mem_configured_performAll bus [a] s p).2 (.inl hp)⟩

theorem DriverStateKept.bus {s t : State} (h : DriverStateKept s t) : t.bus = s.bus := State.bus_congr h.mode h.pins

/-- The step of a busy sequencer keeps the driver state, but for INIT's final write (43_initializer.md rule R140). -/
theorem driverStateKept_advance (i : Instr) (bus : Bus) (rest : List Action) (s : State) :
    DriverStateKept s (s.advance i bus rest) ∨
    (Instr.role i = .initializer ∧ rest = [] ∧ s.advance i bus rest = (s.commit bus).returnStatus .ok) := by
  obtain ⟨hrest, h⟩ | ⟨a, more, -, -, h⟩ | ⟨p, more, -, -, h⟩ := advance_cases i bus rest s <;> rw [h]
  · obtain ⟨hrole, hf⟩ | ⟨-, hf⟩ | ⟨-, hf⟩ := finish_cases i bus s <;> rw [hf]
    · exact .inr ⟨hrole, hrest, rfl⟩
    · exact .inl (driverStateKept_of_eq rfl rfl rfl rfl rfl)
    · exact .inl (driverStateKept_of_eq rfl rfl rfl rfl rfl)
  · exact .inl (driverStateKept_perform i bus a more s)
  · exact .inl (driverStateKept_of_eq rfl rfl rfl rfl rfl)

/-- A request issued to an idle block, and the wait for one, keep the driver state. -/
theorem driverStateKept_idle {s t : State} (hs : s.seq = .idle) (h : step s = .next t) : DriverStateKept s t := by
  obtain ⟨-, rfl⟩ | ⟨c, cs, i, -, -, hexec⟩ := step_idle_cases hs h
  · exact driverStateKept_of_eq rfl rfl rfl rfl rfl
  · obtain ⟨k, -, -, rfl⟩ | ⟨bus, rfl, -⟩ := exec_cases (s := s.takeRequest cs) hs hexec
    · exact driverStateKept_of_eq rfl rfl rfl rfl rfl
    · exact driverStateKept_of_eq rfl rfl rfl rfl rfl

/-- Any step keeps the driver state, or is the last step of an INIT and writes it. -/
theorem step_keeps_or_commits {s t : State} (h : step s = .next t) :
    DriverStateKept s t ∨
    ∃ i bus, s.seq = .busy i bus [] ∧ Instr.role i = .initializer ∧ t = (s.commit bus).returnStatus .ok := by
  cases hs : s.seq with
  | idle => exact .inl (driverStateKept_idle hs h)
  | busy i bus rest =>
    rw [step_busy hs] at h
    cases h
    obtain hkept | ⟨hrole, rfl, hcommit⟩ := driverStateKept_advance i bus rest s
    · exact .inl hkept
    · exact .inr ⟨i, bus, rfl, hrole, hcommit⟩

/-! ### The driver-state invariant, in its two parts -/

/-- What `DriverInv` says of `initialized`, `mode`, `pins` and the configured set, whatever the sequencer does (rules R22, R23
and R25). -/
def DriverStateGood (s : State) : Prop :=
  (s.initialized = true → ∃ bus : Bus, s.bus = some bus ∧ validate s.cfg bus.pins = some bus.mode ∧
    ∀ p ∈ activeSet bus.mode bus.pins, p ∈ s.configured) ∧
  (s.initialized = false → s.mode = none ∧ s.pins = none)

/-- What `DriverInv` says of the request in progress (rule R27). -/
def RequestGood (s : State) (i : Instr) (bus : Bus) (rest : List Action) : Prop :=
  isRequest i = true ∧ rest <:+ eventsOf s.cfg i bus ∧
  (Instr.role i = .initializer →
    s.initialized = false ∧ validate s.cfg bus.pins = some bus.mode ∧
    ∀ p ∈ activeSet bus.mode bus.pins, p ∈ s.configured ∨ Action.configure p ∈ rest) ∧
  (Instr.role i ≠ .initializer → s.initialized = true ∧ s.bus = some bus)

theorem DriverInv.driverState {s : State} (h : DriverInv s) : DriverStateGood s := ⟨h.1, h.2.1⟩

theorem DriverInv.request {s : State} {i : Instr} {bus : Bus} {rest : List Action} (h : DriverInv s)
    (hs : s.seq = .busy i bus rest) : RequestGood s i bus rest := by
  have hseq := h.2.2
  rw [hs] at hseq
  exact hseq

theorem driverInv_of_idle {s : State} (hs : s.seq = .idle) (h : DriverStateGood s) : DriverInv s :=
  ⟨h.1, h.2, by rw [hs]; trivial⟩

theorem driverInv_of_busy {s : State} {i : Instr} {bus : Bus} {rest : List Action} (hs : s.seq = .busy i bus rest)
    (h : DriverStateGood s) (hreq : RequestGood s i bus rest) : DriverInv s :=
  ⟨h.1, h.2, by rw [hs]; exact hreq⟩

theorem DriverStateGood.of_kept {s t : State} (h : DriverStateGood s) (k : DriverStateKept s t) : DriverStateGood t := by
  obtain ⟨hinit, hun⟩ := h
  refine ⟨fun ht => ?_, fun ht => ?_⟩
  · obtain ⟨bus, hbus, hvalid, hconf⟩ := hinit (k.initialized ▸ ht)
    exact ⟨bus, k.bus.trans hbus, k.cfg ▸ hvalid, fun p hp => k.configured p (hconf p hp)⟩
  · rw [k.mode, k.pins]
    exact hun (k.initialized ▸ ht)

/-- INIT's final write makes a good driver state of its candidate: nothing is left to configure (rules R25 and R140). -/
theorem RequestGood.commit {s : State} {i : Instr} {bus : Bus} (h : RequestGood s i bus [])
    (hrole : Instr.role i = .initializer) : DriverStateGood (s.commit bus) := by
  obtain ⟨-, -, hinit, -⟩ := h
  obtain ⟨-, hvalid, hconf⟩ := hinit hrole
  refine ⟨fun _ => ⟨bus, s.commit_bus bus, hvalid, fun p hp => ?_⟩, nofun⟩
  simpa using hconf p hp

/-- The request in progress stays good over one event: a configure call that leaves the list has its pin configured. -/
theorem RequestGood.perform {s : State} {i : Instr} {bus : Bus} {a : Action} {more : List Action}
    (h : RequestGood s i bus (a :: more)) : RequestGood ((s.perform bus a).busyWith i bus more) i bus more := by
  have k := driverStateKept_perform i bus a more s
  obtain ⟨hreq, hrest, hinit, hcommand⟩ := h
  refine ⟨hreq, k.cfg ▸ (List.suffix_cons a more).trans hrest, fun hrole => ?_, fun hrole => ?_⟩
  · obtain ⟨hun, hvalid, hconf⟩ := hinit hrole
    refine ⟨k.initialized.trans hun, k.cfg ▸ hvalid, fun p hp => ?_⟩
    have hperf := mem_configured_performAll bus [a] s p
    obtain hc | hc := hconf p hp
    · exact .inl (k.configured p hc)
    · obtain rfl | hc := List.mem_cons.1 hc
      · exact .inl (hperf.2 (.inr (List.mem_singleton_self _)))
      · exact .inr hc
  · obtain ⟨hi, hbus⟩ := hcommand hrole
    exact ⟨k.initialized.trans hi, k.bus.trans hbus⟩

/-- INIT's list configures the whole active set (43_initializer.md rule R132). -/
theorem configure_mem_initEvents {bus : Bus} {p : PinId} (hp : p ∈ activeSet bus.mode bus.pins) :
    Action.configure p ∈ initEvents bus := by
  obtain ⟨later, hevents, -⟩ := initEvents_split bus
  rw [hevents]
  exact List.mem_append_left _ (List.mem_map_of_mem hp)

/-- A request that `Idle` accepts starts good. -/
theorem requestGood_of_accepted {s : State} {i : Instr} {bus : Bus}
    (h : (Instr.role i = .initializer ∧ s.initialized = false ∧ i = .init (some bus.pins) ∧
        validate s.cfg bus.pins = some bus.mode) ∨
      (Instr.role i = .command ∧ s.initialized = true ∧ argOk s.cfg i = true ∧ s.bus = some bus)) :
    RequestGood (s.busyWith i bus (eventsOf s.cfg i bus)) i bus (eventsOf s.cfg i bus) := by
  obtain ⟨hrole, hun, rfl, hvalid⟩ | ⟨hrole, hinit, -, hbus⟩ := h
  · exact ⟨rfl, List.suffix_rfl, fun _ => ⟨hun, hvalid, fun p hp => .inr (configure_mem_initEvents hp)⟩,
      fun hne => absurd hrole hne⟩
  · exact ⟨by simp [isRequest, hrole], List.suffix_rfl, fun h => by simp [hrole] at h, fun _ => ⟨hinit, hbus⟩⟩

theorem driverInv_advance {s : State} {i : Instr} {bus : Bus} {rest : List Action} (hs : s.seq = .busy i bus rest)
    (h : DriverInv s) : DriverInv (s.advance i bus rest) := by
  have hstate := h.driverState
  have hreq := h.request hs
  obtain ⟨rfl, ht⟩ | ⟨a, more, rfl, -, ht⟩ | ⟨p, more, rfl, -, ht⟩ := advance_cases i bus rest s <;> rw [ht]
  · obtain ⟨hrole, hf⟩ | ⟨-, hf⟩ | ⟨-, hf⟩ := finish_cases i bus s <;> rw [hf]
    · exact driverInv_of_idle rfl ((hreq.commit hrole).of_kept (driverStateKept_of_eq rfl rfl rfl rfl rfl))
    · exact driverInv_of_idle rfl (hstate.of_kept (driverStateKept_of_eq rfl rfl rfl rfl rfl))
    · exact driverInv_of_idle rfl (hstate.of_kept (driverStateKept_of_eq rfl rfl rfl rfl rfl))
  · exact driverInv_of_busy rfl (hstate.of_kept (driverStateKept_perform i bus a more s)) hreq.perform
  · exact driverInv_of_idle rfl (hstate.of_kept (driverStateKept_of_eq rfl rfl rfl rfl rfl))

theorem driverInv_issue {s t : State} {i : Instr} (hs : s.seq = .idle) (h : DriverStateGood s)
    (hexec : exec i s = .next t) : DriverInv t := by
  obtain ⟨k, -, -, rfl⟩ | ⟨bus, rfl, haccepted⟩ := exec_cases hs hexec
  · exact driverInv_of_idle rfl (h.of_kept (driverStateKept_of_eq rfl rfl rfl rfl rfl))
  · exact driverInv_of_busy rfl (h.of_kept (driverStateKept_of_eq rfl rfl rfl rfl rfl)) (requestGood_of_accepted haccepted)

/-- Settles O44, by cases on the sequencer: each event keeps both parts of the invariant, INIT's final write turns its good
candidate into a good driver state, and what is accepted in `Idle` starts good. -/
theorem stepKeepsTheDriverInvariant : Obligations.StepKeepsTheDriverInvariant := by
  intro s t hinv h
  cases hs : s.seq with
  | busy i bus rest =>
    rw [step_busy hs] at h
    cases h
    exact driverInv_advance hs hinv
  | idle =>
    obtain ⟨-, rfl⟩ | ⟨c, cs, i, -, -, hexec⟩ := step_idle_cases hs h
    · exact driverInv_of_idle hs (hinv.driverState.of_kept (driverStateKept_of_eq rfl rfl rfl rfl rfl))
    · exact driverInv_issue (s := s.takeRequest cs) hs
        (hinv.driverState.of_kept (driverStateKept_of_eq rfl rfl rfl rfl rfl)) hexec

/-- Settles O48: of all steps only INIT's last writes the driver state, and INIT runs uninitialized. -/
theorem initializationIsForGood : Obligations.InitializationIsForGood := by
  intro s t hinv h hinit
  obtain hkept | ⟨i, bus, hs, hrole, -⟩ := step_keeps_or_commits h
  · exact ⟨hkept.initialized.trans hinit, hkept.mode, hkept.pins⟩
  · obtain ⟨-, -, hun, -⟩ := hinv.request hs
    rw [(hun hrole).1] at hinit
    cases hinit

/-! ### What a request's meaning is -/

theorem eq_init_of_role {i : Instr} (h : Instr.role i = .initializer) : ∃ pins, i = .init pins := by
  cases i with
  | init pins => exact ⟨pins, rfl⟩
  | _ => cases h

/-- The meaning of a well-formed request other than INIT, whichever request (44_command_layer.md rule R150). -/
theorem exec_command {i : Instr} {s : State} (hrole : Instr.role i = .command) (hw : i.wellFormed s.cfg = true) :
    exec i s = commandRequest i (argOk s.cfg i) (eventsOf s.cfg i) s := by
  cases i with
  | clear => rfl
  | setCursor row col => rfl
  | progressBar row progress => rfl
  | clearRow row => rfl
  | printChars text => exact if_pos hw
  | printInt value => exact if_pos hw
  | printFloat value precision => exact if_pos hw
  | _ => cases hrole

/-- A request other than INIT whose operands cannot be written is refused (30_encoding.md rule R72). -/
theorem exec_command_illFormed {i : Instr} {s : State} (hrole : Instr.role i = .command) (hw : i.wellFormed s.cfg = false) :
    ∃ r, exec i s = .refused r := by
  cases i with
  | clear => cases hw
  | setCursor row col => cases hw
  | progressBar row progress => cases hw
  | clearRow row => cases hw
  | printChars text => exact ⟨_, if_neg (ne_true_of_eq_false hw)⟩
  | printInt value => exact ⟨_, if_neg (ne_true_of_eq_false hw)⟩
  | printFloat value precision => exact ⟨_, if_neg (ne_true_of_eq_false hw)⟩
  | _ => cases hrole

/-- Settles O20: the entry checks pass, and then the bus has no value to read. -/
theorem absentDriverStateFaults : Obligations.AbsentDriverStateFaults := by
  intro s i hs habsent hw hrole hinit harg
  have hbus : s.bus = none := by
    unfold State.bus
    obtain hm | hp := habsent
    · rw [hm]
    · rw [hp]; cases s.mode <;> rfl
  rw [exec_command hrole hw, commandRequest, hs]
  simp [hinit, harg, hbus, entryError_good]

/-! ### A busy block and the host's requests -/

theorem exec_request_busy {i j : Instr} {bus : Bus} {rest : List Action} {s : State} (hs : s.seq = .busy j bus rest)
    (hreq : isRequest i = true) (hw : i.wellFormed s.cfg = true) : exec i s = .refused .requestWhileBusy := by
  cases hrole : Instr.role i with
  | command => rw [exec_command hrole hw, commandRequest, hs]
  | initializer =>
    obtain ⟨pins, rfl⟩ := eq_init_of_role hrole
    simp only [exec, execInit, hs]
  | busWord => simp [isRequest, hrole] at hreq
  | reservedCode => simp [isRequest, hrole] at hreq

/-- No event looks at the host's requests. -/
theorem perform_takeRequest (bus : Bus) (a : Action) (cs : List CodeWord) (s : State) :
    (s.takeRequest cs).perform bus a = (s.perform bus a).takeRequest cs := by
  cases a with
  | configure p => rfl
  | wait n => rfl
  | set p v => simp only [State.perform, State.setPin]; split <;> rfl

theorem finish_takeRequest (i : Instr) (bus : Bus) (cs : List CodeWord) (s : State) :
    (s.takeRequest cs).finish i bus = (s.finish i bus).takeRequest cs := by
  unfold State.finish; split <;> rfl

/-- The step of a busy sequencer does not look at the host's requests. -/
theorem advance_takeRequest (i : Instr) (bus : Bus) (rest : List Action) (cs : List CodeWord) (s : State) :
    (s.takeRequest cs).advance i bus rest = (s.advance i bus rest).takeRequest cs := by
  have hanswer : (s.takeRequest cs).nextAnswer = s.nextAnswer := rfl
  cases rest with
  | nil => exact finish_takeRequest i bus cs s
  | cons a more =>
    cases a with
    | configure p => simp only [State.advance, hanswer]; split <;> rfl
    | wait n => rfl
    | set p v => exact congrArg (State.busyWith i bus more) (perform_takeRequest bus (.set p v) cs s)

/-- Settles O35: every request's meaning refuses first where the sequencer is busy, and the busy step is `State.advance`. -/
theorem busyBlockAcceptsNothing : Obligations.BusyBlockAcceptsNothing := by
  intro s i j bus rest hs
  refine ⟨exec_request_busy hs, fun cs t h => ?_⟩
  rw [step_busy hs] at h
  cases h
  rw [step_busy (s := { s with requests := cs }) hs]
  exact congrArg Host.Outcome.next (advance_takeRequest j bus rest cs s)

/-! ### A busy step performs its head event -/

@[simp] theorem State.latchOf_busyWith (i : Instr) (bus : Bus) (rest : List Action) (s : State) (q : PinId) :
    (s.busyWith i bus rest).latchOf q = s.latchOf q := rfl

/-- Settles O5: the busy step on each kind of event, read field by field. -/
theorem busyStepPerformsTheHeadEvent : Obligations.BusyStepPerformsTheHeadEvent := by
  intro s i bus rest
  refine ⟨fun p v hs => ?set, fun n hs => ?wait, fun p hs hok => ?ok, fun p hs hfail => ?fail⟩
  case set =>
    refine ⟨(s.setPin bus p v).busyWith i bus rest, step_busy hs, ?_⟩
    simp +contextual [State.latchOf_setPin, State.setPin_receiver]
  case wait =>
    refine ⟨(s.waitFor n).busyWith i bus rest, step_busy hs, ?_⟩
    simp
  case ok =>
    refine ⟨(s.configureOk p).busyWith i bus rest, by simp [step_busy hs, State.advance, hok], ?_⟩
    simp [PinSet.mem_insert]
  case fail =>
    refine ⟨(s.configureFail p).raise .hardwareConfigurationFailure, by simp [step_busy hs, State.advance, hfail], ?_⟩
    simp

/-! ### Accepted requests run to their end -/

section Finish

variable (i : Instr) (bus : Bus) (s : State)

theorem finish_cfg : (s.finish i bus).cfg = s.cfg := by unfold State.finish; split <;> rfl
theorem finish_latchOf (q : PinId) : (s.finish i bus).latchOf q = s.latchOf q := by unfold State.finish; split <;> rfl
theorem finish_configured : (s.finish i bus).configured = s.configured := by unfold State.finish; split <;> rfl
theorem finish_seq : (s.finish i bus).seq = .idle := by unfold State.finish; split <;> rfl
theorem finish_trace : (s.finish i bus).trace = s.trace := by unfold State.finish; split <;> rfl
theorem finish_now : (s.finish i bus).now = s.now := by unfold State.finish; split <;> rfl
theorem finish_requests : (s.finish i bus).requests = s.requests := by unfold State.finish; split <;> rfl

variable {i}

/-- Every request that ends returns Ok. -/
theorem finish_statuses (h : isRequest i = true) : (s.finish i bus).statuses = s.statuses ++ [.ok] := by
  obtain ⟨-, hf⟩ | ⟨-, hf⟩ | ⟨hrole | hrole, -⟩ := finish_cases i bus s
  · rw [hf]; rfl
  · rw [hf]; rfl
  · simp [isRequest, hrole] at h
  · simp [isRequest, hrole] at h

/-- INIT's end commits its candidate (43_initializer.md rule R140). -/
theorem finish_initializer (h : Instr.role i = .initializer) :
    (s.finish i bus).initialized = true ∧ (s.finish i bus).mode = some bus.mode ∧ (s.finish i bus).pins = some bus.pins := by
  simp [State.finish, h]

/-- Nothing else writes the driver state at its end. -/
theorem finish_driverState (h : Instr.role i ≠ .initializer) :
    (s.finish i bus).initialized = s.initialized ∧ (s.finish i bus).mode = s.mode ∧ (s.finish i bus).pins = s.pins := by
  obtain ⟨hrole, -⟩ | ⟨-, hf⟩ | ⟨-, hf⟩ := finish_cases i bus s
  · exact absurd hrole h
  · rw [hf]; exact ⟨rfl, rfl, rfl⟩
  · rw [hf]; exact ⟨rfl, rfl, rfl⟩

end Finish

/-- Settles O36: the run performs every event (`run_accepted`) and finishes, and each field is what the events leave. -/
theorem acceptedInstructionsRunToTheirEnd : Obligations.AcceptedInstructionsRunToTheirEnd := by
  intro s t i bus events hs hexec ht hanswers
  obtain ⟨-, hreq, hrun⟩ := run_accepted hs hexec ht hanswers
  refine ⟨_, hrun, finish_seq _ _ _, ?trace, ?statuses, ?init, ?other, ?configured, ?latch, ?unset, ?now, ?cfg, ?requests⟩
  case trace => rw [finish_trace, performAll_trace]
  case statuses => rw [finish_statuses bus _ hreq, performAll_statuses]
  case init => exact fun hrole => finish_initializer bus _ hrole
  case other =>
    intro hrole
    obtain ⟨hinit, hmode, hpins⟩ := finish_driverState bus (State.performAll bus events s) hrole
    exact ⟨hinit.trans (performAll_initialized ..), hmode.trans (performAll_mode ..), hpins.trans (performAll_pins ..)⟩
  case configured => intro q; rw [finish_configured, mem_configured_performAll]
  case latch => intro q; rw [finish_latchOf, latchOf_performAll]
  case unset => intro q hq; rw [finish_latchOf, latchOf_performAll, levelAfter_of_not_set hq]
  case now => rw [finish_now]; exact now_performAll bus events s
  case cfg => rw [finish_cfg, performAll_cfg]
  case requests => rw [finish_requests, performAll_requests]

/-! ### The canonical form of the lists -/

theorem CanonicalForm.of_eq {s t : State} (h : CanonicalForm s) (hlatch : t.latch = s.latch)
    (hconf : t.configured = s.configured) (hrecv : t.receiver = s.receiver) : CanonicalForm t := by
  unfold CanonicalForm
  rw [hlatch, hconf, hrecv]
  exact h

theorem CanonicalForm.drive {s : State} (h : CanonicalForm s) (p : PinId) (v : Level) : CanonicalForm (s.drive p v) := by
  obtain ⟨hlatch, hconf, hddram⟩ := h
  exact ⟨Sparse.wf_write _ p v hlatch, hconf, hddram⟩

theorem CanonicalForm.receive {s : State} (h : CanonicalForm s) (bus : Bus) : CanonicalForm (s.receive bus) := by
  obtain ⟨hlatch, hconf, hddram⟩ := h
  exact ⟨hlatch, hconf, wf_recv _ _ _ _ hddram⟩

theorem CanonicalForm.configureOk {s : State} (h : CanonicalForm s) (p : PinId) : CanonicalForm (s.configureOk p) := by
  obtain ⟨hlatch, hconf, hddram⟩ := h
  exact ⟨hlatch, PinSet.wf_insert _ p hconf, hddram⟩

theorem CanonicalForm.perform {s : State} (h : CanonicalForm s) (bus : Bus) (a : Action) :
    CanonicalForm (s.perform bus a) := by
  cases a with
  | configure p => exact h.configureOk p
  | wait n => exact h.of_eq rfl rfl rfl
  | set p v =>
    simp only [State.perform, State.setPin]
    split
    · exact (h.drive p v).receive bus
    · exact h.drive p v

theorem CanonicalForm.advance {s : State} (h : CanonicalForm s) (i : Instr) (bus : Bus) (rest : List Action) :
    CanonicalForm (s.advance i bus rest) := by
  obtain ⟨-, ht⟩ | ⟨a, more, -, -, ht⟩ | ⟨p, more, -, -, ht⟩ := advance_cases i bus rest s <;> rw [ht]
  · obtain ⟨-, hf⟩ | ⟨-, hf⟩ | ⟨-, hf⟩ := finish_cases i bus s <;> rw [hf] <;> exact h.of_eq rfl rfl rfl
  · exact (h.perform bus a).of_eq rfl rfl rfl
  · exact h.of_eq rfl rfl rfl

/-- Settles O45: a step writes the lists by `Sparse.write`, `PinSet.insert` and `recv` alone, and each keeps its form. -/
theorem stepKeepsTheCanonicalForm : Obligations.StepKeepsTheCanonicalForm := by
  intro s t hform h
  cases hs : s.seq with
  | busy i bus rest =>
    rw [step_busy hs] at h
    cases h
    exact hform.advance i bus rest
  | idle =>
    obtain ⟨-, rfl⟩ | ⟨c, cs, i, -, -, hexec⟩ := step_idle_cases hs h
    · exact hform.of_eq rfl rfl rfl
    · obtain ⟨k, -, -, rfl⟩ | ⟨bus, rfl, -⟩ := exec_cases (s := s.takeRequest cs) hs hexec <;> exact hform.of_eq rfl rfl rfl

/-! ### What a step runs -/

section Idle

variable {s : State} {c : CodeWord} {rest : List CodeWord} (hs : s.seq = .idle)
include hs

theorem step_idle_nil (hr : s.requests = []) : step s = .next s.idleWait := by
  simp only [step, hs, State.nextRequest, hr]

theorem step_idle_ok {i : Instr} (hr : s.requests = c :: rest) (hd : decode c = .ok i) :
    step s = exec i (s.takeRequest rest) := by
  simp only [step, hs, State.nextRequest, hr, hd]

theorem step_idle_error {e : DecodeError} (hr : s.requests = c :: rest) (hd : decode c = .error e) :
    step s = .refused (.undecodable e) := by
  simp only [step, hs, State.nextRequest, hr, hd]

end Idle

theorem step_fetched {s : State} {i w : Instr} {bus : Bus} {rest : List Action} {c : CodeWord}
    (hs : s.seq = .busy i bus rest) (hf : fetchWord s.cfg i bus rest = some c) (hd : decode c = .ok w) :
    step s = exec w s := by
  simp only [step, hs, hf, hd]

/-- Where a bus word comes next, the busy step is that word's meaning (log entry 8). -/
theorem step_word_due {s : State} {i w : Instr} {bus : Bus} {rest : List Action} (hs : s.seq = .busy i bus rest)
    (hemits : emits i bus.mode w = true) (hnext : eventsOf s.cfg w bus <+: rest) : step s = exec w s := by
  have hdue : wordDue s.cfg i bus rest w = true := by simp [wordDue, hemits, hnext]
  rw [step_busy hs, exec_due hs hdue]

/-- Settles O3: the step's own cases, `Idle` by the host's list and `Busy` by the fetched word. -/
theorem stepRunsTheDecodedRequest : Obligations.StepRunsTheDecodedRequest := by
  intro s
  refine ⟨fun c rest hs => ⟨fun i => step_idle_ok hs, fun e => step_idle_error hs, fun hr => ?_⟩,
    fun i bus rest hs => ⟨fun c w => step_fetched hs, fun w => step_word_due hs⟩⟩
  exact ⟨s.idleWait, step_idle_nil hs hr, Nat.le_add_right _ _, rfl⟩

/-! ### The one fault -/

/-- The entry checks let a request pass only where both hold. -/
theorem entryError_none {cfg : Config} {stateBad argBad : Bool} (h : entryError cfg stateBad argBad = none) :
    stateBad = false ∧ argBad = false := by
  cases stateBad <;> cases argBad <;> cases hp : cfg.errPrecedence <;> simp_all [entryError]

/-- A command faults only where it is initialized and the bus has no value (rule R29). -/
theorem commandRequest_fault {i : Instr} {ok : Bool} {ev : Bus → List Action} {s : State} {f : Fault}
    (h : commandRequest i ok ev s = .fault f) : s.initialized = true ∧ s.bus = none := by
  unfold commandRequest at h
  split at h
  · cases h
  · split at h
    · cases h
    · rename_i hentry
      split at h
      · cases h
      · rename_i hbus
        exact ⟨by simpa using (entryError_none hentry).1, hbus⟩

theorem busWord_not_fault (w : Instr) (ev : Bus → List Action) (s : State) (f : Fault) : busWord w ev s ≠ .fault f := by
  unfold busWord
  split
  · split <;> nofun
  · nofun

theorem execInit_not_fault (pins : Option PinRecord) (s : State) (f : Fault) : execInit pins s ≠ .fault f := by
  unfold execInit
  split
  · nofun
  · split <;> nofun

/-- Only a command faults, and only where it is initialized and the bus has no value (rule R29, log entry 23). -/
theorem exec_fault {i : Instr} {s : State} {f : Fault} (h : exec i s = .fault f) : s.initialized = true ∧ s.bus = none := by
  cases hrole : Instr.role i with
  | busWord => exact absurd (exec_word hrole s ▸ h) (busWord_not_fault _ _ _ _)
  | initializer =>
    obtain ⟨pins, rfl⟩ := eq_init_of_role hrole
    exact absurd h (execInit_not_fault pins s f)
  | reservedCode =>
    cases i with
    | reserved low => cases h
    | _ => cases hrole
  | command =>
    cases hw : i.wellFormed s.cfg with
    | true => exact commandRequest_fault (exec_command hrole hw ▸ h)
    | false =>
      obtain ⟨r, hr⟩ := exec_command_illFormed hrole hw
      rw [hr] at h
      cases h

theorem DriverStateGood.not_absent {s : State} (h : DriverStateGood s) : ¬(s.initialized = true ∧ s.bus = none) := by
  rintro ⟨hinit, hbus⟩
  obtain ⟨bus, hsome, -⟩ := h.1 hinit
  rw [hbus] at hsome
  cases hsome

/-- A step faults only where the request it issues does. -/
theorem step_fault {s : State} {f : Fault} (h : step s = .fault f) : s.initialized = true ∧ s.bus = none := by
  cases hs : s.seq with
  | busy i bus rest => rw [step_busy hs] at h; cases h
  | idle =>
    cases hr : s.requests with
    | nil => rw [step_idle_nil hs hr] at h; cases h
    | cons c rest =>
      cases hd : decode c with
      | error e => rw [step_idle_error hs hr hd] at h; cases h
      | ok i => exact exec_fault (s := s.takeRequest rest) (step_idle_ok hs hr hd ▸ h)

/-- Settles O51: a fault needs an initialized state whose bus has no value, and the invariant excludes it. -/
theorem goodStatesDoNotFault : Obligations.GoodStatesDoNotFault := by
  intro s hinv
  have hgood := hinv.driverState
  exact ⟨fun i f h => hgood.not_absent (exec_fault h), fun f h => hgood.not_absent (step_fault h)⟩

/-! ### Reset -/

/-- Settles O2: at reset nothing is initialized, listed, performed or in progress, and the display data is a draw. -/
theorem resetMeetsTheInvariants : Obligations.ResetMeetsTheInvariants := by
  exact ⟨driverInv_of_idle rfl ⟨nofun, fun _ => ⟨rfl, rfl⟩⟩, ⟨rfl, rfl, Memory.wf_draw 0⟩, ⟨fun _ => rfl, nofun⟩, nofun⟩

end Sys2Proof.Machine
end

section
/-!
PROOFS, family 20_memory.md: which bus words a request's events are made of and where a bus word runs (rules R45 and R46), and
a receiver in step with the block across the commands.
-/

namespace Sys2Proof.Machine

/-! ### The display addresses the block forms (rules R44 and R45) -/

theorem addressFormed_iff (a : BitVec 7) :
    addressFormed a = true ↔ a.toNat < 16 ∨ (0x40 ≤ a.toNat ∧ a.toNat < 0x50) := by
  simp [addressFormed]

/-- A cursor position within bounds has one of the 32 addresses. -/
theorem addressFormed_ddramAddr {row col : Int} (hrow : rowOk row = true) (hcol : colOk col = true) :
    addressFormed (ddramAddr row col) = true := by
  have hall : ∀ n : Fin 16, addressFormed (ddramAddr 0 n.val) = true ∧ addressFormed (ddramAddr 1 n.val) = true := by decide
  obtain ⟨hlow, hhigh⟩ := Bool.and_eq_true_iff.1 hcol
  obtain ⟨n, rfl⟩ := Int.eq_ofNat_of_zero_le (of_decide_eq_true hlow)
  have hhigh : (n : Int) < 16 := of_decide_eq_true hhigh
  obtain ⟨hzero, hone⟩ := hall ⟨n, by omega⟩
  obtain rfl | rfl : row = 0 ∨ row = 1 := by simpa [rowOk] using hrow
  · exact hzero
  · exact hone

/-! ### Which requests emit words (30_encoding.md rule R64) -/

theorem isRequest_of_initializer {i : Instr} (h : Instr.role i = .initializer) : isRequest i = true := by simp [isRequest, h]

theorem isRequest_of_placesCursor {i : Instr} (h : placesCursor i = true) : isRequest i = true := by
  cases i with
  | setCursor row col => rfl
  | progressBar row progress => rfl
  | clearRow row => rfl
  | _ => cases h

theorem isRequest_of_writesText {i : Instr} (h : writesText i = true) : isRequest i = true := by
  cases i with
  | printChars text => rfl
  | printInt value => rfl
  | printFloat value precision => rfl
  | progressBar row progress => rfl
  | clearRow row => rfl
  | _ => cases h

/-- What emits a bus word is one of the host's requests. -/
theorem isRequest_of_emits {i w : Instr} {m : BusWidthMode} (h : emits i m w = true) : isRequest i = true := by
  cases w with
  | nibFset8 => exact isRequest_of_initializer (of_decide_eq_true h)
  | displayControl => exact isRequest_of_initializer (of_decide_eq_true h)
  | entryMode => exact isRequest_of_initializer (of_decide_eq_true h)
  | nibFset4 => exact isRequest_of_initializer (of_decide_eq_true (Bool.and_eq_true_iff.1 h).1)
  | functionSet4bit => exact isRequest_of_initializer (of_decide_eq_true (Bool.and_eq_true_iff.1 h).1)
  | functionSet8bit => exact isRequest_of_initializer (of_decide_eq_true (Bool.and_eq_true_iff.1 h).1)
  | clearDisplay =>
    obtain hinit | hclear := Bool.or_eq_true_iff.1 h
    · exact isRequest_of_initializer (of_decide_eq_true hinit)
    · rw [of_decide_eq_true hclear]; rfl
  | setDdramAddr a => exact isRequest_of_placesCursor (Bool.and_eq_true_iff.1 h).1
  | writeData d => exact isRequest_of_writesText h
  | _ => cases h

/-- The single nibbles are INIT's alone (rule R46). -/
theorem initializer_of_emits_nibble {i w : Instr} {m : BusWidthMode} (h : emits i m w = true)
    (hw : w = .nibFset8 ∨ w = .nibFset4) : Instr.role i = .initializer := by
  obtain rfl | rfl := hw
  · exact of_decide_eq_true h
  · exact of_decide_eq_true (Bool.and_eq_true_iff.1 h).1

/-- An address word that is emitted carries an address the block forms (rule R45). -/
theorem addressFormed_of_emits {i : Instr} {m : BusWidthMode} {a : BitVec 7} (h : emits i m (.setDdramAddr a) = true) :
    addressFormed a = true := (Bool.and_eq_true_iff.1 h).2

/-! ### Where a bus word runs -/

/-- A bus word that no running request emits next is refused (log entry 8). -/
theorem exec_word_not_due {s : State} {w : Instr} (hw : Instr.role w = .busWord)
    (h : ∀ i bus rest, s.seq = .busy i bus rest → ¬(emits i bus.mode w = true ∧ eventsOf s.cfg w bus <+: rest)) :
    exec w s = .refused .wordNotDue := by
  rw [exec_word hw, busWord]
  cases hs : s.seq with
  | idle => rfl
  | busy i bus rest => exact if_neg (by simpa [List.isPrefixOf_iff_prefix] using h i bus rest hs)

/-- Settles O18: a bus word's meaning tests that a running request emits it and that its events come next, and is the busy
step where both hold; what `emits` allows for each word gives the rest. -/
theorem busWordsRunOnlyWhereARequestEmitsThem : Obligations.BusWordsRunOnlyWhereARequestEmitsThem := by
  intro s w hw
  refine ⟨fun hs => ?idle, fun i bus rest hs hnot => ?notDue, fun t ht => ?runs, fun a hlow hhigh => ?address⟩
  case idle => exact exec_word_not_due hw (fun i bus rest hbusy => by rw [hs] at hbusy; cases hbusy)
  case notDue =>
    refine exec_word_not_due hw (fun j b r hbusy => ?_)
    rw [hs] at hbusy
    obtain ⟨rfl, rfl, rfl⟩ := Sequencer.busy.inj hbusy
    exact hnot
  case runs =>
    rw [exec_word hw] at ht
    obtain ⟨i, bus, rest, hs, hemits, hnext, rfl⟩ := busWord_cases ht
    exact ⟨step_busy hs, i, bus, rest, hs, hnext, isRequest_of_emits hemits,
      fun hnib => eq_init_of_role (initializer_of_emits_nibble hemits hnib)⟩
  case address =>
    refine exec_word_not_due rfl (fun i bus rest _ ⟨hemits, _⟩ => ?_)
    have hformed := (addressFormed_iff a).1 (addressFormed_of_emits hemits)
    omega

/-! ### The parts of a request's events -/

/-- What `Obligations.RequestsEmitOnlyTheirWords` allows as one part of the events of `i`: a wait, a configure call of INIT, or
the whole transmission of a word that `i` emits. -/
def EmittedPart (cfg : Config) (i : Instr) (bus : Bus) (part : List Action) : Prop :=
  (∃ n, part = [.wait n]) ∨ (∃ q, part = [.configure q] ∧ Instr.role i = .initializer) ∨
  (∃ w, part = eventsOf cfg w bus ∧ emits i bus.mode w = true ∧ Instr.role w = .busWord ∧
    (w = .nibFset8 ∨ w = .nibFset4 → Instr.role i = .initializer) ∧
    (∀ a, w = .setDdramAddr a → a.toNat < 16 ∨ (0x40 ≤ a.toNat ∧ a.toNat < 0x50)))

/-- These events are a row of such parts. -/
def MadeOfParts (cfg : Config) (i : Instr) (bus : Bus) (as : List Action) : Prop :=
  ∃ parts : List (List Action), as = parts.flatten ∧ ∀ part ∈ parts, EmittedPart cfg i bus part

section Parts

variable {cfg : Config} {i : Instr} {bus : Bus}

theorem MadeOfParts.nil : MadeOfParts cfg i bus [] := ⟨[], rfl, by simp⟩

theorem EmittedPart.madeOfParts {part : List Action} (h : EmittedPart cfg i bus part) : MadeOfParts cfg i bus part :=
  ⟨[part], by simp, by simpa using h⟩

theorem MadeOfParts.append {as bs : List Action} (ha : MadeOfParts cfg i bus as) (hb : MadeOfParts cfg i bus bs) :
    MadeOfParts cfg i bus (as ++ bs) := by
  obtain ⟨ps, rfl, hps⟩ := ha
  obtain ⟨qs, rfl, hqs⟩ := hb
  exact ⟨ps ++ qs, by simp, fun part hpart => (List.mem_append.1 hpart).elim (hps part) (hqs part)⟩

theorem MadeOfParts.flatMap {α : Type} {l : List α} {f : α → List Action} (h : ∀ x ∈ l, EmittedPart cfg i bus (f x)) :
    MadeOfParts cfg i bus (l.flatMap f) :=
  ⟨l.map f, List.flatMap_def .., by simpa using h⟩

theorem MadeOfParts.wait (n : Nat) : MadeOfParts cfg i bus [.wait n] := EmittedPart.madeOfParts (.inl ⟨n, rfl⟩)

/-- A word that the request emits is a part; what R45 and R46 say of it follows. -/
theorem emittedPart_word {w : Instr} (h : emits i bus.mode w = true) : EmittedPart cfg i bus (eventsOf cfg w bus) :=
  .inr (.inr ⟨w, rfl, h, role_of_emits h, initializer_of_emits_nibble h,
    fun a hw => (addressFormed_iff a).1 (addressFormed_of_emits (hw ▸ h))⟩)

theorem MadeOfParts.word (w : Instr) (h : emits i bus.mode w = true) : MadeOfParts cfg i bus (eventsOf cfg w bus) :=
  (emittedPart_word h).madeOfParts

/-- A text's events are the data words of its bytes. -/
theorem MadeOfParts.print (h : writesText i = true) (text : List Byte) : MadeOfParts cfg i bus (printEvents text bus) :=
  MadeOfParts.flatMap fun c _ => emittedPart_word (w := .writeData c) h

/-- A cursor position within bounds is set by an address word. -/
theorem MadeOfParts.cursor (h : placesCursor i = true) {row col : Int} (hrow : rowOk row = true) (hcol : colOk col = true) :
    MadeOfParts cfg i bus (setCursorEvents row col bus) :=
  MadeOfParts.word (.setDdramAddr (ddramAddr row col)) (Bool.and_eq_true_iff.2 ⟨h, addressFormed_ddramAddr hrow hcol⟩)

end Parts

section InitParts

variable (cfg : Config) (pins : Option PinRecord) (bus : Bus)

theorem madeOfParts_configureAll : MadeOfParts cfg (.init pins) bus (configureAllEvents bus) := by
  rw [configureAllEvents, List.map_eq_flatMap]
  exact MadeOfParts.flatMap fun q _ => .inr (.inl ⟨q, rfl, rfl⟩)

theorem madeOfParts_initStep2 : MadeOfParts cfg (.init pins) bus (initStep2Events bus) := by
  have hwake : MadeOfParts cfg (.init pins) bus (nibFset8Events bus) := MadeOfParts.word .nibFset8 rfl
  exact ((((hwake.append (.wait _)).append hwake).append (.wait _)).append hwake).append (.wait _)

theorem madeOfParts_initStep3 : MadeOfParts cfg (.init pins) bus (initStep3Events bus) := by
  obtain ⟨m, p⟩ := bus
  cases m with
  | eightBit => exact MadeOfParts.nil
  | fourBit => exact MadeOfParts.word .nibFset4 rfl

theorem madeOfParts_functionSet : MadeOfParts cfg (.init pins) bus (functionSetEvents bus) := by
  obtain ⟨m, p⟩ := bus
  cases m with
  | eightBit => exact MadeOfParts.word .functionSet8bit rfl
  | fourBit => exact MadeOfParts.word .functionSet4bit rfl

theorem madeOfParts_initStep4 : MadeOfParts cfg (.init pins) bus (initStep4Events bus) := by
  have hset := madeOfParts_functionSet cfg pins bus
  exact (((hset.append (.wait _)).append hset).append (.wait _)).append hset

/-- INIT (43_initializer.md rules R130 to R140): its steps, then display control, clear-display, entry mode and the last wait. -/
theorem madeOfParts_init : MadeOfParts cfg (.init pins) bus (initEvents bus) := by
  have hbegin := (((madeOfParts_configureAll cfg pins bus).append (.wait tPowerOn)).append
    (madeOfParts_initStep2 cfg pins bus)).append (madeOfParts_initStep3 cfg pins bus)
  have hset := hbegin.append (madeOfParts_initStep4 cfg pins bus)
  exact (((hset.append (.word .displayControl rfl)).append (.word .clearDisplay rfl)).append (.word .entryMode rfl)).append
    (.wait tSettle)

end InitParts

/-- Settles O16, request by request: its event list is written as the words it sends, and `emits` allows each of them. -/
theorem requestsEmitOnlyTheirWords : Obligations.RequestsEmitOnlyTheirWords := by
  intro cfg i bus hreq hok
  show MadeOfParts cfg i bus (eventsOf cfg i bus)
  cases i with
  | init pins => exact madeOfParts_init cfg pins bus
  | clear => exact .word .clearDisplay rfl
  | setCursor row col =>
    obtain ⟨hrow, hcol⟩ := Bool.and_eq_true_iff.1 hok
    exact .cursor rfl hrow hcol
  | printChars text => exact .print rfl _
  | printInt value => exact .print rfl _
  | printFloat value precision => exact .print rfl _
  | progressBar row progress =>
    obtain ⟨hrow, -⟩ := Bool.and_eq_true_iff.1 hok
    exact (MadeOfParts.cursor rfl hrow rfl).append (.print rfl _)
  | clearRow row =>
    have hcursor : MadeOfParts cfg (.clearRow row) bus (setCursorEvents row 0 bus) := .cursor rfl hok rfl
    exact (hcursor.append (.print rfl _)).append hcursor
  | _ => cases hreq

/-! ### Commands and a receiver in step (rules R46, R212 and R215) -/

/-- Performed from a state whose receiver is in step, these events leave it in step, with its display settings as before. -/
def KeepsInStep (bus : Bus) (as : List Action) : Prop :=
  ∀ s, InStep bus.mode s → InStep bus.mode (State.performAll bus as s) ∧
    SameSettings s.receiver (State.performAll bus as s).receiver

theorem KeepsInStep.append {bus : Bus} {as bs : List Action} (ha : KeepsInStep bus as) (hb : KeepsInStep bus bs) :
    KeepsInStep bus (as ++ bs) := by
  intro s hs
  obtain ⟨hmid, hsame⟩ := ha s hs
  obtain ⟨hend, hsame'⟩ := hb _ hmid
  rw [State.performAll_append]
  exact ⟨hend, hsame.trans hsame'⟩

section InStepCommands

variable {bus : Bus} (hd : distinct (activeSet bus.mode bus.pins) = true)
include hd

theorem keepsInStep_clear : KeepsInStep bus (clearDisplayEvents bus) := by
  intro s hs
  obtain ⟨hin, hsame, -⟩ := clear_taken bus hd s hs
  exact ⟨hin, hsame⟩

theorem keepsInStep_cursor {row col : Int} (hrow : rowOk row = true) (hcol : colOk col = true) :
    KeepsInStep bus (setCursorEvents row col bus) := by
  intro s hs
  obtain ⟨hin, hsame, -⟩ := address_taken bus hd (addressFormed_ddramAddr hrow hcol) s hs
  exact ⟨hin, hsame⟩

theorem keepsInStep_print (text : List Byte) : KeepsInStep bus (printEvents text bus) := print_taken bus hd text

/-- Every command whose operands are in bounds. -/
theorem keepsInStep_command {cfg : Config} {i : Instr} (hrole : Instr.role i = .command) (hok : argOk cfg i = true) :
    KeepsInStep bus (eventsOf cfg i bus) := by
  cases i with
  | clear => exact keepsInStep_clear hd
  | setCursor row col =>
    obtain ⟨hrow, hcol⟩ := Bool.and_eq_true_iff.1 hok
    exact keepsInStep_cursor hd hrow hcol
  | printChars text => exact keepsInStep_print hd _
  | printInt value => exact keepsInStep_print hd _
  | printFloat value precision => exact keepsInStep_print hd _
  | progressBar row progress =>
    obtain ⟨hrow, -⟩ := Bool.and_eq_true_iff.1 hok
    exact (keepsInStep_cursor hd hrow rfl).append (keepsInStep_print hd _)
  | clearRow row =>
    have hcursor := keepsInStep_cursor hd (row := row) (col := 0) hok rfl
    exact (hcursor.append (keepsInStep_print hd _)).append hcursor
  | _ => cases hrole

end InStepCommands

/-- The pins of a good driver state's active set differ from one another (rules R25 and R83). -/
theorem DriverStateGood.distinct_activeSet {s : State} (h : DriverStateGood s) (hinit : s.initialized = true) {bus : Bus}
    (hbus : s.bus = some bus) : distinct (activeSet bus.mode bus.pins) = true := by
  obtain ⟨b, hb, hvalid, -⟩ := h.1 hinit
  obtain rfl := Option.some.inj (hbus.symm.trans hb)
  exact distinct_of_validate hvalid

/-- Only the receiver and the time count. -/
theorem InStep.of_eq {m : BusWidthMode} {s t : State} (h : InStep m s) (hrecv : t.receiver = s.receiver)
    (hnow : t.now = s.now) : InStep m t := by
  unfold InStep
  rw [hrecv, hnow]
  exact h

theorem finish_receiver (i : Instr) (bus : Bus) (s : State) : (s.finish i bus).receiver = s.receiver := by
  unfold State.finish; split <;> rfl

/-- Settles O41: an accepted command runs with the driver state's distinct pins, performs its events, which keep the receiver
in step (`keepsInStep_command`), and finishes, which does not touch it. -/
theorem commandsKeepTheReceiverInStep : Obligations.CommandsKeepTheReceiverInStep := by
  intro s t i bus events hinv hrole hexec ht hstep
  have hidle : s.seq = .idle := idle_of_request (by simp [isRequest, hrole]) hexec
  obtain ⟨k, -, -, rfl⟩ | ⟨b, rfl, ⟨hrole', -⟩ | ⟨-, hinit, hok, hbus⟩⟩ := exec_cases hidle hexec
  · cases ht
  · rw [hrole] at hrole'; cases hrole'
  · obtain ⟨-, rfl, rfl⟩ := Sequencer.busy.inj ht
    have hd := hinv.driverState.distinct_activeSet hinit hbus
    obtain ⟨hend, hlines, hfont, hdisp, hcursor, hblink⟩ := keepsInStep_command hd hrole hok s hstep
    refine ⟨_, run_of_not_init (by rw [hrole]; nofun) b s, finish_seq _ _ _,
      hend.of_eq (finish_receiver _ _ _) (finish_now _ _ _), ?_⟩
    rw [finish_receiver]
    exact ⟨hlines, hfont, hdisp, hcursor, hblink⟩

end Sys2Proof.Machine
end

section
/-!
PROOFS, family 30_encoding.md: the decoder and the encoder (rules R63 to R74), the word a busy step fetches (rules R60 to R64),
and what a bus word's transmission hands the receiver (rule R62).
-/

namespace Sys2Proof.Machine

/-! ### The 9-bit words, by their upper two bits (rule R64) -/

theorem and_command_mask (w : BitVec 9) : w &&& 0x1FF#9 = w := BitVec.and_allOnes

theorem and_address_mask (w : BitVec 9) : w &&& 0x180#9 = 0x080#9 ↔ w.getLsbD 8 = false ∧ w.getLsbD 7 = true := by
  revert w; decide +kernel

theorem and_data_mask (w : BitVec 9) : w &&& 0x100#9 = 0x100#9 ↔ w.getLsbD 8 = true := by
  revert w; decide +kernel

section WideWord

variable {w : BitVec 9}

/-- The five command words have both upper bits clear. -/
theorem ne_command_of_upper (h : w.getLsbD 8 = true ∨ w.getLsbD 7 = true) :
    w ≠ 0x038#9 ∧ w ≠ 0x028#9 ∧ w ≠ 0x00C#9 ∧ w ≠ 0x001#9 ∧ w ≠ 0x006#9 := by
  refine ⟨?_, ?_, ?_, ?_, ?_⟩ <;> rintro rfl <;> revert h <;> decide

theorem decodeB9_data (h8 : w.getLsbD 8 = true) : decodeB9 w = .ok (.writeData (w.setWidth 8)) := by
  obtain ⟨h1, h2, h3, h4, h5⟩ := ne_command_of_upper (.inl h8)
  have haddress : ¬w &&& 0x180#9 = 0x080#9 := by rw [and_address_mask, h8]; simp
  rw [decodeB9, and_command_mask, if_neg h1, if_neg h2, if_neg h3, if_neg h4, if_neg h5, if_neg haddress,
    if_pos ((and_data_mask w).2 h8), BitVec.setWidth_eq_extractLsb' (by decide)]

theorem decodeB9_address (h8 : w.getLsbD 8 = false) (h7 : w.getLsbD 7 = true) :
    decodeB9 w = .ok (.setDdramAddr (w.setWidth 7)) := by
  obtain ⟨h1, h2, h3, h4, h5⟩ := ne_command_of_upper (.inr h7)
  rw [decodeB9, and_command_mask, if_neg h1, if_neg h2, if_neg h3, if_neg h4, if_neg h5,
    if_pos ((and_address_mask w).2 ⟨h8, h7⟩), BitVec.setWidth_eq_extractLsb' (by decide)]

theorem decodeB9_command (h8 : w.getLsbD 8 = false) (h7 : w.getLsbD 7 = false) :
    decodeB9 w = if w = 0x38#9 then .ok .functionSet8bit else if w = 0x28#9 then .ok .functionSet4bit
      else if w = 0x0C#9 then .ok .displayControl else if w = 0x01#9 then .ok .clearDisplay
      else if w = 0x06#9 then .ok .entryMode else .error (.neverEmittedWord w) := by
  have haddress : ¬w &&& 0x180#9 = 0x080#9 := by rw [and_address_mask, h7]; simp
  have hdata : ¬w &&& 0x100#9 = 0x100#9 := by rw [and_data_mask, h8]; simp
  rw [decodeB9, and_command_mask, if_neg haddress, if_neg hdata]

/-- Settles O9: the masks of the rows SET_DDRAM_ADDR and WRITE_DATA test the upper two bits, those of the commands all nine. -/
theorem busWordsDecodeAsTheTableSays : Obligations.BusWordsDecodeAsTheTableSays :=
  fun _ => ⟨decodeB9_data, decodeB9_address, decodeB9_command⟩

theorem append_of_data (h8 : w.getLsbD 8 = true) : (0b1#1 ++ w.setWidth 8 : BitVec 9) = w := by
  revert w; decide +kernel

theorem append_of_address (h8 : w.getLsbD 8 = false) (h7 : w.getLsbD 7 = true) :
    (0b01#2 ++ w.setWidth 7 : BitVec 9) = w := by
  revert w; decide +kernel

theorem encode_of_decodeB9 {i : Instr} (h : decodeB9 w = .ok i) : encode i = .b9 w := by
  cases h8 : w.getLsbD 8 with
  | true =>
    rw [decodeB9_data h8] at h
    cases h
    exact congrArg CodeWord.b9 (append_of_data h8)
  | false =>
    cases h7 : w.getLsbD 7 with
    | true =>
      rw [decodeB9_address h8 h7] at h
      cases h
      exact congrArg CodeWord.b9 (append_of_address h8 h7)
    | false =>
      rw [decodeB9_command h8 h7] at h
      split_ifs at h with h1 h2 h3 h4 h5 <;> cases h <;> subst w <;> rfl

end WideWord

theorem decodeB9_writeData (d : Byte) : decodeB9 (0b1#1 ++ d) = .ok (.writeData d) := by
  have h8 : (0b1#1 ++ d).getLsbD 8 = true := BitVec.getLsbD_append
  have hd : (0b1#1 ++ d).setWidth 8 = d := BitVec.extractLsb'_append_eq_right
  rw [decodeB9_data h8, hd]

theorem decodeB9_setDdramAddr (a : BitVec 7) : decodeB9 (0b01#2 ++ a) = .ok (.setDdramAddr a) := by
  have h8 : (0b01#2 ++ a).getLsbD 8 = false := BitVec.getLsbD_append
  have h7 : (0b01#2 ++ a).getLsbD 7 = true := BitVec.getLsbD_append
  have ha : (0b01#2 ++ a).setWidth 7 = a := BitVec.extractLsb'_append_eq_right
  rw [decodeB9_address h8 h7, ha]

/-! ### Nibbles and requests (rules R63, R70 and R73) -/

theorem and_nibble_mask (w : BitVec 5) : w &&& 0x1F#5 = w := BitVec.and_allOnes

theorem encode_of_decodeN5 {w : BitVec 5} {i : Instr} (h : decodeN5 w = .ok i) : encode i = .n5 w := by
  rw [decodeN5, and_nibble_mask] at h
  split_ifs at h <;> cases h <;> subst w <;> rfl

theorem decodeReq_reserved {op : BitVec 4} (h : op.getLsbD 3 = true) (operands : List Operand) :
    decodeReq op operands = .ok (.reserved (op.extractLsb' 0 3)) := if_pos h

/-- Codes 0x8 to 0xF are those with the upper bit set (rule R73). -/
theorem reserved_iff (op : BitVec 4) : op.getLsbD 3 = true ↔ 8 ≤ op.toNat := by revert op; decide

/-- A request that is not reserved has the code and the operand record of its row (rule R70). -/
theorem encode_of_decodeReq {op : BitVec 4} {operands : List Operand} {i : Instr} (h : decodeReq op operands = .ok i)
    (hi : ∀ low, i ≠ .reserved low) : encode i = .req op operands := by
  unfold decodeReq at h
  split at h
  · cases h; exact absurd rfl (hi _)
  · split at h
    case h_9 => cases h
    all_goals
      cases h
      rename_i hop
      exact congrArg (CodeWord.req · _) (BitVec.eq_of_toNat_eq hop.symm)

/-! ### Decoding and encoding are inverse -/

/-- Settles O7, by the instruction: the address and data words carry their operand in their lower bits. -/
theorem decodeAfterEncode : Obligations.DecodeAfterEncode := by
  intro i
  cases i with
  | setDdramAddr a => exact decodeB9_setDdramAddr a
  | writeData d => exact decodeB9_writeData d
  | reserved low =>
    have h3 : (0b1#1 ++ low).getLsbD 3 = true := BitVec.getLsbD_append
    have hlow : (0b1#1 ++ low).extractLsb' 0 3 = low := BitVec.extractLsb'_append_eq_right
    exact (decodeReq_reserved h3 []).trans (by rw [hlow])
  | _ => rfl

/-- Settles O8, by the code word's format. -/
theorem encodeAfterDecode : Obligations.EncodeAfterDecode := by
  intro c i h hi
  cases c with
  | n5 w => exact encode_of_decodeN5 h
  | b9 w => exact encode_of_decodeB9 h
  | req op operands => exact encode_of_decodeReq h hi
  | raw nbits w => cases h

/-- Settles O10: each word is the encoding of its instruction. -/
theorem wordsFromTheSpecDecode : Obligations.WordsFromTheSpecDecode :=
  ⟨decodeAfterEncode .nibFset8, decodeAfterEncode (.setDdramAddr 0x45#7), decodeAfterEncode (.writeData 0x48#8),
    decodeAfterEncode (.setCursor 1 5), decodeAfterEncode (.clearRow 1)⟩

/-! ### What is refused (rules R72 and R73) -/

/-- Settles O33: a reserved code decodes to RESERVED, whose meaning looks at no state. -/
theorem reservedCodesAreRefused : Obligations.ReservedCodesAreRefused := by
  intro s
  refine ⟨fun low => rfl, fun op operands rest hop hs hr => ?_⟩
  exact step_idle_ok hs hr (decodeReq_reserved ((reserved_iff op).2 hop) operands)

/-- Settles O34: each of the three meanings tests its operand before anything else. -/
theorem unwritableOperandsAreRefused : Obligations.UnwritableOperandsAreRefused := by
  refine fun s => ⟨fun text hnul => ?text, fun v hv => ?int, fun v prec hv => ?float⟩
  case text =>
    have hbad : ¬textHasNoNul (some text) = true := by simpa [textHasNoNul] using hnul
    exact if_neg hbad
  case int =>
    have hbad : ¬intInRange s.cfg v = true := by
      simp only [intInRange, Bool.and_eq_true, decide_eq_true_eq]
      omega
    exact if_neg hbad
  case float => exact if_neg (ne_true_of_eq_false hv)

/-! ### How a bus word is transmitted (rules R62 to R64) -/

/-- The word `w` is transmitted as the 9-bit word `{rs, b}`: SEND of that byte, then at most waits. -/
def SentAs (w : Instr) (rs : Level) (b : Byte) : Prop :=
  encode w = .b9 (BitVec.ofBool rs ++ b) ∧
  ∃ waits : List Nat, ∀ cfg bus, eventsOf cfg w bus = send bus rs b ++ waits.map .wait

theorem sentAs_of_send {w : Instr} {rs : Level} {b : Byte} (hcode : encode w = .b9 (BitVec.ofBool rs ++ b))
    (hevents : ∀ cfg bus, eventsOf cfg w bus = send bus rs b) : SentAs w rs b :=
  ⟨hcode, [], fun cfg bus => by rw [hevents]; exact (List.append_nil _).symm⟩

theorem sentAs_functionSet8bit : SentAs .functionSet8bit false 0x38#8 := sentAs_of_send rfl (fun _ _ => rfl)
theorem sentAs_functionSet4bit : SentAs .functionSet4bit false 0x28#8 := sentAs_of_send rfl (fun _ _ => rfl)
theorem sentAs_displayControl : SentAs .displayControl false 0x0C#8 := sentAs_of_send rfl (fun _ _ => rfl)
theorem sentAs_entryMode : SentAs .entryMode false 0x06#8 := sentAs_of_send rfl (fun _ _ => rfl)
theorem sentAs_writeData (d : Byte) : SentAs (.writeData d) true d := sentAs_of_send rfl (fun _ _ => rfl)

/-- Clear-display is followed by its execution time (42_bus_words.md rule R117). -/
theorem sentAs_clearDisplay : SentAs .clearDisplay false 0x01#8 := ⟨rfl, [tClear], fun _ _ => rfl⟩

/-- The byte of an address word is its encoding's (rule R65). -/
theorem address_byte (a : BitVec 7) : 0x80#8 ||| a.setWidth 8 = 0b1#1 ++ a := by revert a; decide

theorem address_word (a : BitVec 7) : (0b01#2 ++ a : BitVec 9) = BitVec.ofBool false ++ (0b1#1 ++ a) := by
  revert a; decide

theorem sentAs_setDdramAddr (a : BitVec 7) : SentAs (.setDdramAddr a) false (0b1#1 ++ a) :=
  sentAs_of_send (congrArg CodeWord.b9 (address_word a)) (fun _ bus => congrArg (send bus false) (address_byte a))

/-- Every bus word but the two nibbles is transmitted as a 9-bit word. -/
theorem sentAs_of_busWord {w : Instr} (hw : Instr.role w = .busWord) (h8 : w ≠ .nibFset8) (h4 : w ≠ .nibFset4) :
    ∃ rs b, SentAs w rs b := by
  cases w with
  | nibFset8 => exact absurd rfl h8
  | nibFset4 => exact absurd rfl h4
  | functionSet8bit => exact ⟨_, _, sentAs_functionSet8bit⟩
  | functionSet4bit => exact ⟨_, _, sentAs_functionSet4bit⟩
  | displayControl => exact ⟨_, _, sentAs_displayControl⟩
  | clearDisplay => exact ⟨_, _, sentAs_clearDisplay⟩
  | entryMode => exact ⟨_, _, sentAs_entryMode⟩
  | setDdramAddr a => exact ⟨_, _, sentAs_setDdramAddr a⟩
  | writeData d => exact ⟨_, _, sentAs_writeData d⟩
  | _ => cases hw

/-! ### The word a busy step fetches (rules R60 to R64) -/

theorem append_nibbles (rs : Level) (b : Byte) :
    (BitVec.ofBool rs ++ b.extractLsb' 4 4 ++ b.extractLsb' 0 4 : BitVec 9) = BitVec.ofBool rs ++ b := by
  revert rs b; decide +kernel

/-- The head word of a transmission is the word transmitted (rules R41, R42, R92 and R93). -/
theorem headWord_send (bus : Bus) (rs : Level) (b : Byte) (more : List Action) :
    headWord bus.mode (send bus rs b ++ more) = BitVec.ofBool rs ++ b := by
  rw [← append_nibbles]
  obtain ⟨m, p⟩ := bus
  have hhigh := nibble_of_lines (b.extractLsb' 4 4)
  have hlow := nibble_of_lines (b.extractLsb' 0 4)
  cases m with
  | eightBit =>
    simp only [BitVec.getLsbD_extractLsb'] at hhigh hlow
    exact congrArg₂ (fun x y : Nibble => BitVec.ofBool rs ++ x ++ y) hhigh hlow
  | fourBit => exact congrArg₂ (fun x y : Nibble => BitVec.ofBool rs ++ x ++ y) hhigh hlow

section Fetch

variable {cfg : Config} {i : Instr} {bus : Bus} {rest : List Action}

theorem wordDue_iff {w : Instr} :
    wordDue cfg i bus rest w = true ↔ emits i bus.mode w = true ∧ eventsOf cfg w bus <+: rest := by
  simp [wordDue]

/-- The code of a word is due where the word is. -/
theorem codeDue_encode_iff {w : Instr} :
    codeDue cfg i bus rest (encode w) = true ↔ emits i bus.mode w = true ∧ eventsOf cfg w bus <+: rest := by
  rw [codeDue, decodeAfterEncode w]
  exact wordDue_iff

/-- A code that is due is the code of a word that is. -/
theorem encode_of_codeDue {c : CodeWord} (h : codeDue cfg i bus rest c = true) :
    ∃ w, c = encode w ∧ emits i bus.mode w = true ∧ eventsOf cfg w bus <+: rest := by
  unfold codeDue at h
  split at h
  · rename_i w hw
    obtain ⟨hemits, hnext⟩ := wordDue_iff.1 h
    refine ⟨w, (encodeAfterDecode c w hw ?_).symm, hemits, hnext⟩
    rintro low rfl
    cases hemits
  · cases h

/-- A 9-bit word that is due stands at the head of the events. -/
theorem SentAs.encode_eq_headWord {w : Instr} {rs : Level} {b : Byte} (hw : SentAs w rs b)
    (hnext : eventsOf cfg w bus <+: rest) : encode w = .b9 (headWord bus.mode rest) := by
  obtain ⟨hcode, waits, hevents⟩ := hw
  obtain ⟨more, rfl⟩ := hnext
  rw [hcode, hevents, List.append_assoc, headWord_send]

/-- On four lines a 9-bit word's second nibble begins at the tenth event (rule R93). -/
theorem SentAs.second_nibble {w : Instr} {rs : Level} {b : Byte} (hw : SentAs w rs b) (hmode : bus.mode = .fourBit)
    (hnext : eventsOf cfg w bus <+: rest) : ∃ v, rest[9]? = some (.set bus.pins.d4 v) := by
  obtain ⟨-, waits, hevents⟩ := hw
  obtain ⟨more, rfl⟩ := hnext
  obtain ⟨m, p⟩ := bus
  cases hmode
  rw [hevents]
  exact ⟨_, rfl⟩

theorem fetchWord_of_head_due (h : codeDue cfg i bus rest (.b9 (headWord bus.mode rest)) = true) :
    fetchWord cfg i bus rest = some (.b9 (headWord bus.mode rest)) := List.find?_cons_of_pos h

theorem fetchWord_of_head_not_due (h : ¬codeDue cfg i bus rest (.b9 (headWord bus.mode rest)) = true) :
    fetchWord cfg i bus rest = [encode .nibFset8, encode .nibFset4].find? (codeDue cfg i bus rest) :=
  List.find?_cons_of_neg h

/-- The two nibbles differ in the level of D4, so they are not due at one place. -/
theorem nibbles_not_both_due (h4 : eventsOf cfg .nibFset4 bus <+: rest) : ¬eventsOf cfg .nibFset8 bus <+: rest := by
  rintro ⟨later, rfl⟩
  obtain ⟨more, hmore⟩ := h4
  obtain ⟨m, p⟩ := bus
  cases m with
  | eightBit => exact Bool.false_ne_true (congrArg (levelSet · 5) hmore)
  | fourBit => exact Bool.false_ne_true (congrArg (levelSet · 1) hmore)

/-- Where a nibble is due and no second nibble follows it on four lines, no 9-bit word is due. -/
theorem head_not_due_of_nibble {w : Instr} (hw : w = .nibFset8 ∨ w = .nibFset4) (hemits : emits i bus.mode w = true)
    (hnext : eventsOf cfg w bus <+: rest) (hlast : ∀ v, bus.mode = .fourBit → rest[9]? ≠ some (.set bus.pins.d4 v)) :
    ¬codeDue cfg i bus rest (.b9 (headWord bus.mode rest)) = true := by
  intro hdue
  cases hmode : bus.mode with
  | fourBit =>
    obtain ⟨x, hx, hxemits, hxnext⟩ := encode_of_codeDue hdue
    obtain ⟨rs, b, hsent⟩ := sentAs_of_busWord (role_of_emits hxemits) (by rintro rfl; cases hx) (by rintro rfl; cases hx)
    obtain ⟨v, hv⟩ := hsent.second_nibble hmode hxnext
    exact hlast v hmode hv
  | eightBit =>
    obtain rfl | rfl := hw
    · obtain ⟨more, rfl⟩ := hnext
      obtain ⟨m, p⟩ := bus
      cases hmode
      have hhead : headWord .eightBit (eventsOf cfg .nibFset8 ⟨.eightBit, p⟩ ++ more) = 0x030#9 :=
        headWord_send ⟨.eightBit, p⟩ false 0x30#8 more
      rw [hhead] at hdue
      cases hdue
    · rw [hmode] at hemits
      simp [emits] at hemits

end Fetch

/-- Settles O4: the head word of a 9-bit word's transmission is its code (`headWord_send`), a nibble's first ten events are no
9-bit word's, and what is fetched decodes to a word that is due, whose only code it is. -/
theorem fetchReadsTheWordThatIsDue : Obligations.FetchReadsTheWordThatIsDue := by
  intro cfg i bus rest
  refine ⟨fun w hemits hnext h8 h4 => ?wide, fun w hemits hnext hw hlast => ?nibble, fun c hc => ?fetched⟩
  case wide =>
    obtain ⟨rs, b, hsent⟩ := sentAs_of_busWord (role_of_emits hemits) h8 h4
    have hdue := codeDue_encode_iff.2 ⟨hemits, hnext⟩
    have hcode := hsent.encode_eq_headWord hnext
    rw [hcode] at hdue ⊢
    exact fetchWord_of_head_due hdue
  case nibble =>
    rw [fetchWord_of_head_not_due (head_not_due_of_nibble hw hemits hnext hlast)]
    have hdue := codeDue_encode_iff.2 ⟨hemits, hnext⟩
    obtain rfl | rfl := hw
    · exact List.find?_cons_of_pos hdue
    · rw [List.find?_cons_of_neg (fun h => nibbles_not_both_due hnext (codeDue_encode_iff.1 h).2)]
      exact List.find?_cons_of_pos hdue
  case fetched => exact encode_of_codeDue (List.find?_some hc)

/-! ### What a bus word hands the receiver (rules R62, R97 and R100) -/

/-- From `s` to `u` the receiver is handed these transfers; in `u` E is low and the lines of the bus hold the last of them. -/
def HandsOver (bus : Bus) (s : State) (xs : List Transfer) (u : State) : Prop :=
  Delivers s xs u ∧ u.latchOf bus.pins.e = some false ∧
  (∀ q ∈ activeSet bus.mode bus.pins, u.latchOf q ≠ none) ∧ xs.getLast? = some (u.latchedTransfer bus)

/-- Lines that have been driven show the same transfer wherever the latches are the same. -/
theorem latchedTransfer_congr {bus : Bus} {u v : State} (hset : ∀ q ∈ activeSet bus.mode bus.pins, u.latchOf q ≠ none)
    (hlatch : ∀ q, v.latchOf q = u.latchOf q) : v.latchedTransfer bus = u.latchedTransfer bus := by
  have hlevel : ∀ q ∈ activeSet bus.mode bus.pins, v.levelOf q = u.levelOf q := by
    intro q hq
    obtain ⟨l, hl⟩ := Option.ne_none_iff_exists'.1 (hset q hq)
    rw [State.levelOf_of_latch hl, State.levelOf_of_latch ((hlatch q).trans hl)]
  obtain ⟨m, p⟩ := bus
  cases m with
  | eightBit =>
    simp only [activeSet, set8, List.forall_mem_cons] at hlevel
    simp [State.latchedTransfer, transferAt, hlevel]
  | fourBit =>
    simp only [activeSet, set4, List.forall_mem_cons] at hlevel
    simp [State.latchedTransfer, transferAt, hlevel]

/-- Time may pass after the last transfer. -/
theorem HandsOver.later {bus : Bus} {s u v : State} {xs : List Transfer} (h : HandsOver bus s xs u)
    (hreceiver : v.receiver = u.receiver) (hnow : u.now ≤ v.now) (hlatch : ∀ q, v.latchOf q = u.latchOf q) :
    HandsOver bus s xs v := by
  obtain ⟨hdelivers, hlow, hset, hlast⟩ := h
  have hrest : Delivers u [] v := ⟨hreceiver, hnow⟩
  refine ⟨by simpa using hdelivers.append hrest, (hlatch _).trans hlow, fun q hq => ?_, ?_⟩
  · rw [hlatch]; exact hset q hq
  · rw [latchedTransfer_congr hset hlatch]; exact hlast

/-- Waits leave the latches as they are. -/
theorem levelAfter_waits (q : PinId) (l : Option Level) (waits : List Nat) : levelAfter q l (waits.map .wait) = l :=
  levelAfter_of_not_set (by simp)

theorem configured_performAll_of_no_configure (bus : Bus) {as : List Action} (h : ∀ p, Action.configure p ∉ as) (s : State) :
    (State.performAll bus as s).configured = s.configured := by
  induction as generalizing s with
  | nil => rfl
  | cons a more ih =>
    rw [State.performAll_cons, ih (fun p hp => h p (by simp [hp]))]
    cases a with
    | configure p => exact absurd (by simp) (h p)
    | set p v => simp [State.perform]
    | wait n => rfl

section HandsOver

variable {bus : Bus} (hd : distinct (activeSet bus.mode bus.pins) = true)
include hd

theorem handsOver_send (rs : Level) (b : Byte) (s : State) :
    HandsOver bus s (transfersOfWord bus.mode rs b) (State.performAll bus (send bus rs b) s) := by
  obtain ⟨hdelivers, hlow⟩ := send_delivers bus hd rs b s
  obtain ⟨hset, hlast⟩ := send_lines bus hd rs b s
  exact ⟨hdelivers, hlow, hset, hlast⟩

theorem SentAs.handsOver {w : Instr} {rs : Level} {b : Byte} (hw : SentAs w rs b) (cfg : Config) (s : State) :
    HandsOver bus s (transfersOfWord bus.mode rs b) (State.performAll bus (eventsOf cfg w bus) s) := by
  obtain ⟨-, waits, hevents⟩ := hw
  rw [hevents, State.performAll_append]
  refine (handsOver_send hd rs b s).later (receiver_performAll_of_no_set _ _ _ (by simp)) ?_ fun q => ?_
  · exact (Nat.le_add_right _ _).trans (now_performAll ..)
  · rw [latchOf_performAll, levelAfter_waits]

end HandsOver

/-- The transfer of a nibble sent alone (rules R63 and R95): on eight lines the nibble stands on D7..D4. -/
def transferOfNibble (m : BusWidthMode) (n : Nibble) : Transfer :=
  match m with
  | .eightBit => .t8 false (n ++ 0x0#4)
  | .fourBit => .t4 false n

theorem handsOver_sendNibble {bus : Bus} (hd : distinct (activeSet bus.mode bus.pins) = true) (n : Nibble) (s : State) :
    HandsOver bus s [transferOfNibble bus.mode n] (State.performAll bus (sendNibble bus n) s) := by
  obtain ⟨m, p⟩ := bus
  cases m with
  | eightBit => exact handsOver_send (bus := ⟨.eightBit, p⟩) hd false (n ++ 0x0#4) s
  | fourBit =>
    obtain ⟨hdelivers, hlow⟩ := sendNibble4_delivers p hd n s
    obtain ⟨hset, hline⟩ := sendNibble_lines ⟨.fourBit, p⟩ hd n s
    exact ⟨hdelivers, hlow, hset, congrArg some hline.symm⟩

/-- The transfers a word is transmitted as in each mode, as `Obligations.BusWordsDeliverTheirTransfers` lists them. -/
def TransmittedAs (w : Instr) (eight four : List Transfer) : Prop :=
  (∃ rs b, SentAs w rs b ∧ eight = transfersOfWord .eightBit rs b ∧ four = transfersOfWord .fourBit rs b) ∨
  (∃ n, (∀ cfg bus, eventsOf cfg w bus = sendNibble bus n) ∧ eight = [transferOfNibble .eightBit n] ∧
    four = [transferOfNibble .fourBit n])

theorem SentAs.transmittedAs {w : Instr} {rs : Level} {b : Byte} (h : SentAs w rs b) :
    TransmittedAs w (transfersOfWord .eightBit rs b) (transfersOfWord .fourBit rs b) := .inl ⟨rs, b, h, rfl, rfl⟩

/-- The transfers for the mode the block runs in. -/
def transfersIn (m : BusWidthMode) (eight four : List Transfer) : List Transfer :=
  match m with
  | .eightBit => eight
  | .fourBit => four

theorem TransmittedAs.handsOver {w : Instr} {eight four : List Transfer} (h : TransmittedAs w eight four) {bus : Bus}
    (hd : distinct (activeSet bus.mode bus.pins) = true) (cfg : Config) (s : State) :
    HandsOver bus s (transfersIn bus.mode eight four) (State.performAll bus (eventsOf cfg w bus) s) := by
  obtain ⟨rs, b, hsent, rfl, rfl⟩ | ⟨n, hevents, rfl, rfl⟩ := h
  · have hover := hsent.handsOver hd cfg s
    obtain ⟨m, p⟩ := bus
    cases m <;> exact hover
  · have hover := handsOver_sendNibble hd n s
    rw [← hevents cfg] at hover
    obtain ⟨m, p⟩ := bus
    cases m <;> exact hover

theorem address_nibbles (a : BitVec 7) : (0b1#1 ++ a : BitVec 8).extractLsb' 4 4 = 0b1#1 ++ a.extractLsb' 4 3 ∧
    (0b1#1 ++ a : BitVec 8).extractLsb' 0 4 = a.extractLsb' 0 4 := by
  revert a; decide

/-- An address word's nibbles on four lines (rules R65 and R93). -/
theorem transmittedAs_setDdramAddr (a : BitVec 7) : TransmittedAs (.setDdramAddr a) [.t8 false (0b1#1 ++ a)]
    [.t4 false (0b1#1 ++ a.extractLsb' 4 3), .t4 false (a.extractLsb' 0 4)] := by
  obtain ⟨hhigh, hlow⟩ := address_nibbles a
  have h := (sentAs_setDdramAddr a).transmittedAs
  simp only [transfersOfWord, hhigh, hlow] at h
  exact h

/-- The words without an operand, with their transfers in each mode (rule R64). -/
def constantWords : List (Instr × List Transfer × List Transfer) :=
  [(.nibFset8, [.t8 false 0x30#8], [.t4 false 0x3#4]),
   (.nibFset4, [.t8 false 0x20#8], [.t4 false 0x2#4]),
   (.functionSet8bit, [.t8 false 0x38#8], [.t4 false 0x3#4, .t4 false 0x8#4]),
   (.functionSet4bit, [.t8 false 0x28#8], [.t4 false 0x2#4, .t4 false 0x8#4]),
   (.displayControl, [.t8 false 0x0C#8], [.t4 false 0x0#4, .t4 false 0xC#4]),
   (.clearDisplay, [.t8 false 0x01#8], [.t4 false 0x0#4, .t4 false 0x1#4]),
   (.entryMode, [.t8 false 0x06#8], [.t4 false 0x0#4, .t4 false 0x6#4])]

theorem transmittedAs_of_mem {w : Instr} {eight four : List Transfer} (h : (w, eight, four) ∈ constantWords) :
    TransmittedAs w eight four := by
  have hall : ∀ x ∈ constantWords, TransmittedAs x.1 x.2.1 x.2.2 := by
    simp only [constantWords, List.forall_mem_cons]
    exact ⟨.inr ⟨0x3#4, fun _ _ => rfl, rfl, rfl⟩, .inr ⟨0x2#4, fun _ _ => rfl, rfl, rfl⟩,
      sentAs_functionSet8bit.transmittedAs, sentAs_functionSet4bit.transmittedAs, sentAs_displayControl.transmittedAs,
      sentAs_clearDisplay.transmittedAs, sentAs_entryMode.transmittedAs, nofun⟩
  exact hall _ h

/-- Settles O19: the run performs the word's events (`run_performs`), and they hand over its transfers
(`TransmittedAs.handsOver`); every other field is what events without a configure call leave. -/
theorem busWordsDeliverTheirTransfers : Obligations.BusWordsDeliverTheirTransfers := by
  intro s i bus more hd w eight four hw hemits hs transfers
  have hsent : TransmittedAs w eight four := by
    obtain htable | ⟨a, rfl, rfl, rfl⟩ | ⟨d, rfl, rfl, rfl⟩ := hw
    · exact transmittedAs_of_mem htable
    · exact transmittedAs_setDdramAddr a
    · exact (sentAs_writeData d).transmittedAs
  have hrole := role_of_emits hemits
  have hquiet := no_configure_of_not_init s.cfg (i := w) bus (by rw [hrole]; nofun)
  obtain ⟨hdelivers, hlow, hset, hlast⟩ :=
    (hsent.handsOver hd s.cfg s).later (v := (State.performAll bus (eventsOf s.cfg w bus) s).busyWith i bus more)
      rfl le_rfl (fun _ => rfl)
  have hstep : step s = .next (s.advance i bus _) := step_busy hs
  refine ⟨_, _, (step_word_due hs hemits (List.prefix_append ..)).symm.trans hstep, hstep, run_performs _ more hs hquiet, rfl,
    hdelivers, performAll_trace .., hlow, hset, hlast, performAll_initialized .., performAll_mode .., performAll_pins ..,
    performAll_statuses .., configured_performAll_of_no_configure bus hquiet s⟩

end Sys2Proof.Machine
end

section
/-!
PROOFS, family 40_pin_validation.md: what `distinct`, `inRange` and VALIDATE decide (rules R81 to R84), and the pins that an
instruction's events touch (rules R86, R99 and R132).
-/

namespace Sys2Proof.Machine

/-! ### The list checks (rules R81 and R82) -/

/-- `distinct` decides Mathlib's `List.Nodup`. -/
theorem distinct_iff_nodup {l : List PinId} : distinct l = true ↔ l.Nodup := by
  induction l with
  | nil => exact iff_of_true rfl List.nodup_nil
  | cons p rest ih => rw [distinct_cons, List.nodup_cons, ih]

/-- Settles O11: `distinct` decides `List.Nodup`, which speaks of the positions by `List.pairwise_iff_getElem`. -/
theorem distinctMeansNoTwoEqualPositions : Obligations.DistinctMeansNoTwoEqualPositions :=
  fun _ => distinct_iff_nodup.trans List.pairwise_iff_getElem

theorem inRange_iff {cfg : Config} {l : List PinId} : inRange cfg l = true ↔
    (cfg.rangeRule = .allValid ∧ ∀ q ∈ l, pinValid cfg q = true) ∨
    (cfg.rangeRule = .sourceAnyValid ∧ ∃ q ∈ l, pinValid cfg q = true) := by
  unfold inRange
  cases cfg.rangeRule with
  | allValid => simp
  | sourceAnyValid => simp

/-! ### The two tiers of VALIDATE (rules R83 and R84) -/

/-- What a tier of VALIDATE asks of its pins. -/
def TierFits (cfg : Config) (l : List PinId) : Prop := distinct l = true ∧ inRange cfg l = true

section Validate

variable {cfg : Config} {p : PinRecord}

theorem validate_of_tierOne (h : TierFits cfg (set8 p)) : validate cfg p = some .eightBit :=
  if_pos (Bool.and_eq_true_iff.2 h)

/-- Where tier 1 fails, the answer is a function of `set4` alone. -/
theorem validate_of_not_tierOne (h : ¬TierFits cfg (set8 p)) :
    validate cfg p = if distinct (set4 p) && inRange cfg (set4 p) then some .fourBit else none :=
  if_neg (mt Bool.and_eq_true_iff.1 h)

theorem fourBit_iff_of_not_tierOne (h : ¬TierFits cfg (set8 p)) :
    validate cfg p = some .fourBit ↔ TierFits cfg (set4 p) := by
  rw [validate_of_not_tierOne h]
  simp [TierFits]

theorem validate_eightBit_iff : validate cfg p = some .eightBit ↔ TierFits cfg (set8 p) := by
  refine ⟨fun h => ?_, validate_of_tierOne⟩
  by_contra hfails
  rw [validate_of_not_tierOne hfails] at h
  split at h <;> cases h

theorem validate_fourBit_iff : validate cfg p = some .fourBit ↔ ¬TierFits cfg (set8 p) ∧ TierFits cfg (set4 p) := by
  by_cases h : TierFits cfg (set8 p)
  · simp [validate_of_tierOne h, h]
  · simp [fourBit_iff_of_not_tierOne h, h]

end Validate

/-- Settles O12: VALIDATE's two answers by tier, with each tier's check read as `distinct_iff_nodup` and `inRange_iff` say. -/
theorem validatorResolvesTheBusWidth : Obligations.ValidatorResolvesTheBusWidth := by
  intro cfg p fits
  have hfits (l : List PinId) : TierFits cfg l ↔ fits l := and_congr distinct_iff_nodup inRange_iff
  exact ⟨validate_eightBit_iff.trans (hfits _),
    validate_fourBit_iff.trans (and_congr (not_congr (hfits _)) (hfits _))⟩

/-- Settles O13: both records fail tier 1, and tier 2 looks at `set4` alone (`validate_of_not_tierOne`). -/
theorem lowFieldsDoNotMatterToTierTwo : Obligations.LowFieldsDoNotMatterToTierTwo := by
  intro cfg p q hset hp hq
  have hp' := mt validate_eightBit_iff.2 hp
  have hq' := mt validate_eightBit_iff.2 hq
  refine ⟨?_, fourBit_iff_of_not_tierOne hp'⟩
  rw [validate_of_not_tierOne hp', validate_of_not_tierOne hq', hset]

/-! ### The pins that events touch (rules R86 and R99) -/

/-- The event touches no pin outside the active set of the bus. -/
def Action.OnActiveSet (bus : Bus) : Action → Prop
  | .configure p => p ∈ activeSet bus.mode bus.pins
  | .set p _ => p ∈ activeSet bus.mode bus.pins
  | .wait _ => True

/-- None of these events touches a pin outside the active set of the bus. -/
def StaysOnActiveSet (bus : Bus) (as : List Action) : Prop := ∀ a ∈ as, a.OnActiveSet bus

theorem StaysOnActiveSet.append {bus : Bus} {as bs : List Action} (ha : StaysOnActiveSet bus as)
    (hb : StaysOnActiveSet bus bs) : StaysOnActiveSet bus (as ++ bs) := List.forall_mem_append.2 ⟨ha, hb⟩

section ActiveSet

variable (bus : Bus)

theorem staysOnActiveSet_nil : StaysOnActiveSet bus [] := List.forall_mem_nil _

theorem staysOnActiveSet_wait (n : Nat) : StaysOnActiveSet bus [.wait n] := List.forall_mem_singleton.2 trivial

/-- SEND drives RS, E and the data lines of the mode (rules R92 and R93). -/
theorem staysOnActiveSet_send (rs : Level) (b : Byte) : StaysOnActiveSet bus (send bus rs b) := by
  obtain ⟨m, p⟩ := bus
  cases m with
  | eightBit =>
    simp [StaysOnActiveSet, Action.OnActiveSet, activeSet, set8, send, send8, putByte, pulse]
  | fourBit =>
    simp [StaysOnActiveSet, Action.OnActiveSet, activeSet, set4, send, send4, putNibble, pulse]

/-- SEND_NIBBLE does too; on eight lines it is a SEND (rule R95). -/
theorem staysOnActiveSet_sendNibble (n : Nibble) : StaysOnActiveSet bus (sendNibble bus n) := by
  obtain ⟨m, p⟩ := bus
  cases m with
  | eightBit => exact staysOnActiveSet_send ⟨.eightBit, p⟩ false (n ++ 0x0#4)
  | fourBit =>
    simp [StaysOnActiveSet, Action.OnActiveSet, activeSet, set4, sendNibble, putNibble, pulse]

theorem staysOnActiveSet_print (text : List Byte) : StaysOnActiveSet bus (printEvents text bus) := by
  intro a ha
  obtain ⟨c, -, hsent⟩ := List.mem_flatMap.1 ha
  exact staysOnActiveSet_send bus true c a hsent

theorem staysOnActiveSet_clearDisplay : StaysOnActiveSet bus (clearDisplayEvents bus) :=
  (staysOnActiveSet_send bus _ _).append (staysOnActiveSet_wait bus _)

theorem staysOnActiveSet_setCursor (row col : Int) : StaysOnActiveSet bus (setCursorEvents row col bus) :=
  staysOnActiveSet_send bus _ _

/-- CONFIGURE_ALL goes through the active set (43_initializer.md rule R132). -/
theorem staysOnActiveSet_configureAll : StaysOnActiveSet bus (configureAllEvents bus) :=
  List.forall_mem_map.2 fun _ hq => hq

theorem staysOnActiveSet_initStep2 : StaysOnActiveSet bus (initStep2Events bus) := by
  have hwake : StaysOnActiveSet bus (nibFset8Events bus) := staysOnActiveSet_sendNibble bus _
  have hwait := staysOnActiveSet_wait bus
  exact ((((hwake.append (hwait _)).append hwake).append (hwait _)).append hwake).append (hwait _)

theorem staysOnActiveSet_initStep3 : StaysOnActiveSet bus (initStep3Events bus) := by
  obtain ⟨m, p⟩ := bus
  cases m with
  | eightBit => exact staysOnActiveSet_nil _
  | fourBit => exact staysOnActiveSet_sendNibble ⟨.fourBit, p⟩ 0x2#4

theorem staysOnActiveSet_functionSet : StaysOnActiveSet bus (functionSetEvents bus) := by
  unfold functionSetEvents
  split <;> exact staysOnActiveSet_send bus _ _

theorem staysOnActiveSet_initStep4 : StaysOnActiveSet bus (initStep4Events bus) := by
  have hset := staysOnActiveSet_functionSet bus
  have hwait := staysOnActiveSet_wait bus
  exact (((hset.append (hwait _)).append hset).append (hwait _)).append hset

/-- INIT (43_initializer.md rules R130 to R140): its steps, then display control, clear-display, entry mode and the last wait. -/
theorem staysOnActiveSet_init : StaysOnActiveSet bus (initEvents bus) := by
  have hsend := staysOnActiveSet_send bus
  have hwait := staysOnActiveSet_wait bus
  have hbegin := (((staysOnActiveSet_configureAll bus).append (hwait tPowerOn)).append
    (staysOnActiveSet_initStep2 bus)).append (staysOnActiveSet_initStep3 bus)
  have hset := hbegin.append (staysOnActiveSet_initStep4 bus)
  exact (((hset.append (hsend _ _)).append (staysOnActiveSet_clearDisplay bus)).append (hsend _ _)).append (hwait tSettle)

/-- Every instruction's events are made of transmissions, waits and, for INIT, the configure calls. -/
theorem staysOnActiveSet_events (cfg : Config) (i : Instr) : StaysOnActiveSet bus (eventsOf cfg i bus) := by
  cases i with
  | nibFset8 => exact staysOnActiveSet_sendNibble bus _
  | nibFset4 => exact staysOnActiveSet_sendNibble bus _
  | clearDisplay => exact staysOnActiveSet_clearDisplay bus
  | init pins => exact staysOnActiveSet_init bus
  | clear => exact staysOnActiveSet_clearDisplay bus
  | printChars text => exact staysOnActiveSet_print bus _
  | printInt value => exact staysOnActiveSet_print bus _
  | printFloat value precision => exact staysOnActiveSet_print bus _
  | progressBar row progress => exact (staysOnActiveSet_setCursor bus row 0).append (staysOnActiveSet_print bus _)
  | clearRow row =>
    have hcursor := staysOnActiveSet_setCursor bus row 0
    exact (hcursor.append (staysOnActiveSet_print bus _)).append hcursor
  | reserved low => exact staysOnActiveSet_nil bus
  | _ => exact staysOnActiveSet_send bus _ _

end ActiveSet

/-- A configure call is an event of INIT alone (43_initializer.md rule R132). -/
theorem initializer_of_configure_mem {cfg : Config} {i : Instr} {bus : Bus} {p : PinId}
    (h : Action.configure p ∈ eventsOf cfg i bus) : Instr.role i = .initializer := by
  by_contra hrole
  exact no_configure_of_not_init cfg bus hrole p h

/-- Settles O15, from `staysOnActiveSet_events` and `initializer_of_configure_mem`. -/
theorem eventsStayOnTheActiveSet : Obligations.EventsStayOnTheActiveSet := by
  intro cfg i bus a ha
  have hactive : a.OnActiveSet bus := staysOnActiveSet_events bus cfg i a ha
  refine ⟨fun p v hset => ?set, fun p hconf => ?configure⟩
  case set =>
    subst hset
    exact hactive
  case configure =>
    subst hconf
    exact ⟨hactive, initializer_of_configure_mem ha⟩

end Sys2Proof.Machine
end

section
/-!
PROOFS, family 41_bus_transport.md: what the receiver takes at a fall of E (rule R97), the counts and times of the transport's
primitives (rule R98), and E between transmissions (rule R100).
-/

namespace Sys2Proof.Machine

/-! ### A fall of E (rule R97) -/

/-- The step that drives E low hands the receiver the transfer on the lines, at the end of the step (log entry 9). -/
theorem step_fall {s : State} {i : Instr} {bus : Bus} {rest : List Action}
    (hs : s.seq = .busy i bus (.set bus.pins.e false :: rest)) :
    ∃ t k, step s = .next t ∧ s.now ≤ t.now ∧
      t.receiver = recv k t.now ((s.drive bus.pins.e false).latchedTransfer bus) s.receiver := by
  refine ⟨(s.setPin bus bus.pins.e false).busyWith i bus rest, (s.drive bus.pins.e false).draws, step_busy hs, ?_, ?_⟩
  · simp
  · simp [State.setPin_fall]

/-- Lines of known level keep it while another pin is driven. -/
theorem levelOf_drive_of_lines {s : State} {e : PinId} {lines : List (PinId × Level)}
    (hlatch : ∀ x ∈ lines, s.latchOf x.1 = some x.2) (he : e ∉ lines.map Prod.fst) (q : PinId) (v l : Level)
    (hq : (q, l) ∈ lines) : (s.drive e v).levelOf q = l := by
  have hne : q ≠ e := by rintro rfl; exact he (List.mem_map_of_mem hq)
  exact State.levelOf_of_latch (by rw [State.latchOf_drive, if_neg hne]; exact hlatch _ hq)

/-- Settles O6: the step is `step_fall`, and the levels that driving E leaves on the other lines make the transfer
(`transferAt_eight`, `transferAt_four`). -/
theorem fallingEnableLatchesTheLines : Obligations.FallingEnableLatchesTheLines := by
  intro s i p rest rs hrs hne
  have hrs' : (s.drive p.e false).levelOf p.rs = rs :=
    State.levelOf_of_latch (by rw [State.latchOf_drive, if_neg hne]; exact hrs)
  refine ⟨fun b hs he h0 h1 h2 h3 h4 h5 h6 h7 => ?eight, fun n hs he h4 h5 h6 h7 => ?four⟩
  case eight =>
    have hlines : ∀ x ∈ [(p.d0, b.getLsbD 0), (p.d1, b.getLsbD 1), (p.d2, b.getLsbD 2), (p.d3, b.getLsbD 3),
        (p.d4, b.getLsbD 4), (p.d5, b.getLsbD 5), (p.d6, b.getLsbD 6), (p.d7, b.getLsbD 7)], s.latchOf x.1 = some x.2 := by
      simp only [List.forall_mem_cons]
      exact ⟨h0, h1, h2, h3, h4, h5, h6, h7, nofun⟩
    have htransfer : (s.drive p.e false).latchedTransfer ⟨.eightBit, p⟩ = .t8 rs b :=
      transferAt_eight p rs b _ hrs' fun q v => levelOf_drive_of_lines hlines he q false v
    rw [← htransfer]
    exact step_fall hs
  case four =>
    have hlines : ∀ x ∈ [(p.d4, n.getLsbD 0), (p.d5, n.getLsbD 1), (p.d6, n.getLsbD 2), (p.d7, n.getLsbD 3)],
        s.latchOf x.1 = some x.2 := by
      simp only [List.forall_mem_cons]
      exact ⟨h4, h5, h6, h7, nofun⟩
    have htransfer : (s.drive p.e false).latchedTransfer ⟨.fourBit, p⟩ = .t4 rs n :=
      transferAt_four p rs n _ hrs' fun q v => levelOf_drive_of_lines hlines he q false v
    rw [← htransfer]
    exact step_fall hs

/-! ### E between transmissions (rule R100) -/

/-- Whatever the level of E was before these events, they leave it low. -/
def LeavesEnableLow (bus : Bus) (as : List Action) : Prop := ∀ l, levelAfter bus.pins.e l as = some false

theorem LeavesEnableLow.after {bus : Bus} {as : List Action} (h : LeavesEnableLow bus as) (before : List Action) :
    LeavesEnableLow bus (before ++ as) := fun l => by rw [levelAfter_append, h]

theorem LeavesEnableLow.wait {bus : Bus} {as : List Action} (h : LeavesEnableLow bus as) (n : Nat) :
    LeavesEnableLow bus (as ++ [.wait n]) := fun l => by rw [levelAfter_append, h]; rfl

section EnableLow

variable (bus : Bus)

theorem leavesEnableLow_pulse : LeavesEnableLow bus (pulse bus.pins) := fun l => by simp [pulse, levelAfter]

/-- A SEND ends in a pulse, in either mode (rules R92 and R93). -/
theorem leavesEnableLow_send (rs : Level) (b : Byte) : LeavesEnableLow bus (send bus rs b) := by
  obtain ⟨m, p⟩ := bus
  cases m with
  | eightBit => exact (leavesEnableLow_pulse ⟨.eightBit, p⟩).after _
  | fourBit => exact (leavesEnableLow_pulse ⟨.fourBit, p⟩).after _

/-- A text leaves E low where it is low before, which it must be for an empty text. -/
theorem levelAfter_print (text : List Byte) : levelAfter bus.pins.e (some false) (printEvents text bus) = some false := by
  induction text with
  | nil => rfl
  | cons c rest ih =>
    rw [printEvents, List.flatMap_cons, levelAfter_append, writeDataEvents, sendData, leavesEnableLow_send bus]
    exact ih

/-- INIT's last transmission leaves E low, whatever its level after the configure calls (rule R28). -/
theorem leavesEnableLow_init : LeavesEnableLow bus (initEvents bus) :=
  ((leavesEnableLow_send bus false 0x06#8).after _).wait tSettle

/-- A command leaves E low where it is low before. -/
theorem levelAfter_command (cfg : Config) {i : Instr} (hrole : Instr.role i = .command) :
    levelAfter bus.pins.e (some false) (eventsOf cfg i bus) = some false := by
  have hsend := leavesEnableLow_send bus
  cases i with
  | clear => exact (hsend _ _).wait tClear _
  | setCursor row col => exact hsend _ _ _
  | printChars text => exact levelAfter_print bus _
  | printInt value => exact levelAfter_print bus _
  | printFloat value precision => exact levelAfter_print bus _
  | progressBar row progress =>
    have hcursor : LeavesEnableLow bus (setCursorEvents row 0 bus) := hsend _ _
    rw [eventsOf, progressBarEvents, levelAfter_append, hcursor]
    exact levelAfter_print bus _
  | clearRow row => exact (hsend _ _).after _ _
  | _ => cases hrole

end EnableLow

theorem enableLow_of_idle {s : State} (hs : s.seq = .idle) (h : ∀ p, s.pins = some p → s.latchOf p.e = some false) :
    EnableLow s := by
  rw [EnableLow, hs]
  exact h

theorem EnableLow.idle {s : State} (h : EnableLow s) (hs : s.seq = .idle) {p : PinRecord} (hp : s.pins = some p) :
    s.latchOf p.e = some false := by
  rw [EnableLow, hs] at h
  exact h p hp

theorem EnableLow.busy {s : State} {i : Instr} {bus : Bus} {rest : List Action} (h : EnableLow s)
    (hs : s.seq = .busy i bus rest) : levelAfter bus.pins.e (s.latchOf bus.pins.e) rest = some false := by
  rw [EnableLow, hs] at h
  exact h

/-- The request that ends ran with the pins that the driver state holds afterwards (rules R27 and R140). -/
theorem RequestGood.pins_finish {s : State} {i : Instr} {bus : Bus} {rest : List Action} (h : RequestGood s i bus rest) :
    (s.finish i bus).pins = some bus.pins := by
  obtain ⟨-, -, -, hcommand⟩ := h
  by_cases hrole : Instr.role i = .initializer
  · obtain ⟨-, -, hpins⟩ := finish_initializer bus s hrole
    exact hpins
  · obtain ⟨-, -, hkept⟩ := finish_driverState bus s hrole
    exact hkept.trans (State.bus_eq_some.1 (hcommand hrole).2).2

/-- While configure calls are made there is no driver state: INIT alone makes them (43_initializer.md rule R132). -/
theorem DriverInv.pins_of_configure {s : State} {i : Instr} {bus : Bus} {p : PinId} {more : List Action} (h : DriverInv s)
    (hs : s.seq = .busy i bus (.configure p :: more)) : s.pins = none := by
  obtain ⟨-, hrest, hinit, -⟩ := h.request hs
  obtain ⟨hun, -, -⟩ := hinit (initializer_of_configure_mem (hrest.subset (List.mem_cons_self ..)))
  exact (h.driverState.2 hun).2

theorem EnableLow.advance {s : State} {i : Instr} {bus : Bus} {rest : List Action} (hlow : EnableLow s) (hinv : DriverInv s)
    (hs : s.seq = .busy i bus rest) : EnableLow (s.advance i bus rest) := by
  have hend := hlow.busy hs
  obtain ⟨rfl, ht⟩ | ⟨a, more, rfl, -, ht⟩ | ⟨p, more, rfl, -, ht⟩ := advance_cases i bus rest s <;> rw [ht]
  · refine enableLow_of_idle (finish_seq ..) fun p hp => ?_
    obtain rfl : bus.pins = p := Option.some.inj ((hinv.request hs).pins_finish.symm.trans hp)
    exact (finish_latchOf ..).trans hend
  · have hperform : (s.perform bus a).latchOf bus.pins.e = levelAfter bus.pins.e (s.latchOf bus.pins.e) [a] :=
      latchOf_performAll bus [a] s bus.pins.e
    rw [← List.singleton_append, levelAfter_append, ← hperform] at hend
    exact hend
  · exact enableLow_of_idle rfl fun q hq => absurd ((hinv.pins_of_configure hs).symm.trans hq) nofun

/-- A request issued in `Idle`: an error leaves pins and latches, and what is accepted ends with E low. -/
theorem EnableLow.issue {s t : State} {i : Instr} (hlow : EnableLow s) (hs : s.seq = .idle) (h : exec i s = .next t) :
    EnableLow t := by
  obtain ⟨k, -, -, rfl⟩ | ⟨bus, rfl, haccepted⟩ := exec_cases hs h
  · exact enableLow_of_idle rfl fun p hp => hlow.idle hs hp
  · change levelAfter bus.pins.e (s.latchOf bus.pins.e) (eventsOf s.cfg i bus) = some false
    obtain ⟨-, -, rfl, -⟩ | ⟨hrole, -, -, hbus⟩ := haccepted
    · exact leavesEnableLow_init bus _
    · rw [hlow.idle hs (State.bus_eq_some.1 hbus).2]
      exact levelAfter_command bus s.cfg hrole

/-- Settles O47, by cases on the sequencer: an event performed takes its part of `levelAfter`, a request that ends ran with the
driver state's pins, and the events of one that is accepted leave E low. -/
theorem stepKeepsEnableLow : Obligations.StepKeepsEnableLow := by
  intro s t hinv hlow h
  cases hs : s.seq with
  | busy i bus rest =>
    rw [step_busy hs] at h
    cases h
    exact hlow.advance hinv hs
  | idle =>
    obtain ⟨-, rfl⟩ | ⟨c, cs, i, -, -, hexec⟩ := step_idle_cases hs h
    · exact enableLow_of_idle hs fun p hp => hlow.idle hs hp
    · exact EnableLow.issue (s := s.takeRequest cs) (enableLow_of_idle hs fun p hp => hlow.idle hs hp) hs hexec

/-! ### Pulses (rule R98) -/

/-- How often these events raise the pin. -/
def rises (e : PinId) (as : List Action) : Nat := as.count (.set e true)

theorem rises_append (e : PinId) (as bs : List Action) : rises e (as ++ bs) = rises e as + rises e bs := List.count_append

theorem rises_pulse (p : PinRecord) : rises p.e (pulse p) = 1 := by simp [rises, pulse]

theorem rises_of_not_set {e : PinId} {as : List Action} (h : ∀ v, Action.set e v ∉ as) : rises e as = 0 :=
  List.count_eq_zero.2 (h true)

section Rises

variable {p : PinRecord}

/-- The writes before the pulse of a SEND on eight lines leave E alone. -/
theorem rises_lines8 (hd : distinct (set8 p) = true) (rs : Level) (b : Byte) :
    rises p.e (.set p.rs rs :: putByte p b) = 0 := by
  simp only [set8, distinct_cons, List.mem_cons, not_or] at hd
  obtain ⟨⟨hrs, -⟩, ⟨he, -⟩⟩ := hd
  exact rises_of_not_set fun v => by simp [putByte, he, Ne.symm hrs]

theorem rises_rs (hd : distinct (set4 p) = true) (rs : Level) : rises p.e [.set p.rs rs] = 0 := by
  simp only [set4, distinct_cons, List.mem_cons, not_or] at hd
  obtain ⟨⟨hrs, -⟩, -⟩ := hd
  exact rises_of_not_set fun v => by simp [Ne.symm hrs]

theorem rises_putNibble (hd : distinct (set4 p) = true) (n : Nibble) : rises p.e (putNibble p n) = 0 := by
  simp only [set4, distinct_cons, List.mem_cons, not_or] at hd
  obtain ⟨-, ⟨he, -⟩⟩ := hd
  exact rises_of_not_set fun v => by simp [putNibble, he]

theorem rises_send8 (hd : distinct (set8 p) = true) (rs : Level) (b : Byte) : rises p.e (send8 p rs b) = 1 := by
  rw [send8, rises_append, rises_pulse, List.singleton_append, rises_lines8 hd]

theorem rises_send4 (hd : distinct (set4 p) = true) (rs : Level) (b : Byte) : rises p.e (send4 p rs b) = 2 := by
  simp only [send4, rises_append, rises_rs hd, rises_putNibble hd, rises_pulse]

theorem rises_sendNibble4 (hd : distinct (set4 p) = true) (n : Nibble) :
    rises p.e (sendNibble ⟨.fourBit, p⟩ n) = 1 := by
  simp only [sendNibble, rises_append, rises_rs hd, rises_putNibble hd, rises_pulse]

end Rises

theorem counts_pulse (p : PinRecord) : counts (traceOf (pulse p)) = (0, 2, 2, 41) := rfl

/-- Settles O14: the counts are the `counts_` lemmas without their configure calls, and the pulses the `rises_` lemmas. -/
theorem transmissionCountsAndTimes : Obligations.TransmissionCountsAndTimes := by
  intro p rs b n row pulses
  have hrow : ∀ {l : List Action} {c}, counts (traceOf l) = c → row l = c.2 := fun h => congrArg Prod.snd h
  exact ⟨hrow (counts_pulse p), hrow (counts_send8 p rs b), hrow (counts_send4 p rs b), hrow (counts_sendNibble p n),
    hrow (counts_send8 p false (n ++ 0x0#4)), rises_pulse p,
    fun hd => ⟨rises_send8 hd rs b, rises_send8 hd false (n ++ 0x0#4)⟩,
    fun hd => ⟨rises_send4 hd rs b, rises_sendNibble4 hd n⟩⟩

end Sys2Proof.Machine
end

section
/-!
PROOFS, family 42_bus_words.md: what each word does to the receiver's observer model (rules R110 to R121), where a bus word's
transmission begins (rules R112 to R120), and what a printed text leaves in the display data (rule R120).
-/

namespace Sys2Proof.Machine

/-! ### The effect of each word (rules R112 to R119; data, clear-display and formed addresses: `wordEffect_data` and after) -/

section WordEffect

variable (k : Nat) (r : Receiver)

theorem wordEffect_displayControl :
    wordEffect k false 0x0C#8 r = some { r with disp := true, cursor := false, blink := false } := rfl

theorem wordEffect_entryMode : wordEffect k false 0x06#8 r = some { r with inc := true, shift := false } := rfl

/-- Every byte 0x20 to 0x3F acts as a function set, emitted or not (log entry 10). -/
theorem wordEffect_functionSet {b : Byte} (hlow : 0x20 ≤ b.toNat) (hhigh : b.toNat < 0x40) :
    wordEffect k false b r = some (functionSet b r) := by
  have hbits : ∀ b : Byte, 0x20 ≤ b.toNat → b.toNat < 0x40 → ¬b &&& 0x80#8 = 0x80#8 ∧ b &&& 0xE0#8 = 0x20#8 := by
    decide
  obtain ⟨hcommand, hset⟩ := hbits b hlow hhigh
  simp [wordEffect, hcommand, hset]

/-- The effect of an address word, by its encoding (rules R45, R65 and R119). -/
theorem wordEffect_addressWord {a : BitVec 7} (h : addressFormed a = true) :
    wordEffect k false (0b1#1 ++ a) r = some { r with ac := a } := by
  rw [← address_byte]
  exact wordEffect_address k h r

/-- No rule gives an address outside the 32 an effect (rule R45). -/
theorem wordEffect_addressWord_unformed {a : BitVec 7} (h : ¬addressFormed a = true) :
    wordEffect k false (0b1#1 ++ a) r = none := by
  have hbits : ∀ a : BitVec 7, (0b1#1 ++ a : Byte) &&& 0x80#8 = 0x80#8 ∧ (0b1#1 ++ a : Byte).extractLsb' 0 7 = a := by decide
  simp [wordEffect, hbits a, h]

/-- No rule gives the other command bytes below 0x80 an effect (rule R67). -/
theorem wordEffect_unlisted {b : Byte} (h : b.toNat < 0x20 ∨ (0x40 ≤ b.toNat ∧ b.toNat < 0x80))
    (hb : b ∉ [0x01#8, 0x06#8, 0x0C#8]) : wordEffect k false b r = none := by
  have hbits : ∀ b : Byte, b.toNat < 0x20 ∨ (0x40 ≤ b.toNat ∧ b.toNat < 0x80) →
      ¬b &&& 0x80#8 = 0x80#8 ∧ ¬b &&& 0xE0#8 = 0x20#8 := by decide
  obtain ⟨hcommand, hset⟩ := hbits b h
  simp only [List.mem_cons, List.not_mem_nil, or_false, not_or] at hb
  obtain ⟨hclear, hentry, hdisplay⟩ := hb
  simp [wordEffect, hcommand, hset, hclear, hentry, hdisplay]

end WordEffect

/-- Only clear-display takes longer than 40 µs (rule R110). -/
theorem execTime_of_ne {rs : Level} {b : Byte} (h : b ≠ 0x01#8) : execTime rs b = 40 := if_neg (fun hc => h hc.2)

/-! ### A transfer to a receiver in eight-bit width (rule R110) -/

section EightBitWidth

variable {k t : Nat} {r : Receiver} (hw : r.ifw = .eight) (hfree : r.busyUntil ≤ t)
include hw hfree

/-- A free receiver executes the word it reads from the transfer. -/
theorem recv_eight (x : Transfer) : recv k t x r = execWord k t x.rs (x.byte k) r := by
  rw [recv, if_neg (Nat.not_lt.2 hfree), hw]

/-- A listed word has its effect and takes its time. -/
theorem recv_eight_listed {rs : Level} {b : Byte} {q : Receiver} (hq : wordEffect k rs b r = some q) :
    recv k t (.t8 rs b) r = { q with busyUntil := t + execTime rs b } := by
  rw [recv_eight hw hfree]
  simp only [execWord, Transfer.rs, Transfer.byte, hq]

/-- Any other word leaves a draw (rule R121). -/
theorem recv_eight_unlisted {rs : Level} {b : Byte} (hq : wordEffect k rs b r = none) :
    recv k t (.t8 rs b) r = Receiver.draw k := by
  rw [recv_eight hw hfree]
  simp [execWord, Transfer.rs, Transfer.byte, hq, unlistedWord, hw]

/-- A byte 0x20 to 0x3F, from a byte or a nibble transfer, sets what its bits DL, N and F spell (rule R66). -/
theorem recv_eight_functionSet {x : Transfer} (hrs : x.rs = false) (hlow : 0x20 ≤ (x.byte k).toNat)
    (hhigh : (x.byte k).toNat < 0x40) : recv k t x r =
      { r with
        ifw := if (x.byte k).getLsbD 4 then .eight else .four
        phase := if (x.byte k).getLsbD 4 then r.phase else .high
        lines := if (x.byte k).getLsbD 3 then .two else .one
        font := if (x.byte k).getLsbD 2 then .dots5x10 else .dots5x8
        busyUntil := t + 40 } := by
  have hne : x.byte k ≠ 0x01#8 := fun h => by rw [h] at hlow; exact absurd hlow (by decide)
  rw [recv_eight hw hfree, hrs]
  simp only [execWord, wordEffect_functionSet k r hlow hhigh, execTime_of_ne hne, functionSet, hw, and_true]
  cases (x.byte k).getLsbD 4 <;> rfl

/-- A nibble 0x2 or 0x3 is the upper half of a function set, whatever the undriven lines show. -/
theorem recv_eight_nibble {n : Nibble} (hn : n.toNat = 2 ∨ n.toNat = 3) : ∃ l f, recv k t (.t4 false n) r =
    { r with
      ifw := if n.getLsbD 0 then .eight else .four
      phase := if n.getLsbD 0 then r.phase else .high
      lines := l
      font := f
      busyUntil := t + 40 } := by
  have hbits : ∀ n m : Nibble, n.toNat = 2 ∨ n.toNat = 3 →
      0x20 ≤ (n ++ m : Byte).toNat ∧ (n ++ m : Byte).toNat < 0x40 ∧ (n ++ m : Byte).getLsbD 4 = n.getLsbD 0 := by decide
  obtain ⟨hlow, hhigh, hdl⟩ := hbits n (Config.undrivenLines k) hn
  rw [← hdl]
  exact ⟨_, _, recv_eight_functionSet hw hfree (x := .t4 false n) rfl hlow hhigh⟩

end EightBitWidth

/-- Inside a row's range an incrementing address counter goes up by one (rule R120). -/
theorem nextAc_toNat (k : Nat) {r : Receiver} (hinc : r.inc = true)
    (hrange : r.ac.toNat ≤ 0x26 ∨ (0x40 ≤ r.ac.toNat ∧ r.ac.toNat ≤ 0x66)) : (nextAc k r).toNat = r.ac.toNat + 1 := by
  rw [nextAc, if_pos ⟨hinc, hrange⟩, BitVec.toNat_add]
  exact Nat.mod_eq_of_lt (by show r.ac.toNat + 1 < 128; omega)

/-- Settles O21, word by word: a free receiver executes the word, whose effect is the `wordEffect_` lemma's or, where no rule
lists the word, a draw. -/
theorem receiverEffectsInEightBitWidth : Obligations.ReceiverEffectsInEightBitWidth := by
  intro k t r hw hfree
  have hset := fun (b : Byte) (hlow : 0x20 ≤ b.toNat) (hhigh : b.toNat < 0x40) =>
    recv_eight_functionSet (k := k) hw hfree (x := .t8 false b) rfl hlow hhigh
  refine ⟨?byte30, ?nibble3, ?nibble2, ?byte38, ?byte28, recv_eight_listed hw hfree (wordEffect_displayControl k r),
    recv_eight_listed hw hfree (wordEffect_entryMode k r),
    ⟨Memory.cleared, Memory.read_cleared, recv_eight_listed hw hfree (wordEffect_clear k r)⟩, fun a => ?address,
    fun d => ?data, hset, fun b hrange hb => recv_eight_unlisted hw hfree (wordEffect_unlisted k r hrange hb)⟩
  case byte30 => simpa [Transfer.byte, hw] using hset 0x30#8 (by decide) (by decide)
  case byte38 => simpa [Transfer.byte, hw] using hset 0x38#8 (by decide) (by decide)
  case byte28 => simpa [Transfer.byte] using hset 0x28#8 (by decide) (by decide)
  case nibble3 => simpa [hw] using recv_eight_nibble (n := 0x3#4) hw hfree (.inr rfl)
  case nibble2 => simpa using recv_eight_nibble (n := 0x2#4) hw hfree (.inl rfl)
  case address =>
    have hne : ∀ a : BitVec 7, (0b1#1 ++ a : Byte) ≠ 0x01#8 := by decide
    simp only [← addressFormed_iff]
    split
    next h => rw [recv_eight_listed hw hfree (wordEffect_addressWord k r h), execTime_of_ne (hne a)]
    next h => exact recv_eight_unlisted hw hfree (wordEffect_addressWord_unformed k r h)
  case data =>
    exact ⟨Memory.write r.ddram r.ac d, nextAc k r, fun a => Memory.read_write _ _ _ _, nextAc_toNat k,
      recv_eight_listed hw hfree (wordEffect_data k d r)⟩

/-- Settles O23: the first test of RECV, and what a draw reads at each address. -/
theorem transferWhileBusyIsADraw : Obligations.TransferWhileBusyIsADraw := by
  intro k t x r hbusy
  have hdraw : recv k t x r = Receiver.draw k := if_pos hbusy
  exact ⟨hdraw, fun a => hdraw ▸ Memory.read_draw k a⟩

/-! ### A nibble pair to a receiver in four-bit width (rules R110 and R111) -/

/-- The words the block emits as nibble pairs (30_encoding.md rule R64), as RS level and byte. -/
def BlockWord (rs : Level) (b : Byte) : Prop :=
  rs = true ∨ b ∈ [0x38#8, 0x28#8, 0x0C#8, 0x01#8, 0x06#8] ∨
    ∃ a : BitVec 7, b = 0b1#1 ++ a ∧ (a.toNat < 16 ∨ (0x40 ≤ a.toNat ∧ a.toNat < 0x50))

/-- Each word of the block has an effect; in four-bit width with a fresh pair it keeps the phase, and the width unless it is
0x38. -/
theorem BlockWord.exists_wordEffect {rs : Level} {b : Byte} (h : BlockWord rs b) (k : Nat) {r : Receiver} (hw : r.ifw = .four)
    (hp : r.phase = .high) :
    ∃ q, wordEffect k rs b r = some q ∧ q.phase = .high ∧ (q.ifw = .four ↔ ¬(rs = false ∧ b = 0x38#8)) := by
  cases rs with
  | true => exact ⟨_, wordEffect_data k b r, hp, by simp [hw]⟩
  | false =>
    obtain hconst | ⟨a, rfl, ha⟩ := h.resolve_left Bool.false_ne_true
    · simp only [List.mem_cons, List.not_mem_nil, or_false] at hconst
      obtain rfl | rfl | rfl | rfl | rfl := hconst
      · exact ⟨_, wordEffect_functionSet k r (by decide) (by decide), by simp [functionSet, hp], by simp [functionSet]⟩
      · exact ⟨_, wordEffect_functionSet k r (by decide) (by decide), by simp [functionSet, hp], by simp [functionSet]⟩
      · exact ⟨_, wordEffect_displayControl k r, hp, by simp [hw]⟩
      · exact ⟨_, wordEffect_clear k r, hp, by simp [hw]⟩
      · exact ⟨_, wordEffect_entryMode k r, hp, by simp [hw]⟩
    · have hne : ∀ a : BitVec 7, (0b1#1 ++ a : Byte) ≠ 0x38#8 := by decide
      exact ⟨_, wordEffect_addressWord k r ((addressFormed_iff a).2 ha), hp, by simp [hw, hne a]⟩

/-- With a fresh pair a word does the same in eight-bit width, but for the width it leaves: no rule's test reads the width, and a
function set with DL = 0 finds the phase as it would make it. -/
theorem wordEffect_in_eight {k : Nat} {rs : Level} {b : Byte} {r q : Receiver} (hp : r.phase = .high)
    (hq : wordEffect k rs b r = some q) : ∃ v, wordEffect k rs b { r with ifw := .eight } = some { q with ifw := v } := by
  unfold wordEffect at hq ⊢
  split_ifs at hq ⊢ <;> obtain rfl := Option.some.inj hq <;> exact ⟨_, by simp [nextAc, functionSet, hp]; rfl⟩

/-- Two nibbles to a receiver that is free at both have the effect of the word they make up. -/
theorem recv_pair {k k' t t' : Nat} {r q : Receiver} {rs : Level} {b : Byte} (hw : r.ifw = .four) (hp : r.phase = .high)
    (hfree : r.busyUntil ≤ t) (hfree' : r.busyUntil ≤ t') (hq : wordEffect k' rs b r = some q) :
    recv k' t' (.t4 rs (b.extractLsb' 0 4)) (recv k t (.t4 rs (b.extractLsb' 4 4)) r) =
      { q with held := b.extractLsb' 4 4, busyUntil := t' + execTime rs b } := by
  have hheld : recv k t (.t4 rs (b.extractLsb' 4 4)) r = { r with held := b.extractLsb' 4 4, phase := .low } := by
    simp [recv, hfree, hw, hp, Transfer.nibble]
  have hpair := wordEffect_of_pair k' rs b r (b.extractLsb' 4 4) hw hp
  rw [hq, hw] at hpair
  rw [hheld]
  simp [recv, hfree', hw, execWord, Transfer.rs, Transfer.nibble, nibbles_append, hpair]

/-- Settles O22: the pair has the word's effect (`recv_pair`), which is the effect in eight-bit width but for the width
(`wordEffect_in_eight`). -/
theorem nibblePairActsAsItsWord : Obligations.NibblePairActsAsItsWord := by
  intro k k' t t' r rs b hw hp hfree hfree' hword
  obtain ⟨q, hq, hphase, hwidth⟩ := BlockWord.exists_wordEffect hword k' hw hp
  obtain ⟨v, hq8⟩ := wordEffect_in_eight hp hq
  rw [recv_pair hw hp hfree hfree' hq, recv_eight_listed (r := { r with ifw := .eight }) rfl hfree' hq8]
  exact ⟨hphase, rfl, rfl, rfl, rfl, rfl, rfl, rfl, rfl, rfl, rfl, hwidth⟩

/-! ### Where a bus word's transmission begins (rules R112 to R120) -/

/-- Where `emission` comes next, the word `w` runs as `Obligations.BusWordsAreTransmitted` says. -/
def BeginsWord (s : State) (i : Instr) (bus : Bus) (more : List Action) (w : Instr) (rs : Level)
    (emission : List Action) : Prop :=
  s.seq = .busy i bus (emission ++ more) →
    ∃ t, exec w s = .next t ∧ step s = .next t ∧ s.now ≤ t.now ∧
      (∀ q, t.latchOf q = if q = bus.pins.rs then some rs else s.latchOf q) ∧
      (bus.pins.rs ≠ bus.pins.e → t.receiver = s.receiver) ∧
      t = { s with
        seq := .busy i bus (emission.drop 1 ++ more)
        trace := s.trace ++ [.set bus.pins.rs rs]
        latch := t.latch
        receiver := t.receiver
        now := t.now
        draws := t.draws }

/-- Driving a line writes its latch, the trace, the time and the draws, and the receiver's record at a fall of E. -/
theorem State.setPin_eq (bus : Bus) (p : PinId) (v : Level) (s : State) : s.setPin bus p v =
    { s with
      trace := s.trace ++ [.set p v]
      latch := (s.setPin bus p v).latch
      receiver := (s.setPin bus p v).receiver
      now := (s.setPin bus p v).now
      draws := (s.setPin bus p v).draws } := by
  unfold State.setPin; split <;> rfl

theorem send_eq_cons (bus : Bus) (rs : Level) (b : Byte) : ∃ tail, send bus rs b = .set bus.pins.rs rs :: tail := by
  obtain ⟨m, p⟩ := bus
  cases m with
  | eightBit => exact ⟨_, rfl⟩
  | fourBit => exact ⟨_, rfl⟩

theorem sendNibble_eq_cons (bus : Bus) (n : Nibble) : ∃ tail, sendNibble bus n = .set bus.pins.rs false :: tail := by
  obtain ⟨m, p⟩ := bus
  cases m with
  | eightBit => exact ⟨_, rfl⟩
  | fourBit => exact ⟨_, rfl⟩

section Begins

variable {s : State} {i w : Instr} {bus : Bus} {more : List Action}

/-- An emitted word whose transmission drives RS first begins with that event, as the busy step does. -/
theorem beginsWord_of_emits {rs : Level} {tail : List Action} (hemits : emits i bus.mode w = true)
    (hevents : eventsOf s.cfg w bus = .set bus.pins.rs rs :: tail) :
    BeginsWord s i bus more w rs (.set bus.pins.rs rs :: tail) := by
  intro hs
  have hdue : wordDue s.cfg i bus (.set bus.pins.rs rs :: tail ++ more) w = true := by
    simp [wordDue, hemits, hevents]
  refine ⟨(s.setPin bus bus.pins.rs rs).busyWith i bus (tail ++ more), exec_due hs hdue, step_busy hs, ?now, ?latch, ?receiver,
    ?frame⟩
  case now => simp
  case latch => exact fun q => State.latchOf_setPin ..
  case receiver => exact fun hne => s.setPin_receiver bus _ rs (fun h => hne h.1)
  case frame => exact congrArg (State.busyWith i bus (tail ++ more)) (s.setPin_eq bus bus.pins.rs rs)

/-- A word that is SEND of a byte, then at most waits. -/
theorem SentAs.beginsWord {rs : Level} {b : Byte} (hw : SentAs w rs b) (hemits : emits i bus.mode w = true) :
    BeginsWord s i bus more w rs (eventsOf s.cfg w bus) := by
  obtain ⟨-, waits, hevents⟩ := hw
  obtain ⟨tail, htail⟩ := send_eq_cons bus rs b
  have hall : eventsOf s.cfg w bus = .set bus.pins.rs rs :: (tail ++ waits.map .wait) := by rw [hevents, htail]; rfl
  rw [hall]
  exact beginsWord_of_emits hemits hall

/-- A single nibble. -/
theorem beginsWord_of_nibble {n : Nibble} (hevents : eventsOf s.cfg w bus = sendNibble bus n)
    (hemits : emits i bus.mode w = true) : BeginsWord s i bus more w false (sendNibble bus n) := by
  obtain ⟨tail, htail⟩ := sendNibble_eq_cons bus n
  rw [htail] at hevents ⊢
  exact beginsWord_of_emits hemits hevents

end Begins

/-- The byte of an address word, as a number (rule R65). -/
theorem address_ofNat (a : BitVec 7) : BitVec.ofNat 8 (0x80 + a.toNat) = 0x80#8 ||| a.setWidth 8 := by
  revert a; decide

/-- Settles O17, word by word: `emits` allows it where the statement says so, and its transmission begins with RS. -/
theorem busWordsAreTransmitted : Obligations.BusWordsAreTransmitted := by
  intro s i m p more
  refine ⟨?nib8, ?nib4, ?set8, ?set4, ?display, ?clear, ?entry, ?address, ?data⟩
  case nib8 => rintro ⟨pins, rfl⟩; exact beginsWord_of_nibble rfl rfl
  case nib4 => rintro ⟨pins, rfl⟩ rfl; exact beginsWord_of_nibble rfl rfl
  case set8 => rintro ⟨pins, rfl⟩ rfl; exact sentAs_functionSet8bit.beginsWord rfl
  case set4 => rintro ⟨pins, rfl⟩ rfl; exact sentAs_functionSet4bit.beginsWord rfl
  case display => rintro ⟨pins, rfl⟩; exact sentAs_displayControl.beginsWord rfl
  case clear =>
    rintro (⟨pins, rfl⟩ | rfl)
    · exact sentAs_clearDisplay.beginsWord rfl
    · exact sentAs_clearDisplay.beginsWord rfl
  case entry => rintro ⟨pins, rfl⟩; exact sentAs_entryMode.beginsWord rfl
  case address =>
    intro hi a ha
    have hplaces : placesCursor i = true := by obtain ⟨row, col, rfl⟩ | ⟨row, g, rfl⟩ | ⟨row, rfl⟩ := hi <;> rfl
    rw [address_ofNat]
    exact (sentAs_setDdramAddr a).beginsWord (Bool.and_eq_true_iff.2 ⟨hplaces, (addressFormed_iff a).2 ha⟩)
  case data =>
    intro hi d
    have hwrites : writesText i = true := by
      obtain (⟨text, rfl⟩ | ⟨v, rfl⟩ | ⟨v, prec, rfl⟩) | ⟨row, g, rfl⟩ | ⟨row, rfl⟩ := hi <;> rfl
    exact (sentAs_writeData d).beginsWord hwrites

/-! ### A printed text in the display data (rules R120 and R153 to R155) -/

/-- A well-formed request with operands in bounds is accepted where the driver state is there (44_command_layer.md rule R150). -/
theorem exec_command_accepted {i : Instr} {s : State} {bus : Bus} (hrole : Instr.role i = .command)
    (hw : i.wellFormed s.cfg = true) (harg : argOk s.cfg i = true) (hs : s.seq = .idle) (hinit : s.initialized = true)
    (hbus : s.bus = some bus) : exec i s = .next (s.busyWith i bus (eventsOf s.cfg i bus)) := by
  rw [exec_command hrole hw, commandRequest, hs]
  simp [hinit, harg, hbus, entryError_good]

/-- The request `i` prints `text`: its operands can be written and are in bounds, and its events are the text's data words. -/
def Prints (cfg : Config) (i : Instr) (text : List Byte) : Prop :=
  Instr.role i = .command ∧ i.wellFormed cfg = true ∧ argOk cfg i = true ∧ ∀ bus, eventsOf cfg i bus = printEvents text bus

section Prints

variable {cfg : Config}

theorem prints_printChars {text : List Byte} (hnul : 0x00#8 ∉ text) : Prints cfg (.printChars (some text)) text :=
  ⟨rfl, by simpa [Instr.wellFormed, textHasNoNul] using hnul, rfl, fun _ => rfl⟩

theorem prints_printInt {v : Int} (hlow : -2 ^ (cfg.intBits - 1) ≤ v) (hhigh : v ≤ 2 ^ (cfg.intBits - 1) - 1) :
    Prints cfg (.printInt v) (formatDec v) :=
  ⟨rfl, Bool.and_eq_true_iff.2 ⟨decide_eq_true hlow, decide_eq_true hhigh⟩, rfl, fun _ => rfl⟩

theorem prints_printFloat {v : FloatVal} {prec : Nat} (hv : floatRepresentable cfg.floatFmt v = true)
    (hprec : prec ≤ cfg.precMax) : Prints cfg (.printFloat v prec) (formatFixed cfg.floatFmt v prec) :=
  ⟨rfl, hv, by simpa [argOk, precisionOk] using hprec, fun _ => rfl⟩

end Prints

/-- The address of a column of either row, in the display's range or past it (20_memory.md rule R44). -/
theorem ddramAddr_eq_ofNat {row : Nat} (hrow : row ≤ 1) (c : Nat) :
    ddramAddr row c = BitVec.ofNat 7 (0x40 * row + c) := by
  obtain rfl | rfl : row = 0 ∨ row = 1 := by omega
  · simp [ddramAddr, rowBase]
  · simp [ddramAddr, rowBase, BitVec.ofNat_add]

/-- Settles O42: each of the three requests performs the text's data words (`Prints`), which leave the text where the address
counter stood (`print_stands`), and its end does not touch the receiver. -/
theorem printedTextStandsInDdram : Obligations.PrintedTextStandsInDdram := by
  intro s bus i text row col hinv hs hinit hbus hstep hrow hcol hac htext
  obtain ⟨hrole, hw, harg, hevents⟩ : Prints s.cfg i text := by
    obtain ⟨rfl, hnul⟩ | ⟨v, rfl, hlow, hhigh, rfl⟩ | ⟨v, prec, rfl, hv, hprec, rfl⟩ := htext
    · exact prints_printChars hnul
    · exact prints_printInt hlow hhigh
    · exact prints_printFloat hv hprec
  have htoNat : ∀ n, n ≤ text.length → (BitVec.ofNat 7 (0x40 * row + col + n)).toNat = 0x40 * row + col + n :=
    fun n hn => Nat.mod_eq_of_lt (by omega)
  obtain ⟨hend, hread⟩ := print_stands bus (hinv.driverState.distinct_activeSet hinit hbus) text (0x40 * row + col) s hstep
    (by rw [hac]; exact htoNat 0 (Nat.zero_le _)) (by omega)
  have hstands : ∀ (j : Nat) (hj : j < text.length), Memory.read
      (State.performAll bus (printEvents text bus) s).receiver.ddram (BitVec.ofNat 7 (0x40 * row + col + j)) = some text[j] := by
    intro j hj
    rw [hread, dif_pos (by rw [htoNat j hj.le]; omega)]
    simp [htoNat j hj.le]
  refine ⟨_, _, exec_command_accepted hrole hw harg hs hinit hbus, run_of_not_init (by rw [hrole]; nofun) bus s,
    finish_seq _ _ _, ?_⟩
  rw [finish_receiver, hevents]
  refine ⟨fun j hj => ⟨hstands j hj, fun _ => ?shown⟩, fun a ha => ?other, ?counter⟩
  case shown =>
    rw [Receiver.shown, ddramAddr_eq_ofNat hrow, ← Nat.add_assoc]
    exact hstands j hj
  case other => rw [hread, dif_neg (by omega)]
  case counter => exact BitVec.eq_of_toNat_eq (by rw [hend, htoNat _ le_rfl])

end Sys2Proof.Machine
end

section
/-!
PROOFS, family 43_initializer.md: INIT's entry (rules R130 and R131), its event list as a trace (rule R141), a failed configure
call (rules R132 and R142), INIT's final write (rule R140), and what INIT makes of the receiver (rule R144).
-/

namespace Sys2Proof.Machine

/-! ### The final write (rule R140) -/

/-- Settles O49: a step that does not keep the driver state is the last step of an INIT (`step_keeps_or_commits`). -/
theorem onlyTheEndOfInitWritesTheDriverState : Obligations.OnlyTheEndOfInitWritesTheDriverState := by
  intro s t h hchanged
  obtain hkept | ⟨i, bus, hs, hrole, rfl⟩ := step_keeps_or_commits h
  · obtain hinit | hmode | hpins := hchanged
    · exact absurd hkept.initialized hinit
    · exact absurd hkept.mode hmode
    · exact absurd hkept.pins hpins
  · obtain ⟨pins, rfl⟩ := eq_init_of_role hrole
    exact ⟨pins, bus, hs, rfl, rfl, rfl, rfl, rfl, rfl⟩

/-! ### The entry checks (rule R131) -/

/-- INIT has no candidate where its argument is bad. -/
theorem initCandidate_eq_none_iff {cfg : Config} {pins : Option PinRecord} :
    initCandidate cfg pins = none ↔ pins = none ∨ ∃ p, pins = some p ∧ validate cfg p = none := by
  cases pins with
  | none => simp [initCandidate]
  | some p => cases h : validate cfg p <;> simp [initCandidate, h]

theorem initCandidate_of_validate {cfg : Config} {p : PinRecord} {m : BusWidthMode} (h : validate cfg p = some m) :
    initCandidate cfg (some p) = some ⟨m, p⟩ := by
  simp [initCandidate, h]

section Entry

variable {s : State} {pins : Option PinRecord} (hs : s.seq = .idle)
include hs

/-- What the entry checks raise is returned, and nothing else changes. -/
theorem exec_init_error {k : Status}
    (h : entryError s.cfg s.initialized (initCandidate s.cfg pins).isNone = some k) :
    exec (.init pins) s = .next { s with statuses := s.statuses ++ [k] } := by
  have hraise : s.raise k = { s with statuses := s.statuses ++ [k] } := by rw [State.raise, State.returnStatus, ← hs]
  simp only [exec, execInit, hs, h, hraise]

/-- Uninitialized, with a candidate, INIT is accepted with its event list. -/
theorem exec_init_accepted {bus : Bus} (hun : s.initialized = false) (hbus : initCandidate s.cfg pins = some bus) :
    exec (.init pins) s = .next (s.busyWith (.init pins) bus (initEvents bus)) := by
  simp only [exec, execInit, hs, hun, hbus, Option.isNone_some, entryError_good]

end Entry

/-- Settles O25: the three errors are `entryError`'s answers, and where it has none INIT has a candidate. -/
theorem initEntryErrors : Obligations.InitEntryErrors := by
  intro s pins hs bad ends
  have hgood : ¬bad → ∃ bus, initCandidate s.cfg pins = some bus := fun h =>
    Option.ne_none_iff_exists'.1 (mt initCandidate_eq_none_iff.1 h)
  have hbad : bad → (initCandidate s.cfg pins).isNone = true := fun h => by rw [initCandidate_eq_none_iff.2 h]; rfl
  refine ⟨fun hinit h => ?state, fun hun h => ?argument, fun hinit h hprec => ?stateFirst, fun hinit h hprec => ?argFirst,
    fun hun h => ?accepted⟩
  case state =>
    obtain ⟨bus, hbus⟩ := hgood h
    exact exec_init_error hs (by rw [hinit, hbus]; rfl)
  case argument => exact exec_init_error hs (by rw [hun, hbad h]; rfl)
  case stateFirst => exact exec_init_error hs (by rw [hinit, hbad h, entryError, hprec]; rfl)
  case argFirst => exact exec_init_error hs (by rw [hinit, hbad h, entryError, hprec]; rfl)
  case accepted =>
    obtain ⟨bus, hbus⟩ := hgood h
    exact ⟨_, _, _, _, exec_init_accepted hs hun hbus, rfl, rfl, rfl⟩

/-- INIT's whole list on eight lines, step after step (rules R132 to R140). -/
theorem initEvents_eight (p : PinRecord) : initEvents ⟨.eightBit, p⟩ = List.flatten
    [configureAllEvents ⟨.eightBit, p⟩, [.wait tPowerOn],
      send8 p false 0x30#8, [.wait tInitLong], send8 p false 0x30#8, [.wait tInitLong],
      send8 p false 0x30#8, [.wait tInitShort],
      send8 p false 0x38#8, [.wait tInitLong], send8 p false 0x38#8, [.wait tInitShort], send8 p false 0x38#8,
      send8 p false 0x0C#8, send8 p false 0x01#8, [.wait tClear], send8 p false 0x06#8, [.wait tSettle]] := by
  simp only [initEvents, initStep2Events, initStep3Events, initStep4Events, functionSetEvents, clearDisplayEvents,
    List.append_assoc, List.flatten_cons, List.flatten_nil, List.append_nil]
  rfl

/-- INIT's whole list on four lines, with the nibble 0x2 of rule R135. -/
theorem initEvents_four (p : PinRecord) : initEvents ⟨.fourBit, p⟩ = List.flatten
    [configureAllEvents ⟨.fourBit, p⟩, [.wait tPowerOn],
      sendNibble ⟨.fourBit, p⟩ 0x3#4, [.wait tInitLong], sendNibble ⟨.fourBit, p⟩ 0x3#4, [.wait tInitLong],
      sendNibble ⟨.fourBit, p⟩ 0x3#4, [.wait tInitShort], sendNibble ⟨.fourBit, p⟩ 0x2#4,
      send4 p false 0x28#8, [.wait tInitLong], send4 p false 0x28#8, [.wait tInitShort], send4 p false 0x28#8,
      send4 p false 0x0C#8, send4 p false 0x01#8, [.wait tClear], send4 p false 0x06#8, [.wait tSettle]] := by
  simp only [initEvents, initStep2Events, initStep3Events, initStep4Events, functionSetEvents, clearDisplayEvents,
    List.append_assoc, List.flatten_cons, List.flatten_nil, List.append_nil]
  rfl

/-- Settles O24: the accepted list is `initEvents`, written out by mode. -/
theorem initIsAcceptedWithItsSequence : Obligations.InitIsAcceptedWithItsSequence := by
  intro s p m hs hun hvalid b pins fs events
  have hevents : initEvents b = events := by
    simp only [events, List.append_assoc]
    cases m with
    | eightBit => simp only [List.nil_append]; exact initEvents_eight p
    | fourBit => exact initEvents_four p
  rw [← hevents]
  exact exec_init_accepted hs hun (initCandidate_of_validate hvalid)

/-! ### A failed configure call (rules R132 and R142) -/

section Configures

variable (bus : Bus) (ps : List PinId) (s : State)

/-- The configure calls use up their answers. -/
theorem answerAt_performAll_configures (j : Nat) :
    (State.performAll bus (ps.map .configure) s).answerAt j = s.answerAt (j + ps.length) := by
  induction ps generalizing s with
  | nil => rfl
  | cons p rest ih =>
    rw [List.map_cons, State.performAll_cons, ih, State.perform, State.answerAt_configureOk, List.length_cons, Nat.add_assoc]

theorem cfgAnswers_performAll_configures :
    (State.performAll bus (ps.map .configure) s).cfgAnswers = s.cfgAnswers.drop ps.length := by
  induction ps generalizing s with
  | nil => rfl
  | cons p rest ih =>
    rw [List.map_cons, State.performAll_cons, ih, State.perform, State.configureOk_cfgAnswers, ← List.drop_one,
      List.drop_drop, List.length_cons, Nat.add_comm]

/-- The configure calls drive no pin. -/
theorem latch_performAll_configures : (State.performAll bus (ps.map .configure) s).latch = s.latch := by
  induction ps generalizing s with
  | nil => rfl
  | cons p rest ih => rw [List.map_cons, State.performAll_cons, ih, State.perform, State.configureOk_latch]

theorem traceOf_configures : traceOf (ps.map .configure) = ps.map (fun q => Event.configure q .ok) := List.map_map

end Configures

theorem step_configure_fail {s : State} {i : Instr} {bus : Bus} {p : PinId} {more : List Action}
    (hs : s.seq = .busy i bus (.configure p :: more)) (hfail : s.nextAnswer = .fail) :
    step s = .next ((s.configureFail p).raise .hardwareConfigurationFailure) := by
  simp only [step_busy hs, State.advance, hfail]

/-- Configure calls answered Ok, then one answered Fail: the last one ends the request (rule R132). -/
theorem run_configures_fail (ps : List PinId) (p : PinId) (rest : List Action) {s : State} {i : Instr} {bus : Bus}
    (hs : s.seq = .busy i bus (ps.map .configure ++ .configure p :: rest)) (hok : AnswersOk ps.length s)
    (hfail : s.answerAt ps.length = .fail) :
    run (ps.length + 1) s = .next (((State.performAll bus (ps.map .configure) s).configureFail p).raise
      .hardwareConfigurationFailure) := by
  have hnext : (State.performAll bus (ps.map .configure) s).nextAnswer = .fail := by
    rw [← State.answerAt_zero, answerAt_performAll_configures, Nat.zero_add, hfail]
  rw [run_add _ 1 (run_configures ps _ hs hok), run_one]
  exact step_configure_fail rfl hnext

/-- INIT's list, cut at the `j`-th configure call. -/
theorem initEvents_split_at {bus : Bus} {j : Nat} (hj : j < (activeSet bus.mode bus.pins).length) :
    ∃ rest, initEvents bus = ((activeSet bus.mode bus.pins).take j).map Action.configure ++
      Action.configure (activeSet bus.mode bus.pins)[j] :: rest := by
  obtain ⟨later, hevents, -⟩ := initEvents_split bus
  refine ⟨((activeSet bus.mode bus.pins).drop (j + 1)).map .configure ++ later, ?_⟩
  rw [hevents, ← List.cons_append, ← List.map_cons, ← List.append_assoc, ← List.map_append, List.getElem_cons_drop,
    List.take_append_drop]

/-- Settles O27: INIT's list is as `run_configures_fail` asks (`initEvents_split_at`), and every field is what configure calls
leave. -/
theorem failedConfigureEndsInit : Obligations.FailedConfigureEndsInit := by
  intro s p m j t hexec hun hvalid hok hfail hj
  obtain ⟨hs, -⟩ := execInit_cases hexec
  rw [exec_init_accepted hs hun (initCandidate_of_validate hvalid)] at hexec
  cases hexec
  obtain ⟨rest, hevents⟩ := initEvents_split_at (bus := ⟨m, p⟩) hj
  set ps := (activeSet m p).take j
  have hlen : ps.length = j := List.length_take_of_le hj.le
  have hrun := run_configures_fail ps (activeSet m p)[j] rest
    (s := s.busyWith (.init (some p)) ⟨m, p⟩ (initEvents ⟨m, p⟩)) (by rw [hevents]; rfl) (by rw [hlen]; exact hok)
    (by rw [hlen]; exact hfail)
  rw [hlen, State.performAll_busyWith] at hrun
  refine ⟨_, hrun, rfl, ?statuses, ?trace, ?initialized, ?mode, ?pins, ?latch, ?receiver, ?answers, fun q => ?configured⟩
  case statuses => simp [performAll_statuses]
  case trace => simp [performAll_trace, traceOf_configures]
  case initialized => simp [performAll_initialized, hun]
  case mode => simp [performAll_mode]
  case pins => simp [performAll_pins]
  case latch => simp [latch_performAll_configures]
  case receiver => simp [receiver_performAll_of_no_set]
  case answers => simp [cfgAnswers_performAll_configures, hlen]
  case configured => simp [mem_configured_performAll, or_comm]

/-! ### INIT's trace (rule R141) -/

/-- The trace of these events has these latched transfers with their gaps, whatever the latches before; `gap` is how long they
wait before their first rise of E. -/
def LatchesFrom (bus : Bus) (as : List Action) (gap : Nat) (xs : List (Transfer × Nat)) : Prop :=
  gapAfter bus.pins.e (traceOf as) = gap ∧ ∀ latch, latchedTransfers bus latch (traceOf as) = xs

section Latches

variable {bus : Bus} {as : List Action} {gap : Nat} {xs : List (Transfer × Nat)}

/-- The wait at the end of a request. -/
theorem latchesFrom_wait (n : Nat) : LatchesFrom bus [.wait n] n [] := ⟨rfl, fun _ => rfl⟩

theorem LatchesFrom.wait (n : Nat) (h : LatchesFrom bus as gap xs) : LatchesFrom bus ([Action.wait n] ++ as) (n + gap) xs := by
  obtain ⟨hgap, hlatched⟩ := h
  refine ⟨?_, fun latch => ?_⟩
  · rw [traceOf_append, gapAfter_wait, hgap]
  · rw [traceOf_append, latchedTransfers_no_set bus _ (by simp), hlatched]

/-- CONFIGURE_ALL drives no line. -/
theorem LatchesFrom.configureAll (h : LatchesFrom bus as gap xs) : LatchesFrom bus (configureAllEvents bus ++ as) gap xs := by
  obtain ⟨hgap, hlatched⟩ := h
  refine ⟨?_, fun latch => ?_⟩
  · rw [← hgap, configureAllEvents]
    induction activeSet bus.mode bus.pins with
    | nil => rfl
    | cons p rest ih => exact ih
  · rw [traceOf_append, latchedTransfers_no_set bus _ (by simp [configureAllEvents]), hlatched]

/-- A transmission raises E before it waits, so it ends the gap before it; its last transfer takes on the gap after it. -/
theorem LatchesFrom.transmission {sent : List Action} {earlier : List (Transfer × Nat)} {last : Transfer}
    (hrise : ∀ rest, gapAfter bus.pins.e (traceOf sent ++ rest) = 0)
    (hsent : ∀ latch, ∃ after, ∀ rest, latchedTransfers bus latch (traceOf sent ++ rest) =
      earlier ++ (last, 40 + gapAfter bus.pins.e rest) :: latchedTransfers bus after rest)
    (h : LatchesFrom bus as gap xs) : LatchesFrom bus (sent ++ as) 0 (earlier ++ (last, 40 + gap) :: xs) := by
  obtain ⟨hgap, hlatched⟩ := h
  refine ⟨by rw [traceOf_append, hrise], fun latch => ?_⟩
  obtain ⟨after, hafter⟩ := hsent latch
  rw [traceOf_append, hafter, hlatched, hgap]

end Latches

section LatchesSend

variable {p : PinRecord} {as : List Action} {gap : Nat} {xs : List (Transfer × Nat)}

theorem LatchesFrom.send8 (hd : distinct (set8 p) = true) (rs : Level) (b : Byte)
    (h : LatchesFrom ⟨.eightBit, p⟩ as gap xs) :
    LatchesFrom ⟨.eightBit, p⟩ (send8 p rs b ++ as) 0 ((.t8 rs b, 40 + gap) :: xs) :=
  h.transmission (earlier := []) (gapAfter_send8 p rs b) (fun latch => latchedTransfers_send8 p hd latch rs b)

theorem LatchesFrom.send4 (hd : distinct (set4 p) = true) (rs : Level) (b : Byte)
    (h : LatchesFrom ⟨.fourBit, p⟩ as gap xs) :
    LatchesFrom ⟨.fourBit, p⟩ (send4 p rs b ++ as) 0
      ((.t4 rs (b.extractLsb' 4 4), 40) :: (.t4 rs (b.extractLsb' 0 4), 40 + gap) :: xs) :=
  h.transmission (earlier := [(.t4 rs (b.extractLsb' 4 4), 40)]) (gapAfter_send4 p rs b)
    (fun latch => latchedTransfers_send4 p hd latch rs b)

theorem LatchesFrom.nibble4 (hd : distinct (set4 p) = true) (n : Nibble) (h : LatchesFrom ⟨.fourBit, p⟩ as gap xs) :
    LatchesFrom ⟨.fourBit, p⟩ (sendNibble ⟨.fourBit, p⟩ n ++ as) 0 ((.t4 false n, 40 + gap) :: xs) :=
  h.transmission (earlier := []) (gapAfter_sendNibble p n) (fun latch => latchedTransfers_sendNibble4 p hd latch n)

end LatchesSend

/-- INIT's transfers on eight lines, put together from the last wait back to the configure calls. -/
theorem latchesFrom_init8 {p : PinRecord} (hd : distinct (set8 p) = true) :
    LatchesFrom ⟨.eightBit, p⟩ (initEvents ⟨.eightBit, p⟩) 20000
      [(.t8 false 0x30#8, 10040), (.t8 false 0x30#8, 10040), (.t8 false 0x30#8, 190), (.t8 false 0x38#8, 10040),
       (.t8 false 0x38#8, 190), (.t8 false 0x38#8, 40), (.t8 false 0x0C#8, 40), (.t8 false 0x01#8, 1640),
       (.t8 false 0x06#8, 10040)] := by
  have hentry := (latchesFrom_wait tSettle).send8 hd false 0x06#8
  have hclear := (hentry.wait tClear).send8 hd false 0x01#8
  have hdisplay := hclear.send8 hd false 0x0C#8
  have hset3 := hdisplay.send8 hd false 0x38#8
  have hset2 := (hset3.wait tInitShort).send8 hd false 0x38#8
  have hset1 := (hset2.wait tInitLong).send8 hd false 0x38#8
  have hwake3 := (hset1.wait tInitShort).send8 hd false 0x30#8
  have hwake2 := (hwake3.wait tInitLong).send8 hd false 0x30#8
  have hwake1 := (hwake2.wait tInitLong).send8 hd false 0x30#8
  rw [initEvents_eight]
  exact (hwake1.wait tPowerOn).configureAll

/-- INIT's transfers on four lines. -/
theorem latchesFrom_init4 {p : PinRecord} (hd : distinct (set4 p) = true) :
    LatchesFrom ⟨.fourBit, p⟩ (initEvents ⟨.fourBit, p⟩) 20000
      [(.t4 false 0x3#4, 10040), (.t4 false 0x3#4, 10040), (.t4 false 0x3#4, 190), (.t4 false 0x2#4, 40),
       (.t4 false 0x2#4, 40), (.t4 false 0x8#4, 10040), (.t4 false 0x2#4, 40), (.t4 false 0x8#4, 190),
       (.t4 false 0x2#4, 40), (.t4 false 0x8#4, 40), (.t4 false 0x0#4, 40), (.t4 false 0xC#4, 40),
       (.t4 false 0x0#4, 40), (.t4 false 0x1#4, 1640), (.t4 false 0x0#4, 40), (.t4 false 0x6#4, 10040)] := by
  have hentry := (latchesFrom_wait tSettle).send4 hd false 0x06#8
  have hclear := (hentry.wait tClear).send4 hd false 0x01#8
  have hdisplay := hclear.send4 hd false 0x0C#8
  have hset3 := hdisplay.send4 hd false 0x28#8
  have hset2 := (hset3.wait tInitShort).send4 hd false 0x28#8
  have hset1 := (hset2.wait tInitLong).send4 hd false 0x28#8
  have hwidth := hset1.nibble4 hd 0x2#4
  have hwake3 := (hwidth.wait tInitShort).nibble4 hd 0x3#4
  have hwake2 := (hwake3.wait tInitLong).nibble4 hd 0x3#4
  have hwake1 := (hwake2.wait tInitLong).nibble4 hd 0x3#4
  rw [initEvents_four]
  exact (hwake1.wait tPowerOn).configureAll

theorem event_eq_rise_iff {e : PinId} {a : Action} : a.event .ok = .set e true ↔ a = .set e true := by
  cases a <;> simp [Action.event]

/-- A trace raises a pin as often as its events do. -/
theorem count_rise_traceOf (e : PinId) (as : List Action) : (traceOf as).count (.set e true) = rises e as := by
  rw [rises, traceOf, List.count, List.count, List.countP_map]
  exact List.countP_congr fun a _ => by simp [event_eq_rise_iff]

theorem rises_nil (e : PinId) : rises e [] = 0 := rfl

theorem rises_wait (e : PinId) (n : Nat) : rises e [.wait n] = 0 := rises_of_not_set (by simp)

theorem rises_configureAll (e : PinId) (bus : Bus) : rises e (configureAllEvents bus) = 0 :=
  rises_of_not_set (by simp [configureAllEvents])

theorem rises_init8 {p : PinRecord} (hd : distinct (set8 p) = true) : rises p.e (initEvents ⟨.eightBit, p⟩) = 9 := by
  simp only [initEvents_eight, List.flatten_cons, List.flatten_nil, rises_append, rises_nil, rises_configureAll, rises_wait,
    rises_send8 hd]

theorem rises_init4 {p : PinRecord} (hd : distinct (set4 p) = true) : rises p.e (initEvents ⟨.fourBit, p⟩) = 16 := by
  simp only [initEvents_four, List.flatten_cons, List.flatten_nil, rises_append, rises_nil, rises_configureAll, rises_wait,
    rises_send4 hd, rises_sendNibble4 hd]

theorem counts_init8 (p : PinRecord) : counts (traceOf (initEvents ⟨.eightBit, p⟩)) = (10, 99, 26, 62269) := by
  simp only [initEvents_eight, List.flatten_cons, List.flatten_nil, traceOf_append, counts_append, counts_nil,
    counts_configureAll8, counts_wait, counts_send8]
  rfl

theorem counts_init4 (p : PinRecord) : counts (traceOf (initEvents ⟨.fourBit, p⟩)) = (6, 106, 40, 62556) := by
  simp only [initEvents_four, List.flatten_cons, List.flatten_nil, traceOf_append, counts_append, counts_nil,
    counts_configureAll4, counts_wait, counts_send4, counts_sendNibble]
  rfl

/-- INIT's trace begins with the configure calls and the power-on wait (rules R132 and R133). -/
theorem take_traceOf_init (bus : Bus) {n : Nat} (hn : (activeSet bus.mode bus.pins).length + 1 = n) :
    (traceOf (initEvents bus)).take n =
      (activeSet bus.mode bus.pins).map (fun q => Event.configure q .ok) ++ [Event.wait 20000] := by
  simp only [initEvents, configureAllEvents, List.append_assoc]
  rw [← List.append_assoc, traceOf_append, traceOf_append, traceOf_configures]
  exact List.take_left' (by simpa [traceOf] using hn)

/-- Settles O26: the counts do not depend on the pins, and the pulses and transfers are those of the transmissions that INIT is
made of. -/
theorem initTraceSummary : Obligations.InitTraceSummary := by
  intro p latch
  refine ⟨fun hd => ⟨counts_init8 p, ?pulses8, take_traceOf_init ⟨.eightBit, p⟩ rfl, ?latched8⟩,
    fun hd => ⟨counts_init4 p, ?pulses4, take_traceOf_init ⟨.fourBit, p⟩ rfl, ?latched4⟩⟩
  case pulses8 => exact (count_rise_traceOf _ _).trans (rises_init8 hd)
  case latched8 => exact (latchesFrom_init8 hd).2 latch
  case pulses4 => exact (count_rise_traceOf _ _).trans (rises_init4 hd)
  case latched4 => exact (latchesFrom_init4 hd).2 latch

/-! ### The receiver across INIT (rule R144, under the observer model of log entry 10) -/

/-- The receiver takes whole words from the block: its width and phase fit the mode, and it is free. -/
def Listens (m : BusWidthMode) (s : State) : Prop :=
  s.receiver.ifw = widthOf m ∧ (m = .fourBit → s.receiver.phase = .high) ∧ s.receiver.busyUntil ≤ s.now

/-- Performed from a state whose receiver listens and meets `P`, these events leave it listening and meeting `Q`. -/
def LeadsTo (bus : Bus) (P : Receiver → Prop) (as : List Action) (Q : Receiver → Prop) : Prop :=
  ∀ s, Listens bus.mode s → P s.receiver →
    Listens bus.mode (State.performAll bus as s) ∧ Q (State.performAll bus as s).receiver

theorem LeadsTo.append {bus : Bus} {P Q R : Receiver → Prop} {as bs : List Action} (ha : LeadsTo bus P as Q)
    (hb : LeadsTo bus Q bs R) : LeadsTo bus P (as ++ bs) R := by
  intro s hs hP
  obtain ⟨hmid, hQ⟩ := ha s hs hP
  rw [State.performAll_append]
  exact hb _ hmid hQ

theorem leadsTo_wait (bus : Bus) (P : Receiver → Prop) (n : Nat) : LeadsTo bus P [.wait n] P := by
  intro s ⟨hwidth, hphase, hfree⟩ hP
  obtain ⟨hreceiver, hnow, -⟩ := wait_delivers bus n s
  rw [Listens, hreceiver]
  exact ⟨⟨hwidth, hphase, by omega⟩, hP⟩

/-- A receiver of the mode's width obeys the command word `b` as `effect` says, and keeps that width and a fresh pair. -/
def ObeysAs (m : BusWidthMode) (b : Byte) (effect : Receiver → Receiver) : Prop :=
  ∀ r, r.ifw = widthOf m → (∀ k, wordEffect k false b r = some (effect r)) ∧ (effect r).ifw = widthOf m ∧
    (r.phase = .high → (effect r).phase = .high)

theorem obeysAs_functionSet8 : ObeysAs .eightBit 0x38#8 (functionSet 0x38#8) := fun r _ =>
  ⟨fun k => wordEffect_functionSet k r (by decide) (by decide), rfl, by simp [functionSet]⟩

theorem obeysAs_functionSet4 : ObeysAs .fourBit 0x28#8 (functionSet 0x28#8) := fun r _ =>
  ⟨fun k => wordEffect_functionSet k r (by decide) (by decide), rfl, by simp +contextual [functionSet]⟩

theorem obeysAs_displayControl (m : BusWidthMode) :
    ObeysAs m 0x0C#8 (fun r => { r with disp := true, cursor := false, blink := false }) :=
  fun r hw => ⟨fun k => wordEffect_displayControl k r, hw, id⟩

theorem obeysAs_clearDisplay (m : BusWidthMode) :
    ObeysAs m 0x01#8 (fun r => { r with ddram := Memory.cleared, ac := 0x00#7, inc := true }) :=
  fun r hw => ⟨fun k => wordEffect_clear k r, hw, id⟩

theorem obeysAs_entryMode (m : BusWidthMode) : ObeysAs m 0x06#8 (fun r => { r with inc := true, shift := false }) :=
  fun r hw => ⟨fun k => wordEffect_entryMode k r, hw, id⟩

section Words

variable {bus : Bus} (hd : distinct (activeSet bus.mode bus.pins) = true) {P Q : Receiver → Prop} {b : Byte}
  {effect : Receiver → Receiver} (hb : ObeysAs bus.mode b effect)
  (hQ : ∀ r h t, P r → Q { effect r with held := h, busyUntil := t })
include hd hb hQ

/-- The word is obeyed, and after it the receiver stays busy for no more than its execution time beyond the pulse's own wait
(rules R90 and R110). -/
theorem command_obeyed {s : State} (hs : Listens bus.mode s) (hP : P s.receiver) :
    let u := State.performAll bus (sendCmd bus b) s
    u.receiver.ifw = widthOf bus.mode ∧ (bus.mode = .fourBit → u.receiver.phase = .high) ∧
      u.receiver.busyUntil + 40 ≤ u.now + execTime false b ∧ Q u.receiver := by
  obtain ⟨hw, hp, hfree⟩ := hs
  obtain ⟨heffect, hwidth, hphase⟩ := hb s.receiver hw
  obtain ⟨k, t, h, -, hafter, hreceiver⟩ := send_taken bus hd false b s heffect hw hp (by omega)
  intro u
  have hreceiver : u.receiver = _ := hreceiver
  have hafter : t + 40 ≤ u.now := hafter
  rw [hreceiver]
  exact ⟨hwidth, fun hm => hphase (hp hm), by simp only; omega, hQ _ _ _ hP⟩

/-- A command word that needs no further wait. -/
theorem leadsTo_command (htime : execTime false b ≤ 40) : LeadsTo bus P (sendCmd bus b) Q := by
  intro s hs hP
  obtain ⟨hwidth, hphase, hbusy, hdone⟩ := command_obeyed hd hb hQ hs hP
  exact ⟨⟨hwidth, hphase, by omega⟩, hdone⟩

/-- A command word with a wait for the rest of its execution time. -/
theorem leadsTo_command_wait (n : Nat) (htime : execTime false b ≤ 40 + n) :
    LeadsTo bus P (sendCmd bus b ++ [Action.wait n]) Q := by
  intro s hs hP
  obtain ⟨hwidth, hphase, hbusy, hdone⟩ := command_obeyed hd hb hQ hs hP
  obtain ⟨hsame, hnow, -⟩ := wait_delivers bus n (State.performAll bus (sendCmd bus b) s)
  rw [State.performAll_append, Listens, hsame]
  exact ⟨⟨hwidth, hphase, by omega⟩, hdone⟩

end Words

/-! The receiver's settings after each word of INIT's steps 4 to 7. -/

/-- After a function set with N = 1 and F = 0 (rule R136). -/
def TwoLines (r : Receiver) : Prop := r.lines = .two ∧ r.font = .dots5x8

/-- After display control too (rule R137). -/
def DisplayOn (r : Receiver) : Prop := TwoLines r ∧ r.disp = true ∧ r.cursor = false ∧ r.blink = false

/-- After clear-display too (rule R138). -/
def DisplayCleared (r : Receiver) : Prop := DisplayOn r ∧ r.ac = 0#7 ∧ r.ddram = Memory.cleared

/-- After entry mode too (rule R139): the settings of rule R144. -/
def InitSettings (r : Receiver) : Prop := DisplayCleared r ∧ r.inc = true ∧ r.shift = false

/-- INIT from step 4 on. -/
def initLaterEvents (bus : Bus) : List Action :=
  initStep4Events bus ++ displayControlEvents bus ++ clearDisplayEvents bus ++ entryModeEvents bus ++ [Action.wait tSettle]

section Init

variable {bus : Bus} (hd : distinct (activeSet bus.mode bus.pins) = true)
include hd

/-- The function set of the mode keeps its width (rule R136). -/
theorem leadsTo_functionSet (P : Receiver → Prop) : LeadsTo bus P (functionSetEvents bus) TwoLines := by
  obtain ⟨m, p⟩ := bus
  cases m with
  | eightBit => exact leadsTo_command (bus := ⟨.eightBit, p⟩) hd obeysAs_functionSet8 (fun _ _ _ _ => ⟨rfl, rfl⟩) le_rfl
  | fourBit => exact leadsTo_command (bus := ⟨.fourBit, p⟩) hd obeysAs_functionSet4 (fun _ _ _ _ => ⟨rfl, rfl⟩) le_rfl

theorem leadsTo_initStep4 : LeadsTo bus (fun _ => True) (initStep4Events bus) TwoLines :=
  ((((leadsTo_functionSet hd _).append (leadsTo_wait bus _ _)).append (leadsTo_functionSet hd _)).append
    (leadsTo_wait bus _ _)).append (leadsTo_functionSet hd _)

theorem leadsTo_initLater : LeadsTo bus (fun _ => True) (initLaterEvents bus) InitSettings := by
  have hdisplay : LeadsTo bus TwoLines (displayControlEvents bus) DisplayOn :=
    leadsTo_command hd (obeysAs_displayControl _) (fun _ _ _ h => ⟨h, rfl, rfl, rfl⟩) le_rfl
  have hclear : LeadsTo bus DisplayOn (clearDisplayEvents bus) DisplayCleared :=
    leadsTo_command_wait hd (obeysAs_clearDisplay _) (fun _ _ _ h => ⟨h, rfl, rfl⟩) tClear (by decide)
  have hentry : LeadsTo bus DisplayCleared (entryModeEvents bus) InitSettings :=
    leadsTo_command hd (obeysAs_entryMode _) (fun _ _ _ h => ⟨h, rfl, rfl⟩) le_rfl
  exact ((((leadsTo_initStep4 hd).append hdisplay).append hclear).append hentry).append (leadsTo_wait bus _ _)

theorem delivers_nibble_wait (n : Nibble) (us : Nat) (s : State) :
    Delivers s [transferOfNibble bus.mode n] (State.performAll bus (sendNibble bus n ++ [Action.wait us]) s) := by
  obtain ⟨hdelivers, -⟩ := handsOver_sendNibble hd n s
  rw [State.performAll_append]
  exact hdelivers.wait bus us

/-- Step 2 hands over the three nibbles 0x3, and so wakes any free receiver (rule R134). -/
theorem eight_after_initStep2 {s : State} (hfree : s.receiver.busyUntil ≤ s.now) :
    let u := State.performAll bus (initStep2Events bus) s
    u.receiver.ifw = .eight ∧ u.receiver.busyUntil ≤ u.now := by
  have hwake := delivers_nibble_wait hd 0x3#4
  have hthree := ((hwake tInitLong s).append (hwake tInitLong _)).append (hwake tInitShort _)
  simp only [← State.performAll_append, List.cons_append, List.nil_append] at hthree
  have hevents : initStep2Events bus = sendNibble bus 0x3#4 ++ [Action.wait tInitLong] ++
      (sendNibble bus 0x3#4 ++ [Action.wait tInitLong]) ++ (sendNibble bus 0x3#4 ++ [Action.wait tInitShort]) := by
    simp only [initStep2Events, nibFset8Events, List.append_assoc]
  rw [hevents]
  exact three_wakes (by cases bus.mode <;> simp [transferOfNibble]) (by omega) hthree

/-- After step 3 the receiver has the mode's width, with a fresh pair in four-bit width (rule R135). -/
theorem listens_after_initStep3 {s : State} (hwidth : s.receiver.ifw = .eight) (hfree : s.receiver.busyUntil ≤ s.now) :
    Listens bus.mode (State.performAll bus (initStep3Events bus) s) := by
  obtain ⟨m, p⟩ := bus
  cases m with
  | eightBit => exact ⟨hwidth, nofun, hfree⟩
  | fourBit =>
    obtain ⟨⟨k, t, u, hbefore, hafter, hreceiver, hsame, hnow⟩, -⟩ :=
      handsOver_sendNibble (bus := ⟨.fourBit, p⟩) hd 0x2#4 s
    obtain ⟨l, f, htaken⟩ := recv_eight_nibble (k := k) (t := t) hwidth (by omega) (n := 0x2#4) (.inl rfl)
    show Listens .fourBit (State.performAll ⟨.fourBit, p⟩ (sendNibble ⟨.fourBit, p⟩ 0x2#4) s)
    rw [Listens, hsame, hreceiver.trans htaken]
    exact ⟨rfl, fun _ => rfl, hafter.trans hnow⟩

/-- INIT from a receiver that is free once the power-on wait is over. -/
theorem performAll_init {s : State} (hfree : s.receiver.busyUntil ≤ s.now + tPowerOn) :
    Listens bus.mode (State.performAll bus (initEvents bus) s) ∧
    InitSettings (State.performAll bus (initEvents bus) s).receiver := by
  have hevents : initEvents bus = configureAllEvents bus ++ ([Action.wait tPowerOn] ++ (initStep2Events bus ++
      (initStep3Events bus ++ initLaterEvents bus))) := by
    simp only [initEvents, initLaterEvents, List.append_assoc]
  have hconfigured := receiver_performAll_of_no_set bus (configureAllEvents bus) s (by simp [configureAllEvents])
  have hcalls := now_performAll bus (configureAllEvents bus) s
  obtain ⟨hpowered, hwaited, -⟩ := wait_delivers bus tPowerOn (State.performAll bus (configureAllEvents bus) s)
  obtain ⟨height, hawake⟩ := eight_after_initStep2 hd
    (s := State.performAll bus [.wait tPowerOn] (State.performAll bus (configureAllEvents bus) s))
    (by rw [hpowered, hconfigured]; omega)
  rw [hevents]
  simp only [State.performAll_append _ (configureAllEvents bus), State.performAll_append _ [.wait tPowerOn],
    State.performAll_append _ (initStep2Events bus), State.performAll_append _ (initStep3Events bus)]
  exact leadsTo_initLater hd _ (listens_after_initStep3 hd height hawake) trivial

end Init

/-- INIT's configure calls are those of the active set (rule R132). -/
theorem configureCalls_initEvents (bus : Bus) : configureCalls (initEvents bus) = (activeSet bus.mode bus.pins).length := by
  obtain ⟨later, hevents, hquiet⟩ := initEvents_split bus
  rw [hevents, configureCalls_append, configureCalls_configure, configureCalls_eq_zero hquiet, Nat.add_zero]

/-- Settles O28: INIT runs to its end (`run_accepted`); once the power-on wait is over step 2 wakes the receiver, step 3 gives it
the mode's width, and each later word is obeyed (`performAll_init`). -/
theorem initBringsTheReceiverToAKnownState : Obligations.InitBringsTheReceiverToAKnownState := by
  intro s p m hs hun hvalid hanswers hfree
  have hexec := exec_init_accepted hs hun (initCandidate_of_validate hvalid)
  obtain ⟨-, -, hrun⟩ := run_accepted hs hexec rfl (by rw [configureCalls_initEvents]; exact hanswers)
  obtain ⟨⟨hwidth, hphase, hbusy⟩, ⟨⟨⟨hlines, hfont⟩, hdisp, hcursor, hblink⟩, hac, hddram⟩, hinc, hshift⟩ :=
    performAll_init (bus := ⟨m, p⟩) (distinct_of_validate hvalid) hfree
  have hstep : InStep m (State.performAll ⟨m, p⟩ (initEvents ⟨m, p⟩) s) := ⟨hwidth, hphase, hbusy, hinc, hshift⟩
  obtain ⟨hinit, -, -⟩ := finish_initializer (i := .init (some p)) ⟨m, p⟩
    (State.performAll ⟨m, p⟩ (initEvents ⟨m, p⟩) s) rfl
  refine ⟨_, _, hexec, hrun, finish_seq .., hinit, hstep.of_eq (finish_receiver ..) (finish_now ..), ?_⟩
  rw [finish_receiver, hddram]
  exact ⟨hac, hlines, hfont, hdisp, hcursor, hblink, Memory.read_cleared⟩

end Sys2Proof.Machine
end

section
/-!
PROOFS, family 44_command_layer.md: the commands' entry check (rule R150), the events of each accepted command and their time
(rules R151 to R157 and R170), the arithmetic of the bar (rule R160), the two formatters (rules R165 and R167), and the cursor and
the display data after a command (under the observer model).
-/

namespace Sys2Proof.Machine

/-! ### The entry check (rule R150) -/

theorem rowOk_iff (row : Int) : rowOk row = true ↔ row = 0 ∨ row = 1 := by simp [rowOk]

theorem colOk_iff (col : Int) : colOk col = true ↔ 0 ≤ col ∧ col < 16 := by
  rw [colOk, Bool.and_eq_true, decide_eq_true_eq, decide_eq_true_eq, cols, Nat.cast_ofNat]

theorem progressOk_iff (progress : Int) : progressOk progress = true ↔ 0 ≤ progress ∧ progress ≤ 100 := by
  simp [progressOk]

theorem precisionOk_iff (cfg : Config) (prec : Int) : precisionOk cfg prec = true ↔ 0 ≤ prec ∧ prec ≤ cfg.precMax := by
  simp [precisionOk]

/-- In `Idle` an error adds its status and changes nothing else (60_exceptions.md rule R186). -/
theorem State.raise_of_idle {s : State} (hs : s.seq = .idle) (k : Status) :
    s.raise k = { s with statuses := s.statuses ++ [k] } := by
  rw [State.raise, State.returnStatus, ← hs]

/-- What the entry check raises is returned. -/
theorem exec_command_error {i : Instr} {s : State} {k : Status} (hrole : Instr.role i = .command)
    (hw : i.wellFormed s.cfg = true) (hs : s.seq = .idle)
    (h : entryError s.cfg (!s.initialized) (!argOk s.cfg i) = some k) :
    exec i s = .next { s with statuses := s.statuses ++ [k] } := by
  simp only [exec_command hrole hw, commandRequest, hs, h, State.raise_of_idle hs]

/-- Settles O29: the four errors are `entryError`'s answers (`exec_command_error`), and `argOk` is the rule's bounds. -/
theorem commandEntryErrors : Obligations.CommandEntryErrors := by
  intro s i hrole hw hs ends
  have herror := fun k => exec_command_error (k := k) hrole hw hs
  refine ⟨fun hun harg => ?state, fun hinit harg => ?argument, fun hun harg hprec => ?stateFirst,
    fun hun harg hprec => ?argFirst, rfl, fun _ => rfl, fun t => ?chars, fun row col => ?cursor,
    fun _ prec => precisionOk_iff s.cfg prec, fun row prog => ?bar, rowOk_iff⟩
  case state => exact herror _ (by rw [hun, harg]; rfl)
  case argument => exact herror _ (by rw [hinit, harg]; rfl)
  case stateFirst => exact herror _ (by rw [hun, harg, entryError, hprec]; rfl)
  case argFirst => exact herror _ (by rw [hun, harg, entryError, hprec]; rfl)
  case chars => exact Option.isSome_iff_ne_none
  case cursor => rw [argOk, Bool.and_eq_true, rowOk_iff, colOk_iff]
  case bar => rw [argOk, Bool.and_eq_true, rowOk_iff, progressOk_iff]

/-! ### What each command sends (rules R43, R44 and R151 to R157) -/

theorem State.bus_of_fields {s : State} {m : BusWidthMode} {p : PinRecord} (hm : s.mode = some m) (hp : s.pins = some p) :
    s.bus = some ⟨m, p⟩ := by rw [State.bus, hm, hp]

theorem rowOk_of_le_one {row : Nat} (hrow : row ≤ 1) : rowOk row = true := by rw [rowOk_iff]; omega

theorem argOk_setCursor (cfg : Config) {row col : Nat} (hrow : row ≤ 1) (hcol : col < 16) :
    argOk cfg (.setCursor row col) = true :=
  Bool.and_eq_true_iff.2 ⟨rowOk_of_le_one hrow, (colOk_iff col).2 (by omega)⟩

theorem argOk_progressBar (cfg : Config) {row g : Nat} (hrow : row ≤ 1) (hg : g ≤ 100) :
    argOk cfg (.progressBar row g) = true :=
  Bool.and_eq_true_iff.2 ⟨rowOk_of_le_one hrow, (progressOk_iff g).2 (by omega)⟩

theorem argOk_clearRow (cfg : Config) {row : Nat} (hrow : row ≤ 1) : argOk cfg (.clearRow row) = true :=
  rowOk_of_le_one hrow

/-- A cursor position is set by one command word, its address above 0x80 (rules R44 and R152). -/
theorem setCursorEvents_eq {row col : Nat} (hrow : row ≤ 1) (hcol : col < 16) (bus : Bus) :
    setCursorEvents row col bus = send bus false (BitVec.ofNat 8 (0x80 + (0x40 * row + col))) := by
  have haddr : (BitVec.ofNat 7 (0x40 * row + col)).toNat = 0x40 * row + col := Nat.mod_eq_of_lt (by omega)
  rw [setCursorEvents, setDdramAddrEvents, ddramAddr_eq_ofNat hrow, ← address_ofNat, haddr]
  rfl

/-- Settles O30: both commands are accepted (`exec_command_accepted`), and a position's events are its address word. -/
theorem clearAndSetCursorAreAccepted : Obligations.ClearAndSetCursorAreAccepted := by
  intro s m p hs hinit hm hp
  have hbus := State.bus_of_fields hm hp
  have hcursor : ∀ row col : Nat, row ≤ 1 → col < 16 → exec (.setCursor row col) s =
      .next (s.busyWith (.setCursor row col) ⟨m, p⟩ (send ⟨m, p⟩ false (BitVec.ofNat 8 (0x80 + (0x40 * row + col))))) := by
    intro row col hrow hcol
    rw [exec_command_accepted rfl rfl (argOk_setCursor s.cfg hrow hcol) hs hinit hbus, eventsOf, setCursorEvents_eq hrow hcol]
  refine ⟨exec_command_accepted rfl rfl rfl hs hinit hbus, fun c hc => ?row0, fun c hc => ?row1⟩
  case row0 =>
    have hexec := hcursor 0 c (by omega) hc
    rw [Nat.mul_zero, Nat.zero_add] at hexec
    exact hexec
  case row1 =>
    have hexec := hcursor 1 c le_rfl hc
    rw [Nat.mul_one, ← Nat.add_assoc] at hexec
    exact hexec

/-- A request that prints a text is accepted with its data words. -/
theorem Prints.exec_accepted {s : State} {i : Instr} {text : List Byte} {bus : Bus} (h : Prints s.cfg i text)
    (hs : s.seq = .idle) (hinit : s.initialized = true) (hbus : s.bus = some bus) :
    exec i s = .next (s.busyWith i bus (printEvents text bus)) := by
  obtain ⟨hrole, hw, harg, hevents⟩ := h
  rw [exec_command_accepted hrole hw harg hs hinit hbus, hevents]

/-- Settles O31: each of the three requests prints its text (`Prints`), which is sent byte by byte. -/
theorem printRequestsAreAccepted : Obligations.PrintRequestsAreAccepted := by
  intro s m p hs hinit hm hp
  have hbus := State.bus_of_fields hm hp
  exact ⟨fun text hnul => (prints_printChars hnul).exec_accepted hs hinit hbus,
    fun v hlow hhigh => (prints_printInt hlow hhigh).exec_accepted hs hinit hbus,
    fun v prec hv hprec => (prints_printFloat hv hprec).exec_accepted hs hinit hbus⟩

/-! ### The bar (rules R156 and R160) -/

theorem filledOf_eq (g : Nat) : filledOf g = g * 16 / 100 := by
  rw [filledOf]; omega

theorem filledOf_le {g : Nat} (hg : g ≤ 100) : filledOf g ≤ 16 := by
  rw [filledOf_eq]; omega

theorem length_barText {g : Nat} (hg : g ≤ 100) : (barText g).length = 16 := by
  have := filledOf_le hg
  rw [barText, List.length_append, List.length_replicate, List.length_replicate]
  omega

/-- Glyph by glyph, filled ones first (rule R156). -/
theorem getElem?_barText {g c : Nat} (hc : c < 16) :
    (barText g)[c]? = some (if c < g * 16 / 100 then 0xFF#8 else 0x20#8) := by
  rw [barText, filledOf_eq, List.getElem?_append]
  simp only [List.length_replicate, List.getElem?_replicate]
  split
  · rfl
  · exact if_pos (by omega)

/-- Settles O37: the floor is linear arithmetic, and a bar is two runs of one glyph each. -/
theorem filledGlyphCount : Obligations.FilledGlyphCount := by
  refine ⟨fun g hg => ⟨filledOf_eq g, by omega, filledOf_le hg, ?full⟩, fun g h hgh _ => ?rises, by decide,
    fun g hg => ⟨length_barText hg, ?blocks, ?spaces⟩⟩
  case full => rw [filledOf_eq]; omega
  case rises => rw [filledOf_eq, filledOf_eq]; omega
  case blocks => simp [barText, List.count_replicate]
  case spaces => simp [barText, List.count_replicate]

/-- Settles O32: column 0 is set by the row's address word (`setCursorEvents_eq`), and the bar has `g * 16 / 100` blocks. -/
theorem barAndClearRowAreAccepted : Obligations.BarAndClearRowAreAccepted := by
  intro s m p row hs hinit hm hp hrow home print blank
  have hbus := State.bus_of_fields hm hp
  have hhome : setCursorEvents row 0 ⟨m, p⟩ = home := setCursorEvents_eq hrow (col := 0) (by omega) ⟨m, p⟩
  refine ⟨fun g hg => ?bar, ?clear⟩
  case bar =>
    rw [exec_command_accepted rfl rfl (argOk_progressBar s.cfg hrow hg) hs hinit hbus, eventsOf, progressBarEvents, hhome,
      barText, filledOf_eq]
    rfl
  case clear =>
    rw [exec_command_accepted rfl rfl (argOk_clearRow s.cfg hrow) hs hinit hbus, eventsOf, clearRowEvents, hhome]
    rfl

/-! ### Minimum times (rules R170 and R220) -/

/-- Settles O40: each request is its bus words (`waitTotal_send`, `waitTotal_print`), and CLEAR's wait besides. -/
theorem requestTimes : Obligations.RequestTimes := by
  intro cfg p m w time
  have hword : ∀ rs b, waitTotal (traceOf (send ⟨m, p⟩ rs b)) = w := waitTotal_send m p
  have hcursor : ∀ row col, waitTotal (traceOf (setCursorEvents row col ⟨m, p⟩)) = w := fun _ _ => hword ..
  have hprint : ∀ text, waitTotal (traceOf (printEvents text ⟨m, p⟩)) = w * text.length := waitTotal_print m p
  refine ⟨?clear, hcursor, hprint, fun _ => hprint _, fun _ _ => hprint _, fun row g hg => ?bar, fun row => ?clearRow⟩
  case clear =>
    show waitTotal (traceOf (send ⟨m, p⟩ false 0x01#8 ++ [.wait tClear])) = w + 1600
    rw [traceOf_append, waitTotal_append, hword]
    rfl
  case bar =>
    show waitTotal (traceOf (setCursorEvents row 0 ⟨m, p⟩ ++ printEvents (barText g) ⟨m, p⟩)) = w * 17
    rw [traceOf_append, waitTotal_append, hcursor, hprint, length_barText hg]
    omega
  case clearRow =>
    show waitTotal (traceOf (setCursorEvents row 0 ⟨m, p⟩ ++ printEvents (List.replicate 16 0x20#8) ⟨m, p⟩ ++
      setCursorEvents row 0 ⟨m, p⟩)) = w * 18
    simp only [traceOf_append, waitTotal_append, hcursor, hprint, List.length_replicate]
    omega

/-! ### The decimal formatter (rule R165) -/

theorem digits_zero : digits 0 = [0x30#8] := rfl

theorem digits_range {u : Nat} {b : Byte} (hb : b ∈ digits u) : 0x30 ≤ b.toNat ∧ b.toNat ≤ 0x39 :=
  digitsOnto_range _ u [] (by simp) b hb

/-- Settles O38: `digitsOnto_spec` with the fuel `digits` gives, which is enough (`lt_ten_pow_log2`). -/
theorem decimalFormatter : Obligations.DecimalFormatter := by
  refine ⟨fun u => ?digits, digits_zero, fun v => ?sign⟩
  case digits =>
    obtain ⟨hrange, hne, hread, -, hhead⟩ := digitsOnto_spec _ u [] (lt_ten_pow_log2 u) (by simp) (Nat.succ_pos _)
    exact ⟨hne, hrange, by simpa [digits] using hread 0, hhead⟩
  case sign => rw [formatDec]; split <;> rfl

/-! ### The fixed-point formatter (rule R167) -/

theorem lastDigits_range {p n : Nat} {b : Byte} (hb : b ∈ lastDigits p n) : 0x30 ≤ b.toNat ∧ b.toNat ≤ 0x39 := by
  rw [lastDigits_eq] at hb
  obtain ⟨k, -, rfl⟩ := List.mem_map.1 hb
  exact digitByte_range _ (Nat.mod_lt _ (by decide))

theorem length_lastDigits (p n : Nat) : (lastDigits p n).length = p := by
  simp [lastDigits_eq]

/-- Law 1's shape: one '.', and exactly `p` digits after it. -/
def HasPointDigits (p : Nat) (text : List Byte) : Prop :=
  ∃ whole frac, text = whole ++ 0x2E#8 :: frac ∧ 0x2E#8 ∉ whole ∧ frac.length = p ∧
    ∀ b ∈ frac, 0x30 ≤ b.toNat ∧ b.toNat ≤ 0x39

/-- The text of laws 3 and 4, with its sign, has the shape. -/
theorem hasPointDigits_fixedText {p : Nat} (hp : 1 ≤ p) (neg : Bool) (n : Nat) :
    HasPointDigits p ((if neg then [0x2D#8] else []) ++ fixedText n p) := by
  have hdigits : 0x2E#8 ∉ digits (n / 10 ^ p) := fun hmem => absurd (digits_range hmem) (by decide)
  refine ⟨(if neg then [0x2D#8] else []) ++ digits (n / 10 ^ p), lastDigits p n, ?_, ?_, length_lastDigits p n,
    fun b => lastDigits_range⟩
  · simp [fixedText, Nat.ne_of_gt hp]
  · cases neg <;> simp [hdigits]

/-- What is free of a finite value's text keeps law 1. -/
theorem hasPointDigits_freeFiniteText {p : Nat} (hp : 1 ≤ p) (v : FloatVal) : HasPointDigits p (freeFiniteText v p) := by
  refine ⟨(Config.formatFreeText v p).filter (· ≠ 0x2E#8),
    (List.range p).map (fun k => digitByte (Config.formatFreeDigit v p k % 10)), ?_, ?_, by simp, fun b hb => ?_⟩
  · rw [freeFiniteText, if_neg (by omega), List.append_assoc, List.singleton_append]
  · simp
  · obtain ⟨k, -, rfl⟩ := List.mem_map.1 hb
    exact digitByte_range _ (Nat.mod_lt _ (by decide))

theorem hasPointDigits_three_fourteen : HasPointDigits 2 [0x33#8, 0x2E#8, 0x31#8, 0x34#8] :=
  ⟨[0x33#8], [0x31#8, 0x34#8], rfl, by decide, rfl, by decide⟩

section Finite

variable {fmt : FloatFmt} {neg : Bool} {m : Nat} {e : Int} {p : Nat}

/-- Laws 3 and 4: the format has `|v| * 10^p`, and `v` is not -0. -/
theorem formatFixed_of_exactScaled {n : Nat} (hn : exactScaled fmt m e p = some n) (hzero : ¬(neg = true ∧ m = 0)) :
    formatFixed fmt (.finite neg m e) p = (if neg then [0x2D#8] else []) ++ fixedText n p := by
  simp only [formatFixed, hn, if_neg hzero]

/-- Whichever law gives the text, it has law 1's shape. -/
theorem hasPointDigits_formatFixed (hp : 1 ≤ p) : HasPointDigits p (formatFixed fmt (.finite neg m e) p) := by
  cases hn : exactScaled fmt m e p with
  | some n =>
    simp only [formatFixed, hn]
    split
    · exact hasPointDigits_freeFiniteText hp _
    · exact hasPointDigits_fixedText hp neg n
  | none =>
    simp only [formatFixed, hn]
    split
    next h => obtain ⟨-, rfl, -⟩ := h; exact hasPointDigits_three_fourteen
    next => exact hasPointDigits_freeFiniteText hp _

end Finite

/-- A dyadic fraction whose hundredfold is an integer is a number of quarters. -/
theorem twentyfive_dvd_of_scaled {m k n : Nat} (h : m * 100 = n * 2 ^ k) : 25 ∣ n := by
  have hcoprime : Nat.Coprime 25 (2 ^ k) := Nat.Coprime.pow_right k (by decide)
  exact hcoprime.dvd_of_dvd_mul_right (h ▸ (Nat.dvd_mul_left_of_dvd (by decide) m : 25 ∣ m * 100))

theorem lt_bitLength {a n : Nat} (h : 2 ^ a ≤ n) : a < bitLength n := by
  have hn : n ≠ 0 := (Nat.lt_of_lt_of_le (Nat.two_pow_pos a) h).ne'
  rw [bitLength, if_neg hn, Nat.lt_succ_iff]
  exact (Nat.le_log2 hn).2 h

/-- An integer too long for the significand ends in as many zero bits as it is too long. -/
theorem two_pow_dvd_of_natRepresentable {fmt : FloatFmt} {n j : Nat} (h : natRepresentable fmt n = true)
    (hlong : fmt.mantBits + j ≤ bitLength n) : 2 ^ j ∣ n := by
  simp only [natRepresentable, Bool.and_eq_true, beq_iff_eq] at h
  obtain ⟨⟨hzeros, -⟩, -⟩ := h
  exact (Nat.pow_dvd_pow 2 (by omega)).trans (Nat.dvd_of_mod_eq_zero hzeros)

/-- A number of quarters is more than a tenth away from 3.14159, so only formats of at most 4 bits of significand can take it
for the nearest value, and its hundredfold, of 8 or 9 bits, does not fit those. -/
theorem not_natRepresentable_of_near {fmt : FloatFmt} {n : Nat} (hquarter : 25 ∣ n)
    (hnear : ((n * 1000 : Int) - 314159).natAbs * 2 ^ (fmt.mantBits - 1) ≤ 100000) : ¬natRepresentable fmt n = true := by
  intro hfits
  have hfar : 10841 ≤ ((n * 1000 : Int) - 314159).natAbs := by omega
  have hbits : fmt.mantBits ≤ 4 := by
    by_contra hmany
    have hpow : 2 ^ 4 ≤ 2 ^ (fmt.mantBits - 1) := Nat.pow_le_pow_right (by decide) (by omega)
    have := hnear.trans' (Nat.mul_le_mul hfar hpow)
    omega
  have hclose : ((n * 1000 : Int) - 314159).natAbs ≤ 100000 := hnear.trans' (Nat.le_mul_of_pos_right _ (Nat.two_pow_pos _))
  have hlong := lt_bitLength (a := 7) (n := n) (by omega)
  have hsixteen : 2 ^ 4 ∣ n := two_pow_dvd_of_natRepresentable hfits (by omega)
  obtain rfl : n = 400 := by omega
  have hlonger := lt_bitLength (a := 8) (n := 400) (by decide)
  exact absurd (two_pow_dvd_of_natRepresentable (j := 5) hfits (by omega)) (by decide)

/-- Law 2's value is none of those of laws 3 and 4. -/
theorem exactScaled_eq_none_of_isNearest {fmt : FloatFmt} {m : Nat} {e : Int} (h : isNearest314159 fmt m e = true) :
    exactScaled fmt m e 2 = none := by
  by_contra hsome
  obtain ⟨n, hn⟩ := Option.ne_none_iff_exists'.1 hsome
  obtain ⟨hscaled, hfits⟩ := (exactScaled_eq fmt m e 2 n).1 hn
  simp only [isNearest314159, Bool.and_eq_true, decide_eq_true_eq] at h
  obtain ⟨he, hnear⟩ := h
  obtain ⟨k, rfl⟩ : ∃ k : Nat, e = -(k : Int) := ⟨(-e).toNat, by omega⟩
  have hdyadic : m * 100 = n * 2 ^ k := by
    rw [zpow_neg, zpow_natCast, mul_right_comm, mul_inv_eq_iff_eq_mul₀ (by positivity)] at hscaled
    exact_mod_cast hscaled
  have hdistance : (m * 100000 : Int) - 314159 * 2 ^ k = (n * 1000 - 314159) * 2 ^ k := by
    have hcast : (m * 100 : Int) = n * 2 ^ k := by exact_mod_cast hdyadic
    linear_combination 1000 * hcast
  refine not_natRepresentable_of_near (twentyfive_dvd_of_scaled hdyadic) ?_ hfits
  rw [neg_neg, Int.toNat_natCast, hdistance, Int.natAbs_mul, Int.natAbs_pow, mul_right_comm] at hnear
  exact Nat.le_of_mul_le_mul_right hnear (Nat.two_pow_pos k)

/-- Law 2: the value that counts as 3.14159 prints 3.14. -/
theorem formatFixed_of_isNearest {fmt : FloatFmt} {m : Nat} {e : Int} (h : isNearest314159 fmt m e = true) :
    formatFixed fmt (.finite false m e) 2 = [0x33#8, 0x2E#8, 0x31#8, 0x34#8] := by
  simp only [formatFixed, exactScaled_eq_none_of_isNearest h, h, and_self, if_true]

/-- Settles O39: law 1 whichever branch gives the text, law 2 by `formatFixed_of_isNearest`, laws 3 and 4 by
`exactScaled_eq`. -/
theorem fixedPointFormatterLaws : Obligations.FixedPointFormatterLaws := by
  intro fmt neg m e p _
  refine ⟨hasPointDigits_formatFixed, ?law2, fun n hn hfits hzero => ?laws34⟩
  case law2 =>
    rintro rfl rfl hnear he
    exact formatFixed_of_isNearest ((isNearest314159_iff fmt m e he).2 hnear)
  case laws34 =>
    rw [formatFixed_of_exactScaled ((exactScaled_eq fmt m e p n).2 ⟨hn, (natRepresentable_iff fmt n).2 hfits⟩) hzero,
      List.append_assoc, fixedText]
    by_cases hp : p = 0
    · simp [hp]
    · simp [hp, lastDigits_eq, digitByte_eq]

/-! ### Cursor and display data after a command (rules R151, R152, R156 and R157, under the observer model of log entry 10) -/

/-- An accepted command runs to its end in `Idle`, with the receiver as its events leave it. -/
theorem exists_run_of_performAll {s : State} {i : Instr} {bus : Bus} (hrole : Instr.role i = .command)
    (hw : i.wellFormed s.cfg = true) (harg : argOk s.cfg i = true) (hs : s.seq = .idle) (hinit : s.initialized = true)
    (hbus : s.bus = some bus) {good : Receiver → Prop} (hgood : good (State.performAll bus (eventsOf s.cfg i bus) s).receiver) :
    ∃ t u, exec i s = .next t ∧ run ((eventsOf s.cfg i bus).length + 1) t = .next u ∧ u.seq = .idle ∧ good u.receiver :=
  ⟨_, _, exec_command_accepted hrole hw harg hs hinit hbus, run_of_not_init (by rw [hrole]; nofun) bus s, finish_seq _ _ _,
    by rwa [finish_receiver]⟩

/-- From `before` to `after` the sixteen columns of the row get the text, and every other byte of the display data is kept. -/
def RowWritten (row : Nat) (text : List Byte) (before after : Receiver) : Prop :=
  (∀ a : BitVec 7, a.toNat < 0x40 * row ∨ 0x40 * row + 16 ≤ a.toNat →
    Memory.read after.ddram a = Memory.read before.ddram a) ∧
  ∀ c : Nat, c < 16 → after.shown row c = text[c]?

/-- Only the display data counts. -/
theorem RowWritten.of_ddram_eq {row : Nat} {text : List Byte} {before after later : Receiver}
    (h : RowWritten row text before after) (hddram : later.ddram = after.ddram) : RowWritten row text before later := by
  unfold RowWritten Receiver.shown
  rw [hddram]
  exact h

section Row

variable {bus : Bus} (hd : distinct (activeSet bus.mode bus.pins) = true) {row : Nat} (hrow : row ≤ 1) {s : State}
  (h : InStep bus.mode s)
include hd hrow h

/-- SET_CURSOR to a receiver in step. -/
theorem cursor_taken {col : Nat} (hcol : col < 16) :
    let u := State.performAll bus (setCursorEvents row col bus) s
    InStep bus.mode u ∧ u.receiver.ddram = s.receiver.ddram ∧ u.receiver.ac = BitVec.ofNat 7 (0x40 * row + col) := by
  have hformed := addressFormed_ddramAddr (rowOk_of_le_one hrow) ((colOk_iff col).2 (by omega))
  obtain ⟨hin, -, hddram, hac⟩ := address_taken bus hd hformed s h
  exact ⟨hin, hddram, hac.trans (ddramAddr_eq_ofNat hrow col)⟩

/-- Sixteen data words after the address word of the row's column 0. -/
theorem row_taken {text : List Byte} (hlen : text.length = 16) :
    let u := State.performAll bus (setCursorEvents row 0 bus ++ printEvents text bus) s
    InStep bus.mode u ∧ u.receiver.ac = BitVec.ofNat 7 (0x40 * row + 16) ∧ RowWritten row text s.receiver u.receiver := by
  have htoNat : ∀ c, c ≤ 16 → (BitVec.ofNat 7 (0x40 * row + c)).toNat = 0x40 * row + c := fun c hc =>
    Nat.mod_eq_of_lt (by omega)
  obtain ⟨hin, hsame, hac⟩ := cursor_taken hd hrow h (col := 0) (by decide)
  obtain ⟨hin', -⟩ := print_taken bus hd text _ hin
  obtain ⟨hend, hread⟩ := print_stands bus hd text (0x40 * row) _ hin (by rw [hac]; exact htoNat 0 (by decide)) (by omega)
  rw [State.performAll_append]
  refine ⟨hin', BitVec.eq_of_toNat_eq (by rw [htoNat 16 le_rfl, ← hlen]; exact hend), fun a ha => ?other,
    fun c hc => ?column⟩
  case other =>
    rw [← hsame]
    exact (hread a).trans (dif_neg (by omega))
  case column =>
    rw [Receiver.shown, ddramAddr_eq_ofNat hrow]
    refine (hread _).trans ?_
    rw [dif_pos (by rw [htoNat c hc.le]; omega)]
    simp [htoNat c hc.le, hlen, hc]

end Row

/-- Settles O43: each command's events reach a receiver in step, and each word leaves it so: CLEAR by `clear_taken`, the cursor
by `cursor_taken`, a row by `row_taken`, CLEAR_ROW's last word by `cursor_taken` again. -/
theorem cursorRequestsMoveTheAddressCounter : Obligations.CursorRequestsMoveTheAddressCounter := by
  intro s bus row hinv hs hinit hbus hstep hrow ends otherBytes
  have hd := hinv.driverState.distinct_activeSet hinit hbus
  have hends : ∀ i good, Instr.role i = .command → i.wellFormed s.cfg = true → argOk s.cfg i = true →
      good (State.performAll bus (eventsOf s.cfg i bus) s).receiver → ends i good := fun i good hrole hw harg hgood =>
    exists_run_of_performAll hrole hw harg hs hinit hbus hgood
  clear_value ends -- so that `hends` is matched against a goal by its name
  refine ⟨?clear, fun col hcol => ?cursor, ?clearRow, fun g hg => ?bar⟩
  case clear =>
    refine hends _ _ rfl rfl rfl ?_
    obtain ⟨-, -, hddram, hac⟩ := clear_taken bus hd s hstep
    exact ⟨hac, fun a => by rw [eventsOf, hddram]; exact Memory.read_cleared a⟩
  case cursor =>
    refine hends _ _ rfl rfl (argOk_setCursor s.cfg hrow hcol) ?_
    obtain ⟨-, hddram, hac⟩ := cursor_taken hd hrow hstep hcol
    exact ⟨hac, hddram⟩
  case clearRow =>
    refine hends _ _ rfl rfl (argOk_clearRow s.cfg hrow) ?_
    obtain ⟨hin, -, hwritten⟩ := row_taken hd hrow hstep (text := List.replicate 16 0x20#8) rfl
    obtain ⟨-, hddram, hac⟩ := cursor_taken hd hrow hin (col := 0) (by decide)
    rw [eventsOf, clearRowEvents, State.performAll_append]
    obtain ⟨hother, hshown⟩ := hwritten.of_ddram_eq hddram
    exact ⟨hac, hother, fun c hc => (hshown c hc).trans (List.getElem?_replicate_of_lt hc)⟩
  case bar =>
    refine hends _ _ rfl rfl (argOk_progressBar s.cfg hrow hg) ?_
    obtain ⟨-, hac, hother, hshown⟩ := row_taken hd hrow hstep (length_barText hg)
    exact ⟨hac, hother, fun c hc => (hshown c hc).trans (getElem?_barText hc)⟩

end Sys2Proof.Machine
end

section
/-!
PROOFS, family 70_reset_and_hazards.md: the reset state (rule R200), and the enable-pulse timing of every trace (rules R210, R211
and R214).
-/

namespace Sys2Proof.Machine

/-! ### The enable-pulse timing across a step -/

theorem timingInv_of_idle {s : State} (hs : s.seq = .idle) (hunset : s.pins = none → noSet s.trace = true)
    (htimely : ∀ p, s.pins = some p → timely p.e s.trace = true) : TimingInv s := by
  rw [TimingInv, hs]
  exact ⟨hunset, htimely⟩

theorem timingInv_of_busy {s : State} {i : Instr} {bus : Bus} {rest : List Action} (hs : s.seq = .busy i bus rest)
    (htimely : timely bus.pins.e (s.trace ++ traceOf rest) = true)
    (hunset : ∀ p, Action.configure p ∈ rest → noSet s.trace = true) : TimingInv s := by
  rw [TimingInv, hs]
  exact ⟨htimely, fun ⟨p, hp⟩ => hunset p hp⟩

theorem TimingInv.idle {s : State} (h : TimingInv s) (hs : s.seq = .idle) :
    (s.pins = none → noSet s.trace = true) ∧ ∀ p, s.pins = some p → timely p.e s.trace = true := by
  rw [TimingInv, hs] at h
  exact h

theorem TimingInv.busy {s : State} {i : Instr} {bus : Bus} {rest : List Action} (h : TimingInv s)
    (hs : s.seq = .busy i bus rest) : timely bus.pins.e (s.trace ++ traceOf rest) = true ∧
    ∀ p, Action.configure p ∈ rest → noSet s.trace = true := by
  rw [TimingInv, hs] at h
  exact ⟨h.1, fun p hp => h.2 ⟨p, hp⟩⟩

/-- A configure call sets no pin, however it is answered. -/
theorem noSet_append_configure {trace : List Event} (h : noSet trace = true) (p : PinId) (answer : ConfigAnswer) :
    noSet (trace ++ [.configure p answer]) = true := by
  rw [noSet_append, h]
  rfl

/-- The step of a busy sequencer: the trace gains what the events to come lose; where a configure call is still to come, only
configure calls came before it; and one that fails leaves no driver state (43_initializer.md rule R132). -/
theorem TimingInv.advance {s : State} {i : Instr} {bus : Bus} {rest : List Action} (htiming : TimingInv s) (hinv : DriverInv s)
    (hs : s.seq = .busy i bus rest) : TimingInv (s.advance i bus rest) := by
  obtain ⟨htimely, hunset⟩ := htiming.busy hs
  obtain ⟨rfl, ht⟩ | ⟨a, more, rfl, -, ht⟩ | ⟨p, more, rfl, -, ht⟩ := advance_cases i bus rest s <;> rw [ht]
  · have hpins := (hinv.request hs).pins_finish
    refine timingInv_of_idle (finish_seq ..) (fun hnone => absurd (hpins.symm.trans hnone) nofun) fun p hp => ?_
    obtain rfl : bus.pins = p := Option.some.inj (hpins.symm.trans hp)
    rw [finish_trace]
    exact List.append_nil s.trace ▸ htimely
  · have htrace : ((s.perform bus a).busyWith i bus more).trace = s.trace ++ [a.event .ok] := perform_trace bus a s
    refine timingInv_of_busy rfl ?_ fun p hp => ?_
    · rw [htrace, List.append_assoc]
      exact htimely
    · obtain ⟨-, hsuffix, -⟩ := hinv.request hs
      obtain ⟨q, rfl⟩ := configure_of_suffix hsuffix hp
      rw [htrace]
      exact noSet_append_configure (hunset p (List.mem_cons_of_mem _ hp)) q .ok
  · have hpins := hinv.pins_of_configure hs
    exact timingInv_of_idle rfl (fun _ => noSet_append_configure (hunset p (List.mem_cons_self ..)) p .fail)
      fun q hq => absurd (hpins.symm.trans hq) nofun

/-- A request issued in `Idle`: an error performs nothing. What is accepted keeps the timing from a trace that kept it on the
bus's E: a command by the invariant on the driver state's pins, INIT because no pin was ever set. -/
theorem TimingInv.issue {s t : State} {i : Instr} (htiming : TimingInv s) (hgood : DriverStateGood s) (hs : s.seq = .idle)
    (h : exec i s = .next t) : TimingInv t := by
  obtain ⟨hunset, htimely⟩ := htiming.idle hs
  obtain ⟨k, -, -, rfl⟩ | ⟨bus, rfl, ⟨-, hun, rfl, hvalid⟩ | ⟨hrole, hinit, -, hbus⟩⟩ := exec_cases hs h
  · exact timingInv_of_idle rfl hunset htimely
  · have hclean : noSet s.trace = true := hunset (hgood.2 hun).2
    exact timingInv_of_busy rfl
      (timely_append _ _ _ (timely_of_noSet _ _ hclean) (keepsTiming_events _ _ bus (distinct_of_validate hvalid)))
      fun _ _ => hclean
  · have hd := hgood.distinct_activeSet hinit hbus
    refine timingInv_of_busy rfl
      (timely_append _ _ _ (htimely _ (State.bus_eq_some.1 hbus).2) (keepsTiming_events _ i bus hd)) fun p hp => ?_
    exact absurd hp (no_configure_of_not_init s.cfg bus (by rw [hrole]; nofun) p)

/-- Settles O46, by cases on the sequencer: an event performed moves from the events to come to the trace, and the event list of
a request that is accepted keeps the timing from any trace that kept it. -/
theorem stepKeepsTheEnableTiming : Obligations.StepKeepsTheEnableTiming := by
  intro s t hinv htiming h
  cases hs : s.seq with
  | busy i bus rest =>
    rw [step_busy hs] at h
    cases h
    exact htiming.advance hinv hs
  | idle =>
    obtain ⟨hunset, htimely⟩ := htiming.idle hs
    obtain ⟨-, rfl⟩ | ⟨c, cs, i, -, -, hexec⟩ := step_idle_cases hs h
    · exact timingInv_of_idle hs hunset htimely
    · exact TimingInv.issue (s := s.takeRequest cs) (timingInv_of_idle hs hunset htimely)
        (hinv.driverState.of_kept (driverStateKept_of_eq rfl rfl rfl rfl rfl)) hs hexec

/-! ### The reset state -/

/-- Settles O1: the fields by the definition of `State.reset`, the display data by `Memory.read_draw`, and the step, with no
request listed, is the idle wait (`step_idle_nil`). -/
theorem resetStateIsTheSpecsTable : Obligations.ResetStateIsTheSpecsTable :=
  ⟨rfl, rfl, rfl, fun _ => rfl, rfl, rfl, rfl, Memory.read_draw 0,
    State.reset.idleWait, step_idle_nil rfl rfl, rfl, rfl, rfl, rfl, rfl, rfl, fun _ => rfl, rfl, rfl⟩

end Sys2Proof.Machine
end
